-- ==== Sys2Proof/Word.lean ====
section
/-! DEFINITION. The word types of the block and the closed sets of names that several files use:
chips, devices, port directions and access widths. -/

namespace Sys2Proof

/-- An 8-bit register, command byte or vector (10_state.md R11 to R14). -/
abbrev Byte := BitVec 8

/-- A 16-bit I/O port number (20_memory.md R40). -/
abbrev Port := BitVec 16

/-- The two controller chips (10_state.md R10). -/
inductive Chip where
  /-- the master, global lines 0 to 7 -/
  | M
  /-- the slave, global lines 8 to 15 -/
  | S
  deriving DecidableEq, Repr

/-- A device identity on the port bus (10_state.md R22, R23): a chip or a peripheral.
The handle of a peripheral is one byte (log 33). -/
inductive Device where
  | chip (c : Chip)
  | peripheral (k : Byte)
  deriving DecidableEq, Repr

/-- The direction of a registration (40_port_bus.md R80). -/
inductive Dir where
  | read
  | write
  | readWrite
  deriving DecidableEq, Repr

/-- The width of a port access (20_memory.md R48) and of a string operand (44_repeat.md R150). -/
inductive Width where
  | w8
  | w16
  | w32
  deriving DecidableEq, Repr

/-- The number of bytes of a width. -/
def Width.bytes : Width → Nat
  | .w8 => 1
  | .w16 => 2
  | .w32 => 4

end Sys2Proof
end

