-- ==== Sys2Proof/Config.lean ====
section
/-! DEFINITION. The configuration of a machine (10_state.md R29, 00_scope.md R5), plain data that no
step writes, and the free values, which nothing constrains. -/

namespace Sys2Proof

/-- `VIOLATION_POLICY` (60_exceptions.md R171). -/
inductive Policy where
  | reportAndContinue
  | fault
  deriving DecidableEq, Repr

/-- A device record of a peripheral (10_state.md R23), with the overrides it may make
(40_port_bus.md R92). DESIGN CHOICE (log 22): one flag for a width covers its reads and its writes. -/
structure DeviceRecord where
  /-- the peripheral's handle -/
  handle : Byte
  /-- the (port, direction) pairs it registers while the machine is built -/
  ports : List (Port × Dir)
  /-- its assigned interrupt line, or none -/
  line : Option (BitVec 4)
  /-- it performs a 16-bit access, read or write, as one atomic operation -/
  override16 : Bool
  /-- it performs a 32-bit access, read or write, as one atomic operation -/
  override32 : Bool
  deriving DecidableEq, Repr

/-- The parameters the spec leaves OPEN and the device records (00_scope.md R5, 10_state.md R29). -/
structure Config where
  picBaseM : Port
  picBaseS : Port
  junk8 : Byte
  junk16 : BitVec 16
  junk32 : BitVec 32
  vbResetM : Byte
  vbResetS : Byte
  policy : Policy
  /-- whether V5 and V6 are recorded: the log of an unregistered access is optional (40_port_bus.md R84) -/
  logUnregistered : Bool
  devices : List DeviceRecord
  deriving DecidableEq, Repr

/-- `VB_RESET[c]` of the default machine: a FREE VALUE (10_state.md R30: "OPEN; unspecified"; log 5). -/
opaque Config.freeVbReset : Chip → Byte

/-- The byte a peripheral answers when the outside supplies none: a FREE VALUE (log 13). -/
opaque Config.freeDeviceByte : Nat → Byte

/-- The zero flag the excluded element body leaves when the outside supplies none: a FREE VALUE (log 12). -/
opaque Config.freeBodyZf : Nat → Bool

/-- The data the excluded element body hands to `port_out` when the outside supplies none: a FREE VALUE
(log 12). -/
opaque Config.freeBodyData : Nat → BitVec 32

/-- The address of the instruction after one that is no repeat, when the outside supplies none: a FREE VALUE
(log 36). -/
opaque Config.freeNextIp : Nat → BitVec 32

/-- `PIC_BASE[c]`, the even port of a chip's pair (20_memory.md R51). -/
def Config.picBase (g : Config) : Chip → Port
  | .M => g.picBaseM
  | .S => g.picBaseS

/-- `VB_RESET[c]` (70_reset_and_hazards.md R201). -/
def Config.vbReset (g : Config) : Chip → Byte
  | .M => g.vbResetM
  | .S => g.vbResetS

/-- `CYCLE_INC` (44_repeat.md R166). -/
def Config.cycleInc : Nat := 1

/-- The global line wired to the slave's output (10_state.md R10). -/
def Config.cascadeLine : Nat := 2

/-- Ports below it are indexed directly by the source; the result of a lookup does not depend on it
(20_memory.md R52). -/
def Config.fastPortThreshold : Nat := 1024

/-- The record of a peripheral, if there is one. -/
def Config.record? (g : Config) (k : Byte) : Option DeviceRecord :=
  g.devices.find? (fun d => d.handle == k)

/-- What 00_scope.md R5, 10_state.md R23 and 70_reset_and_hazards.md R216 ask of a configuration:
even chip ports, four distinct ones, one record for a peripheral, and no device on line 2. That no (port, direction) has two
owners is checked by registering them (`State.build`). -/
def Config.wf (g : Config) : Bool :=
  g.picBaseM.toNat % 2 == 0 && g.picBaseS.toNat % 2 == 0 && g.picBaseM != g.picBaseS
    && decide (g.devices.map (·.handle)).Nodup && g.devices.all (fun d => d.line != some 2)

/-- The spec's defaults (00_scope.md R5; log 4). -/
def Config.default : Config where
  picBaseM := 0x0020
  picBaseS := 0x00A0
  junk8 := 0xFF
  junk16 := 0xFFFF
  junk32 := 0xFFFFFFFF
  vbResetM := Config.freeVbReset .M
  vbResetS := Config.freeVbReset .S
  policy := .reportAndContinue
  logUnregistered := true
  devices := []

end Sys2Proof
end

