-- ==== Sys2Proof/Syntax.lean ====
section
/-! DEFINITION. The operations of the block as one inductive, a constructor for each row of
spec/opcode_table.json (30_encoding.md R73). -/

namespace Sys2Proof

/-- The repeat modifier (44_repeat.md R150). -/
inductive RepMode where
  | none
  /-- repeat while the zero flag is 0 -/
  | repNz
  /-- repeat while the zero flag is 1 -/
  | repZ
  deriving DecidableEq, Repr

/-- The kind of a string element (44_repeat.md R150). -/
inductive StringKind where
  | move
  | load
  | store
  | compare
  | scan
  | portIn
  | portOut
  deriving DecidableEq, Repr

/-- `addr_size`, the width of the count and index registers (44_repeat.md R150). -/
inductive AddrSize where
  | a16
  | a32
  deriving DecidableEq, Repr

/-- `dir`, the direction of the index advance (44_repeat.md R150, R162). -/
inductive Direction where
  /-- `+1` -/
  | up
  /-- `-1` -/
  | down
  deriving DecidableEq, Repr

/-- The inputs of the repeat driver (44_repeat.md R150), and the address after the instruction, which
the core sets `ip` to on completion (R159) and which the core's decoder knows (log 9). -/
structure RepInputs where
  rep : RepMode
  kind : StringKind
  width : Width
  addrSize : AddrSize
  dir : Direction
  ip0 : BitVec 32
  ipNext : BitVec 32
  deriving DecidableEq, Repr

/-- What a reset acts on (70_reset_and_hazards.md R200, R201; 40_port_bus.md R93; log 21). -/
inductive ResetScope where
  /-- the machine resets every device -/
  | machine
  /-- the reset entry of one device -/
  | device (d : Device)
  deriving DecidableEq, Repr

/-- The operations. `c` is the chip addressed, `v` the byte written, `p` a port, `n` a line. -/
inductive Instr where
  -- command-port writes (30_encoding.md R61 to R64)
  | icw1 (c : Chip) (v : Byte)
  | ocw3Poll (c : Chip) (v : Byte)
  | ocw3Bit7 (c : Chip) (v : Byte)
  | ocw3 (c : Chip) (esmm smm rr ris : Bool)
  | eoi (c : Chip)
  | seoi (c : Chip) (l : BitVec 3)
  | ocw2Unrecognized (c : Chip) (v : Byte)
  -- data-port writes (30_encoding.md R65)
  | icw2 (c : Chip) (base : BitVec 5) (dropped : BitVec 3)
  | icw4 (c : Chip) (v : Byte)
  | ocw1 (c : Chip) (m : Byte)
  -- chip reads (30_encoding.md R66)
  | readStatus (c : Chip)
  | readMask (c : Chip)
  -- lines and queries (41_pic_lines.md); a line operand is one byte, so that an out-of-range line
  -- exists (log 19)
  | raise (n : Byte)
  | lower (n : Byte)
  | query (n : Byte)
  | anyPending
  | deliverable
  | recompute
  -- delivery (43_service.md)
  | service
  | encode (w : BitVec 16)
  | ignore (b : Bool)
  -- the port bus (40_port_bus.md)
  | register (p : Port) (d : Device) (dir : Dir)
  | unregister (d : Device)
  | lookupInput (p : Port)
  | lookupOutput (p : Port)
  | in8 (p : Port)
  | in16 (p : Port)
  | in32 (p : Port)
  | out8 (p : Port) (v : Byte)
  | out16 (p : Port) (v : BitVec 16)
  | out32 (p : Port) (v : BitVec 32)
  -- reset (70_reset_and_hazards.md) and the repeat driver (44_repeat.md)
  | reset (t : ResetScope)
  | rep (j : RepInputs)
  deriving DecidableEq, Repr

/-- The agents of 20_memory.md R53. The core acts for the guest or for itself at a boundary. -/
inductive Agent where
  | guest
  | core
  | device
  | debugHost
  | machine
  deriving DecidableEq, Repr

/-- Who issues an operation (10_state.md R31, 20_memory.md R53). -/
def Instr.agent : Instr → Agent
  | .icw1 .. | .ocw3Poll .. | .ocw3Bit7 .. | .ocw3 .. | .eoi .. | .seoi .. | .ocw2Unrecognized ..
  | .icw2 .. | .icw4 .. | .ocw1 .. | .readStatus .. | .readMask ..
  | .in8 .. | .in16 .. | .in32 .. | .out8 .. | .out16 .. | .out32 .. | .rep .. => .guest
  | .query .. | .anyPending | .deliverable | .recompute | .service | .encode .. => .core
  | .raise .. | .lower .. => .device
  | .ignore .. => .debugHost
  | .register .. | .unregister .. | .lookupInput .. | .lookupOutput .. | .reset .. => .machine

/-- An instruction of the guest, which the core runs and after which it stands at an instruction
boundary (43_service.md R147). -/
def Instr.isGuest (i : Instr) : Bool := i.agent == .guest

/-- The one instruction that writes the core's `ip` itself (44_repeat.md R154, R159). -/
def Instr.isRepeat : Instr → Bool
  | .rep _ => true
  | _ => false

end Sys2Proof
end

