-- ==== Sys2Proof/WellFormed.lean ====
section
/-! DEFINITION. Which terms of `Instr` are instructions: the byte a command-port constructor carries
belongs to its own row of spec/opcode_table.json (30_encoding.md R61 to R64). -/

namespace Sys2Proof

/-- ICW1: bit 4 is set (30_encoding.md R62). -/
def wfIcw1 (v : Byte) : Bool := v &&& 0x10 == 0x10

/-- OCW3_POLL: bits 4:3 are `01` and bit 2 is set (30_encoding.md R64). -/
def wfOcw3Poll (v : Byte) : Bool := v &&& 0x1C == 0x0C

/-- OCW3_BIT7: bits 4:3 are `01`, bit 2 is clear and bit 7 is set (30_encoding.md R64). -/
def wfOcw3Bit7 (v : Byte) : Bool := v &&& 0x9C == 0x88

/-- OCW2_UNRECOGNIZED: bits 4:3 are `00`, and the byte is neither 0x20 nor 0x60 to 0x67
(30_encoding.md R63). -/
def wfOcw2Unrecognized (v : Byte) : Bool := v &&& 0x18 == 0 && v != 0x20 && v &&& 0xE0 != 0x60

/-- The well-formed instructions. Every other operand is legal at every value of its type. -/
def Instr.wf : Instr → Bool
  | .icw1 _ v => wfIcw1 v
  | .ocw3Poll _ v => wfOcw3Poll v
  | .ocw3Bit7 _ v => wfOcw3Bit7 v
  | .ocw2Unrecognized _ v => wfOcw2Unrecognized v
  | .ocw3 .. | .eoi .. | .seoi .. | .icw2 .. | .icw4 .. | .ocw1 .. | .readStatus .. | .readMask ..
  | .raise .. | .lower .. | .query .. | .anyPending | .deliverable | .recompute | .service
  | .encode .. | .ignore .. | .register .. | .unregister .. | .lookupInput .. | .lookupOutput ..
  | .in8 .. | .in16 .. | .in32 .. | .out8 .. | .out16 .. | .out32 .. | .reset .. | .rep .. => true

end Sys2Proof
end

