-- ==== Sys2Proof/Decode.lean ====
section
/-! DEFINITION. From the bytes of a transaction to an instruction, and back. The bytes of the two chip
ports are the spec's (30_encoding.md R61 to R65). The frame around them, a selector byte and the operand
word of spec/opcode_table.json in whole bytes, the lowest first, is the model's own (log 2), since the
spec gives the interface operations no bit encoding (30_encoding.md R73). -/

namespace Sys2Proof

/-- What a data-port write of a chip is taken as (30_encoding.md R65, 10_state.md R28). -/
inductive Phase where
  | vectorBase
  | fourthByte
  | mask
  deriving DecidableEq, Repr

/-- The phases of both chips, the only state that changes how a byte is decoded (30_encoding.md R71). -/
structure Phases where
  m : Phase
  s : Phase
  deriving DecidableEq, Repr

/-- The phase of one chip. -/
def Phases.of (ph : Phases) : Chip → Phase
  | .M => ph.m
  | .S => ph.s

/-- The phase given by a chip's two phase flags (10_state.md R28). -/
def phaseOf (awaitIcw2 awaitIcw4 : Bool) : Phase :=
  if awaitIcw2 then .vectorBase else if awaitIcw4 then .fourthByte else .mask

/-- The first byte of a frame: the interface it is presented at. -/
inductive Selector where
  -- the four shorthands of 30_encoding.md R72
  | mcmd | mdata | scmd | sdata
  -- a chip read, with the one port bit the chip decodes (30_encoding.md R60)
  | mread | sread
  | raise | lower | query | anyPending | deliverable | recompute | service | encode | ignore
  | register | unregister | lookupInput | lookupOutput
  | in8 | in16 | in32 | out8 | out16 | out32
  | reset | rep
  deriving DecidableEq, Repr

/-- The selectors in the order of their codes. -/
def Selector.all : List Selector :=
  [.mcmd, .mdata, .scmd, .sdata, .mread, .sread, .raise, .lower, .query, .anyPending, .deliverable,
   .recompute, .service, .encode, .ignore, .register, .unregister, .lookupInput, .lookupOutput,
   .in8, .in16, .in32, .out8, .out16, .out32, .reset, .rep]

/-- The byte of a selector: its place in `Selector.all`. -/
def Selector.code (sel : Selector) : Byte := BitVec.ofNat 8 (Selector.all.idxOf sel)

/-- The selector of a byte. -/
def Selector.ofByte (b : Byte) : Option Selector := Selector.all[b.toNat]?

/-- Why a frame is no instruction. -/
inductive DecodeError where
  | emptyFrame
  | unknownSelector (b : Byte)
  | wrongLength (sel : Selector)
  /-- a frame of an operation without operand, whose operand word is not the table's `1` -/
  | badOperandWord
  /-- a port bit or a flag that is neither 0 nor 1 -/
  | badBit (b : Byte)
  | badDevice (kind k : Byte)
  | reservedDirection
  | reservedRepMode
  | reservedKind
  | reservedWidth
  /-- bits above the table's operand word that are not 0 -/
  | reservedBits
  deriving DecidableEq, Repr

/-! ### The bytes of the two chip ports -/

/-- A byte written to the command port, tested in the order of 30_encoding.md R61. -/
def decodeCommand (c : Chip) (v : Byte) : Instr :=
  if v.getLsbD 4 then .icw1 c v
  else if v.getLsbD 3 then
    if v.getLsbD 2 then .ocw3Poll c v
    else if v.getLsbD 7 then .ocw3Bit7 c v
    else .ocw3 c (v.getLsbD 6) (v.getLsbD 5) (v.getLsbD 1) (v.getLsbD 0)
  else if v = 0x20 then .eoi c
  else if v.extractLsb' 5 3 = 0b011 then .seoi c (v.extractLsb' 0 3)
  else .ocw2Unrecognized c v

/-- A byte written to the data port, by the chip's phase (30_encoding.md R65). -/
def decodeData (c : Chip) (ph : Phase) (v : Byte) : Instr :=
  match ph with
  | .vectorBase => .icw2 c (v.extractLsb' 3 5) (v.extractLsb' 0 3)
  | .fourthByte => .icw4 c v
  | .mask => .ocw1 c v

/-- The port bit a chip decodes on a read (30_encoding.md R60). -/
def decodeRead (c : Chip) (b : Byte) : Except DecodeError Instr :=
  if b = 0 then .ok (.readStatus c) else if b = 1 then .ok (.readMask c) else .error (.badBit b)

/-! ### Operand fields -/

/-- A frame with one operand byte. -/
def oneByte (sel : Selector) (f : Byte → Except DecodeError Instr) : List Byte → Except DecodeError Instr
  | [b] => f b
  | _ => .error (.wrongLength sel)

/-- A frame with one 16-bit operand. -/
def oneWord (sel : Selector) (f : BitVec 16 → Except DecodeError Instr) :
    List Byte → Except DecodeError Instr
  | [lo, hi] => f (hi ++ lo)
  | _ => .error (.wrongLength sel)

/-- The operand word `1` of an operation without operand (30_encoding.md R73). -/
def noOperand (sel : Selector) (i : Instr) : List Byte → Except DecodeError Instr :=
  oneByte sel (fun b => if b = 1 then .ok i else .error .badOperandWord)

/-- A one-bit operand in a byte. -/
def decodeFlag (b : Byte) : Except DecodeError Bool :=
  if b = 0 then .ok false else if b = 1 then .ok true else .error (.badBit b)

/-- A device handle, two bytes (log 2). -/
def decodeDevice (kind k : Byte) : Except DecodeError Device :=
  if kind = 0 then .ok (.peripheral k)
  else if kind = 1 ∧ k = 0 then .ok (.chip .M)
  else if kind = 1 ∧ k = 1 then .ok (.chip .S)
  else .error (.badDevice kind k)

/-- What a reset acts on, two bytes (log 2). -/
def decodeScope (kind k : Byte) : Except DecodeError ResetScope :=
  if kind = 2 ∧ k = 0 then .ok .machine else (decodeDevice kind k).map .device

/-- The directions in the order of spec/opcode_table.json's row REGISTER. -/
def decodeDir (b : BitVec 2) : Except DecodeError Dir :=
  if b = 0 then .ok .read else if b = 1 then .ok .write else if b = 2 then .ok .readWrite
  else .error .reservedDirection

/-- The repeat modifiers in the order of spec/opcode_table.json's row REP. -/
def decodeRepMode (b : BitVec 2) : Except DecodeError RepMode :=
  if b = 0 then .ok .none else if b = 1 then .ok .repNz else if b = 2 then .ok .repZ
  else .error .reservedRepMode

/-- The kinds in the order of spec/opcode_table.json's row REP. -/
def decodeKind (b : BitVec 3) : Except DecodeError StringKind :=
  if b = 0 then .ok .move else if b = 1 then .ok .load else if b = 2 then .ok .store
  else if b = 3 then .ok .compare else if b = 4 then .ok .scan else if b = 5 then .ok .portIn
  else if b = 6 then .ok .portOut else .error .reservedKind

/-- The widths in the order of spec/opcode_table.json's row REP. -/
def decodeWidth (b : BitVec 2) : Except DecodeError Width :=
  if b = 0 then .ok .w8 else if b = 1 then .ok .w16 else if b = 2 then .ok .w32
  else .error .reservedWidth

/-- The nine bits `rrkkkwwad` of the row REP, with the two addresses it does not encode. -/
def decodeRepInputs (w : BitVec 16) (ip0 ipNext : BitVec 32) : Except DecodeError Instr :=
  if w.extractLsb' 9 7 ≠ 0 then .error .reservedBits
  else do
    let rep ← decodeRepMode (w.extractLsb' 7 2)
    let kind ← decodeKind (w.extractLsb' 4 3)
    let width ← decodeWidth (w.extractLsb' 2 2)
    let addrSize := if w.getLsbD 1 then AddrSize.a32 else AddrSize.a16
    let dir := if w.getLsbD 0 then Direction.down else Direction.up
    pure (.rep { rep, kind, width, addrSize, dir, ip0, ipNext })

/-- The eighteen bits `p…pdd` of the row REGISTER, with the device handle it does not encode. -/
def decodeRegister (w : BitVec 24) (kind k : Byte) : Except DecodeError Instr :=
  if w.extractLsb' 18 6 ≠ 0 then .error .reservedBits
  else do
    let dir ← decodeDir (w.extractLsb' 0 2)
    let d ← decodeDevice kind k
    pure (.register (w.extractLsb' 2 16) d dir)

/-! ### Frames -/

/-- The operand bytes of a frame, by its selector. DESIGN CHOICE: a chip frame (the first six selectors) is
presented at the chip itself, without a lookup in the port maps (log 38). -/
def decodeOperands (ph : Phases) (sel : Selector) (ops : List Byte) : Except DecodeError Instr :=
  match sel with
  | .mcmd => oneByte sel (fun v => .ok (decodeCommand .M v)) ops
  | .mdata => oneByte sel (fun v => .ok (decodeData .M ph.m v)) ops
  | .scmd => oneByte sel (fun v => .ok (decodeCommand .S v)) ops
  | .sdata => oneByte sel (fun v => .ok (decodeData .S ph.s v)) ops
  | .mread => oneByte sel (decodeRead .M) ops
  | .sread => oneByte sel (decodeRead .S) ops
  | .raise => oneByte sel (fun n => .ok (.raise n)) ops
  | .lower => oneByte sel (fun n => .ok (.lower n)) ops
  | .query => oneByte sel (fun n => .ok (.query n)) ops
  | .anyPending => noOperand sel .anyPending ops
  | .deliverable => noOperand sel .deliverable ops
  | .recompute => noOperand sel .recompute ops
  | .service => noOperand sel .service ops
  | .encode => oneWord sel (fun w => .ok (.encode w)) ops
  | .ignore => oneByte sel (fun b => (decodeFlag b).map .ignore) ops
  | .register =>
    match ops with
    | [w0, w1, w2, kind, k] => decodeRegister (w2 ++ w1 ++ w0) kind k
    | _ => .error (.wrongLength sel)
  | .unregister =>
    match ops with
    | [w, kind, k] => if w = 1 then (decodeDevice kind k).map .unregister else .error .badOperandWord
    | _ => .error (.wrongLength sel)
  | .lookupInput => oneWord sel (fun p => .ok (.lookupInput p)) ops
  | .lookupOutput => oneWord sel (fun p => .ok (.lookupOutput p)) ops
  | .in8 => oneWord sel (fun p => .ok (.in8 p)) ops
  | .in16 => oneWord sel (fun p => .ok (.in16 p)) ops
  | .in32 => oneWord sel (fun p => .ok (.in32 p)) ops
  | .out8 =>
    match ops with
    | [v, p0, p1] => .ok (.out8 (p1 ++ p0) v)
    | _ => .error (.wrongLength sel)
  | .out16 =>
    match ops with
    | [v0, v1, p0, p1] => .ok (.out16 (p1 ++ p0) (v1 ++ v0))
    | _ => .error (.wrongLength sel)
  | .out32 =>
    match ops with
    | [v0, v1, v2, v3, p0, p1] => .ok (.out32 (p1 ++ p0) (v3 ++ v2 ++ v1 ++ v0))
    | _ => .error (.wrongLength sel)
  | .reset =>
    match ops with
    | [w, kind, k] => if w = 1 then (decodeScope kind k).map .reset else .error .badOperandWord
    | _ => .error (.wrongLength sel)
  | .rep =>
    match ops with
    | [w0, w1, a0, a1, a2, a3, n0, n1, n2, n3] =>
      decodeRepInputs (w1 ++ w0) (a3 ++ a2 ++ a1 ++ a0) (n3 ++ n2 ++ n1 ++ n0)
    | _ => .error (.wrongLength sel)

/-- The instruction of a frame, or why it is none. Total on any bytes. -/
def decode (ph : Phases) : List Byte → Except DecodeError Instr
  | [] => .error .emptyFrame
  | b :: ops =>
    match Selector.ofByte b with
    | none => .error (.unknownSelector b)
    | some sel => decodeOperands ph sel ops

/-! ### The encoder -/

/-- The byte of a command-port instruction: the pattern of its row in spec/opcode_table.json with its
fields in place (30_encoding.md R62 to R64). Other instructions have none. -/
def commandByte : Instr → Byte
  | .icw1 _ v => v
  | .ocw3Poll _ v => v
  | .ocw3Bit7 _ v => v
  | .ocw3 _ esmm smm rr ris =>
    0b0#1 ++ BitVec.ofBool esmm ++ BitVec.ofBool smm ++ 0b010#3 ++ BitVec.ofBool rr ++ BitVec.ofBool ris
  | .eoi _ => 0x20
  | .seoi _ l => 0b01100#5 ++ l
  | .ocw2Unrecognized _ v => v
  | _ => 0

/-- The selector of a chip's command port (30_encoding.md R72). -/
def commandSelector : Chip → Selector
  | .M => .mcmd
  | .S => .scmd

/-- The selector of a chip's data port (30_encoding.md R72). -/
def dataSelector : Chip → Selector
  | .M => .mdata
  | .S => .sdata

/-- The selector of a chip's reads. -/
def readSelector : Chip → Selector
  | .M => .mread
  | .S => .sread

/-- A word in two bytes, the low byte first. -/
def bytes16 (w : BitVec 16) : List Byte := [w.extractLsb' 0 8, w.extractLsb' 8 8]

/-- A word in three bytes, the lowest first. -/
def bytes24 (w : BitVec 24) : List Byte := [w.extractLsb' 0 8, w.extractLsb' 8 8, w.extractLsb' 16 8]

/-- A word in four bytes, the lowest first. -/
def bytes32 (w : BitVec 32) : List Byte :=
  [w.extractLsb' 0 8, w.extractLsb' 8 8, w.extractLsb' 16 8, w.extractLsb' 24 8]

/-- The two bytes of a device handle. -/
def deviceBytes : Device → List Byte
  | .peripheral k => [0, k]
  | .chip .M => [1, 0]
  | .chip .S => [1, 1]

/-- The two bytes of what a reset acts on. -/
def scopeBytes : ResetScope → List Byte
  | .machine => [2, 0]
  | .device d => deviceBytes d

/-- The two bits `dd` of the row REGISTER. -/
def dirBits : Dir → BitVec 2
  | .read => 0
  | .write => 1
  | .readWrite => 2

/-- The two bits `rr` of the row REP. -/
def repBits : RepMode → BitVec 2
  | .none => 0
  | .repNz => 1
  | .repZ => 2

/-- The three bits `kkk` of the row REP. -/
def kindBits : StringKind → BitVec 3
  | .move => 0
  | .load => 1
  | .store => 2
  | .compare => 3
  | .scan => 4
  | .portIn => 5
  | .portOut => 6

/-- The two bits `ww` of the row REP. -/
def widthBits : Width → BitVec 2
  | .w8 => 0
  | .w16 => 1
  | .w32 => 2

/-- The bit `a` of the row REP. -/
def addrBit : AddrSize → BitVec 1
  | .a16 => 0
  | .a32 => 1

/-- The bit `d` of the row REP. -/
def directionBit : Direction → BitVec 1
  | .up => 0
  | .down => 1

/-- The nine bits `rrkkkwwad` of the row REP in a 16-bit word. -/
def repWord (j : RepInputs) : BitVec 16 :=
  0#7 ++ repBits j.rep ++ kindBits j.kind ++ widthBits j.width ++ addrBit j.addrSize ++ directionBit j.dir

/-- The eighteen bits `p…pdd` of the row REGISTER in a 24-bit word. -/
def registerWord (p : Port) (dir : Dir) : BitVec 24 := 0#6 ++ p ++ dirBits dir

/-- The frame of an instruction. -/
def encode (i : Instr) : List Byte :=
  match i with
  | .icw1 c _ | .ocw3Poll c _ | .ocw3Bit7 c _ | .ocw3 c _ _ _ _ | .eoi c | .seoi c _
  | .ocw2Unrecognized c _ => [(commandSelector c).code, commandByte i]
  | .icw2 c base dropped => [(dataSelector c).code, base ++ dropped]
  | .icw4 c v => [(dataSelector c).code, v]
  | .ocw1 c m => [(dataSelector c).code, m]
  | .readStatus c => [(readSelector c).code, 0]
  | .readMask c => [(readSelector c).code, 1]
  | .raise n => [Selector.raise.code, n]
  | .lower n => [Selector.lower.code, n]
  | .query n => [Selector.query.code, n]
  | .anyPending => [Selector.anyPending.code, 1]
  | .deliverable => [Selector.deliverable.code, 1]
  | .recompute => [Selector.recompute.code, 1]
  | .service => [Selector.service.code, 1]
  | .encode w => Selector.encode.code :: bytes16 w
  | .ignore b => [Selector.ignore.code, if b then 1 else 0]
  | .register p d dir => Selector.register.code :: (bytes24 (registerWord p dir) ++ deviceBytes d)
  | .unregister d => Selector.unregister.code :: 1 :: deviceBytes d
  | .lookupInput p => Selector.lookupInput.code :: bytes16 p
  | .lookupOutput p => Selector.lookupOutput.code :: bytes16 p
  | .in8 p => Selector.in8.code :: bytes16 p
  | .in16 p => Selector.in16.code :: bytes16 p
  | .in32 p => Selector.in32.code :: bytes16 p
  | .out8 p v => Selector.out8.code :: v :: bytes16 p
  | .out16 p v => Selector.out16.code :: (bytes16 v ++ bytes16 p)
  | .out32 p v => Selector.out32.code :: (bytes32 v ++ bytes16 p)
  | .reset t => Selector.reset.code :: 1 :: scopeBytes t
  | .rep j => Selector.rep.code :: (bytes16 (repWord j) ++ bytes32 j.ip0 ++ bytes32 j.ipNext)

/-- Whether the phases are those in which the instruction's byte has its meaning: only the three
data-port rows depend on them (30_encoding.md R65, R71). -/
def Instr.fitsPhases (ph : Phases) : Instr → Bool
  | .icw2 c _ _ => ph.of c == .vectorBase
  | .icw4 c _ => ph.of c == .fourthByte
  | .ocw1 c _ => ph.of c == .mask
  | _ => true

/-! ### Words of the opcode table -/

/-- `n` bytes of a number, the lowest first. -/
def lowBytes : Nat → Nat → List Byte
  | 0, _ => []
  | n + 1, w => BitVec.ofNat 8 w :: lowBytes n (w / 256)

/-- The frame of a bare table word. A table word carries no selector, so its length decides: a byte is a
command byte of the master, longer words are the guest's port accesses (log 3). -/
def tableFrame (nbits w : Nat) : List Byte :=
  if nbits = 8 then Selector.mcmd.code :: lowBytes 1 w
  else if nbits = 16 then Selector.in8.code :: lowBytes 2 w
  else if nbits = 24 then Selector.out8.code :: lowBytes 3 w
  else if nbits = 32 then Selector.out16.code :: lowBytes 4 w
  else if nbits = 48 then Selector.out32.code :: lowBytes 6 w
  else []

/-- The instruction the decoder reads from a table word (`none` where it refuses). -/
def decodeTableWord (nbits w : Nat) : Option Instr :=
  (decode ⟨.mask, .mask⟩ (tableFrame nbits w)).toOption

end Sys2Proof
end

