-- ==== Sys2Proof/Machine/State.lean ====
section
/-! DEFINITION. The state of the block (10_state.md), the signals of the core it uses (R24), the inputs
and outputs at its interfaces, and the reasons a step can stop. Plain data throughout. -/

namespace Sys2Proof.Machine

/-- The eight fields of one chip (10_state.md R11 to R18). -/
structure ChipRegs where
  /-- lines asserted and not yet acknowledged (R11) -/
  request : Byte
  /-- lines disabled from delivery (R12) -/
  mask : Byte
  /-- lines selected by `service()` and not ended (R13) -/
  inService : Byte
  /-- high bits of the delivered vector (R14) -/
  vectorBase : Byte
  /-- the next data-port byte is the vector base (R15) -/
  awaitIcw2 : Bool
  /-- a fourth initialization byte is expected (R16) -/
  awaitIcw4 : Bool
  /-- a command-port read returns `in_service` (R17) -/
  readIsr : Bool
  /-- the special-mask flag, which nothing reads (R18) -/
  specialMask : Bool
  deriving DecidableEq, Repr

/-- A violation record (60_exceptions.md R170). -/
inductive Violation where
  /-- V1: a command-port byte with no meaning, 42_pic_commands.md R114, R117 -/
  | unrecognizedCommand (c : Chip) (v : Byte)
  /-- V2: a polling request, R114 -/
  | pollUnsupported (c : Chip) (v : Byte)
  /-- V3: a non-specific end-of-interrupt with nothing in service, R115 -/
  | eoiNothingInService (c : Chip)
  /-- V4: a line number above 15, 41_pic_lines.md R106 -/
  | lineOutOfRange (n : Byte)
  /-- V5: a read of a port with no input handler, 40_port_bus.md R84 to R86 -/
  | unregisteredPortRead (p : Port) (w : Width)
  /-- V6: a write of a port with no output handler, 40_port_bus.md R87 to R89 -/
  | unregisteredPortWrite (p : Port) (w : Width) (v : BitVec 32)
  /-- V7: a (port, direction) registered twice, 40_port_bus.md R80 -/
  | doubleRegistration (p : Port) (dir : Dir)
  /-- V8: listed by the source; no rule reports it (60_exceptions.md R170) -/
  | cascadeDesync
  deriving DecidableEq, Repr

/-- The kinds that stop the run under `VIOLATION_POLICY = fault`: V1, V2, V3, V4 and V8
(60_exceptions.md R171). -/
def Violation.stops : Violation → Bool
  | .unrecognizedCommand .. | .pollUnsupported .. | .eoiNothingInService .. | .lineOutOfRange ..
  | .cascadeDesync => true
  | .unregisteredPortRead .. | .unregisteredPortWrite .. | .doubleRegistration .. => false

/-- Whether the core runs or is halted (10_state.md R24). -/
inductive RunState where
  | running
  | halted
  deriving DecidableEq, Repr

/-- The signals of the core that the block reads, and in the repeat driver writes (10_state.md R24).
The three registers hold 32 bits, of which `addr_size` are used (44_repeat.md R152, R162; log 8). -/
structure CoreSignals where
  /-- `IF` -/
  intEnable : Bool
  /-- `ZF` -/
  zf : Bool
  count : BitVec 32
  srcIndex : BitVec 32
  dstIndex : BitVec 32
  ip : BitVec 32
  runState : RunState
  cycles : Nat
  /-- the unnamed register that gives `port_in` and `port_out` their port (44_repeat.md R155) -/
  portReg : Port
  deriving DecidableEq, Repr

/-- The cause tag of `interrupt(vector, source)` (43_service.md R144). -/
inductive Source where
  | external
  | internal
  deriving DecidableEq, Repr

/-- A call the block makes on the core, which is an output of the block (43_service.md R144,
44_repeat.md R155; log 10, 12). -/
inductive CoreEvent where
  /-- `core.interrupt(vec, source)`, with the core's `ip` at the call, which its interrupt entry saves
  (60_exceptions.md R177; log 36) -/
  | interrupt (vec : Byte) (source : Source) (ip : BitVec 32)
  /-- `core.set_state(running)` -/
  | setRunning
  /-- the element body, with the index registers it reads -/
  | body (kind : StringKind) (width : Width) (addrSize : AddrSize) (src dst : BitVec 32)
  /-- the data a `port_in` element read, handed to the body -/
  | portData (v : BitVec 32)
  deriving DecidableEq, Repr

/-- A call made on a peripheral (40_port_bus.md R90 to R93), which is an output of the block: what the
peripheral does with it is excluded (00_scope.md R4; log 13). -/
inductive DeviceCall where
  | in8 (k : Byte) (p : Port)
  | in16 (k : Byte) (p : Port)
  | in32 (k : Byte) (p : Port)
  | out8 (k : Byte) (p : Port) (v : Byte)
  | out16 (k : Byte) (p : Port) (v : BitVec 16)
  | out32 (k : Byte) (p : Port) (v : BitVec 32)
  | reset (k : Byte)
  deriving DecidableEq, Repr

/-- The result of the repeat driver (44_repeat.md R164). -/
inductive DriverResult where
  | completed
  | abortedForInterrupt
  deriving DecidableEq, Repr

/-- What an operation returned to its caller (log 20). -/
inductive Result where
  | none
  | bit (b : Bool)
  | byte (v : Byte)
  | word (v : BitVec 16)
  | dword (v : BitVec 32)
  /-- `service()`: no delivery, or the vector -/
  | vector (v : Option Byte)
  /-- `Encode`: no line, or a global line -/
  | line (n : Option Nat)
  /-- a lookup: no device, or the owner -/
  | owner (d : Option Device)
  /-- `register`: accepted or refused -/
  | registered (ok : Bool)
  | driver (r : DriverResult)
  deriving DecidableEq, Repr

/-- What a device or the debug host may do between the atomic pieces of one operation of the core
(20_memory.md R53, R49; log 14). DESIGN CHOICE: a reset by the machine is not among them, so it falls between
whole steps only (log 37). -/
inductive AgentOp where
  /-- a device raises a line -/
  | raise (n : BitVec 4)
  /-- a device lowers a line -/
  | lower (n : BitVec 4)
  /-- `raise_line()` of a peripheral, bound to its own line (40_port_bus.md R94) -/
  | raiseLine (k : Byte)
  /-- `lower_line()` of a peripheral -/
  | lowerLine (k : Byte)
  /-- the debug host sets the ignore switch -/
  | ignore (b : Bool)
  deriving DecidableEq, Repr

/-- What the excluded element body answers (44_repeat.md R155; log 12). -/
structure BodyResult where
  /-- the zero flag a compare or scan leaves -/
  zf : Bool
  /-- the data a `port_out` element writes -/
  data : BitVec 32
  deriving DecidableEq, Repr

/-- What the outside presents to the machine, one at a time (log 1). -/
inductive Input where
  /-- a transaction, as bytes -/
  | frame (bytes : List Byte)
  /-- the core's own, excluded instructions leave its signals at new values (log 11) -/
  | coreSignals (u : CoreSignals)
  /-- `interrupt(vec, internal)`, a software interrupt or exception (60_exceptions.md R180; log 32) -/
  | internalInterrupt (vec : Byte)
  deriving DecidableEq, Repr

/-- A partial function from ports to devices, its ports strictly rising (10_state.md R22). -/
abbrev PortMap := List (Nat × Device)

/-- The canonical form of a port map: strictly rising ports, each a 16-bit number. -/
def PortMap.wf (m : PortMap) : Bool :=
  decide (m.Pairwise (fun a b => a.1 < b.1)) && m.all (fun e => decide (e.1 < 65536))

/-- The state of the machine. -/
structure State where
  /-- configuration, written by no step (10_state.md R29; log 4) -/
  cfg : Config
  /-- chip `M` (10_state.md R10) -/
  master : ChipRegs
  /-- chip `S` (10_state.md R10) -/
  slave : ChipRegs
  /-- the pending summary word (10_state.md R19) -/
  summary : BitVec 16
  /-- the debug switch (10_state.md R20) -/
  ignoreAll : Bool
  /-- violation records, oldest first (10_state.md R21) -/
  violLog : List Violation
  /-- the readers of the ports (10_state.md R22) -/
  inMap : PortMap
  /-- the writers of the ports (10_state.md R22) -/
  outMap : PortMap
  /-- the signals of the core (10_state.md R24) -/
  core : CoreSignals
  /-- outputs: the calls made on the core, oldest first (log 20) -/
  events : List CoreEvent
  /-- outputs: the calls made on peripherals, oldest first (log 20) -/
  deviceCalls : List DeviceCall
  /-- what the last operation returned (log 20) -/
  result : Result
  /-- inputs: what the outside presents, in the order in which it happens (log 1) -/
  inbox : List Input
  /-- inputs: what other agents do at the next interleaving points, one list a point (log 14) -/
  agentOps : List (List AgentOp)
  /-- inputs: the bytes peripherals answer next (log 13) -/
  deviceReplies : List Byte
  /-- inputs: what the element body answers next (log 12) -/
  bodyResults : List BodyResult
  /-- inputs: the addresses of the instructions that follow the next instructions of the guest other than
  repeats (log 36) -/
  nextIps : List (BitVec 32)
  /-- how many free values have been drawn (log 25) -/
  freeCount : Nat
  deriving DecidableEq, Repr

/-- Why a step stops with a fault. -/
inductive Fault where
  /-- Raised by an operation that reports V1, V2, V3 or V4 while `VIOLATION_POLICY = fault`
  (60_exceptions.md R171); never under the default policy. Safe: the run stops where the default
  machine goes on. -/
  | violation (v : Violation)
  deriving DecidableEq, Repr

/-- Why a step has no meaning. -/
inductive Refusal where
  /-- An instruction without a meaning; raised by an arm of `exec` that has none. Safe. -/
  | notModelled (mnemonic : String)
  /-- Raised by `step` on a frame that is no transaction of any interface: the frame format is the
  model's own (log 2), so the hardware has no such case. Safe. -/
  | undecodable (e : DecodeError)
  deriving DecidableEq, Repr

/-- A chip after reset (70_reset_and_hazards.md R201, 10_state.md R30). -/
def ChipRegs.reset (vbReset : Byte) : ChipRegs where
  request := 0x00
  mask := 0x00
  inService := 0x00
  vectorBase := vbReset
  awaitIcw2 := false
  awaitIcw4 := false
  readIsr := false
  specialMask := false

/-- The core's signals at reset: the spec states none. The values are those of the 80486 and its successors,
from which the width of `ip` is taken, where that family gives one, and else the model's (log 7). -/
def CoreSignals.reset : CoreSignals where
  intEnable := false
  zf := false
  count := 0
  srcIndex := 0
  dstIndex := 0
  ip := 0x0000FFF0
  runState := .running
  cycles := 0
  portReg := 0

/-- A machine of configuration `g` at power-on, before any device has registered (10_state.md R22, R30). -/
def State.bare (g : Config) : State where
  cfg := g
  master := ChipRegs.reset g.vbResetM
  slave := ChipRegs.reset g.vbResetS
  summary := 0x0000
  ignoreAll := false
  violLog := []
  inMap := []
  outMap := []
  core := CoreSignals.reset
  events := []
  deviceCalls := []
  result := .none
  inbox := []
  agentOps := []
  deviceReplies := []
  bodyResults := []
  nextIps := []
  freeCount := 0

/-- The port pairs of the two chips under the default port numbers (40_port_bus.md R95). -/
def PortMap.chipPorts : PortMap :=
  [(0x20, .chip .M), (0x21, .chip .M), (0xA0, .chip .S), (0xA1, .chip .S)]

/-- The machine right after reset: the reset state `Z` of 95_test_vectors.md (10_state.md R30), with the
default configuration and both chips registered. -/
def State.reset : State :=
  { State.bare Config.default with inMap := PortMap.chipPorts, outMap := PortMap.chipPorts }

end Sys2Proof.Machine
end

