-- ==== Sys2Proof/Machine/Operands.lean ====
section
/-! DEFINITION. The operand forms of the block: bits of an 8-bit register, line numbers, vectors, the
summary word, port composition and the registers of the repeat driver. Pure functions of words. -/

namespace Sys2Proof.Machine

/-- `v[i] <- 1` (00_scope.md R6). -/
def setBit (v : Byte) (i : Nat) : Byte := v ||| (1#8 <<< i)

/-- `v[i] <- 0` (00_scope.md R6). -/
def clearBit (v : Byte) (i : Nat) : Byte := v &&& ~~~(1#8 <<< i)

/-- `lsb(x)`, the index of the lowest set bit; none for 0 (00_scope.md R6). -/
def lowestSet {w : Nat} (x : BitVec w) : Option Nat := (List.range w).find? (fun i => x.getLsbD i)

/-- The summary word of the two chips' registers (30_encoding.md R69, 41_pic_lines.md R100). -/
def summaryOf (mRequest mMask sRequest sMask : Byte) : BitVec 16 :=
  (mRequest &&& ~~~mMask).zeroExtend 16 ||| ((sRequest &&& ~~~sMask).zeroExtend 16 <<< 8)

/-- `Encode(s)`: the lowest-numbered line of a summary word other than master line 2
(43_service.md R141). -/
def encodeLine (w : BitVec 16) : Option Nat := lowestSet (w &&& 0xFFFB)

/-- The chip of a global line (30_encoding.md R68). -/
def lineChip (n : Nat) : Chip := if n < 8 then .M else .S

/-- The index of a global line within its chip (30_encoding.md R68). -/
def lineIndex (n : Nat) : Nat := if n < 8 then n else n - 8

/-- The vector of a line index: an OR, not a sum (30_encoding.md R67, 43_service.md R142). -/
def vectorOf (base : Byte) (i : Nat) : Byte := base ||| BitVec.ofNat 8 i

/-- The vector base a byte gives: its upper five bits (42_pic_commands.md R119). -/
def vectorBaseOf (v : Byte) : Byte := v &&& 0xF8

/-- The chip decodes bit 0 of the port: 0 is the command port, 1 the data port (30_encoding.md R60). -/
def isDataPort (p : Port) : Bool := p.getLsbD 0

/-- A word from the bytes at `p` and `p+1` (20_memory.md R43). -/
def word16 (b0 b1 : Byte) : BitVec 16 := b1 ++ b0

/-- A double word from the words at `p` and `p+2` (20_memory.md R44). -/
def word32 (w0 w1 : BitVec 16) : BitVec 32 := w1 ++ w0

/-- `v[7:0]` of a word. -/
def lowByte (w : BitVec 16) : Byte := w.extractLsb' 0 8

/-- `v[15:8]` of a word. -/
def highByte (w : BitVec 16) : Byte := w.extractLsb' 8 8

/-- `v[15:0]` of a double word. -/
def lowHalf (w : BitVec 32) : BitVec 16 := w.extractLsb' 0 16

/-- `v[31:16]` of a double word. -/
def highHalf (w : BitVec 32) : BitVec 16 := w.extractLsb' 16 16

/-- The next port, modulo 65536 (20_memory.md R46). -/
def nextPort (p : Port) : Port := p + 1

/-- The port after a word, modulo 65536 (20_memory.md R46). -/
def nextWordPort (p : Port) : Port := p + 2

/-- Whether a direction includes reading (40_port_bus.md R80). -/
def wantsIn : Dir → Bool
  | .read | .readWrite => true
  | .write => false

/-- Whether a direction includes writing (40_port_bus.md R80). -/
def wantsOut : Dir → Bool
  | .write | .readWrite => true
  | .read => false

/-- A core register at width `addr_size` (44_repeat.md R152). -/
def readAt (a : AddrSize) (r : BitVec 32) : BitVec 32 :=
  match a with
  | .a16 => r &&& 0x0000FFFF
  | .a32 => r

/-- A core register with its low `addr_size` bits replaced; with 16, the others keep their value
(44_repeat.md R152, R162). -/
def writeAt (a : AddrSize) (r v : BitVec 32) : BitVec 32 :=
  match a with
  | .a16 => (r &&& 0xFFFF0000) ||| (v &&& 0x0000FFFF)
  | .a32 => v

/-- An index register moved by `dir x width` modulo `2^addr_size` (44_repeat.md R162). -/
def advance (a : AddrSize) (dir : Direction) (w : Width) (r : BitVec 32) : BitVec 32 :=
  match dir with
  | .up => writeAt a r (r + BitVec.ofNat 32 w.bytes)
  | .down => writeAt a r (r - BitVec.ofNat 32 w.bytes)

/-- The count register decremented at width `addr_size` (44_repeat.md R155). -/
def decrement (a : AddrSize) (r : BitVec 32) : BitVec 32 := writeAt a r (r - 1)

/-- Which kinds use the source index (44_repeat.md R162). -/
def usesSource : StringKind → Bool
  | .move | .compare | .load | .portOut => true
  | .store | .scan | .portIn => false

/-- Which kinds use the destination index (44_repeat.md R162). -/
def usesDest : StringKind → Bool
  | .move | .compare | .store | .scan | .portIn => true
  | .load | .portOut => false

end Sys2Proof.Machine
end

