-- ==== Sys2Proof/Machine/Flags.lean ====
section
/-! DEFINITION. What the block reads of the flags. It writes no flag of the core: the zero flag is written
by the excluded element body alone (10_state.md R24). -/

namespace Sys2Proof.Machine

/-- Which kinds affect the zero flag (44_repeat.md R156, R157). -/
def affectsZf : StringKind → Bool
  | .compare | .scan => true
  | .move | .load | .store | .portIn | .portOut => false

/-- The termination test of a compare or scan: `rep_nz` stops on `ZF = 1`, `rep_z` on `ZF = 0`; the
other kinds do not read the flag (44_repeat.md R156, R157). -/
def stopsRepeat (rep : RepMode) (kind : StringKind) (zf : Bool) : Bool :=
  affectsZf kind && (match rep with
    | .repNz => zf
    | .repZ => !zf
    | .none => false)

/-- `deliverable()`: some line other than master line 2 is pending and unmasked (41_pic_lines.md R104). -/
def deliverableOf (summary : BitVec 16) : Bool := summary &&& 0xFFFB != 0

/-- `any_pending()` (41_pic_lines.md R103). -/
def anyPendingOf (summary : BitVec 16) : Bool := summary != 0

/-- The one test of the abort detector (44_repeat.md R153) and of the boundary poll (43_service.md R147). -/
def eligible (s : State) : Bool :=
  s.core.intEnable && deliverableOf s.summary && !s.ignoreAll

end Sys2Proof.Machine
end

