-- ==== Sys2Proof/Machine/Ops.lean ====
section
/-! DEFINITION. The operations shared by the meanings: field updates, reports, the summary, the lines,
the port maps, the delivery of an interrupt and its end, and the points at which other agents act. -/

namespace Sys2Proof.Machine

/-- The outcome of one operation. -/
abbrev Out := Host.Outcome State Fault Refusal

/-- Go on with the next state; a fault or a refusal passes through. -/
def andThen (o : Out) (f : State → Out) : Out :=
  match o with
  | .next s => f s
  | .fault r => .fault r
  | .refused r => .refused r

/-- Change the next state; a fault or a refusal passes through. -/
def mapNext (o : Out) (f : State → State) : Out :=
  match o with
  | .next s => .next (f s)
  | .fault r => .fault r
  | .refused r => .refused r

/-! ### Fields -/

/-- The registers of a chip. -/
def State.chip (s : State) : Chip → ChipRegs
  | .M => s.master
  | .S => s.slave

/-- Write the registers of a chip. -/
def State.setChip (s : State) (c : Chip) (r : ChipRegs) : State :=
  match c with
  | .M => { s with master := r }
  | .S => { s with slave := r }

/-- Say what the operation returned (log 20). -/
def State.setResult (s : State) (r : Result) : State := { s with result := r }

/-- Write the signals of the core. -/
def State.setCore (s : State) (u : CoreSignals) : State := { s with core := u }

/-- Append to the violation log (10_state.md R21). -/
def State.pushViolation (s : State) (v : Violation) : State := { s with violLog := s.violLog ++ [v] }

/-- Record a call on the core. -/
def State.pushEvent (s : State) (e : CoreEvent) : State := { s with events := s.events ++ [e] }

/-- Record a call on a peripheral. -/
def State.pushCall (s : State) (e : DeviceCall) : State := { s with deviceCalls := s.deviceCalls ++ [e] }

/-- The phases of both chips, for the decoder (30_encoding.md R65). -/
def State.phases (s : State) : Phases where
  m := phaseOf s.master.awaitIcw2 s.master.awaitIcw4
  s := phaseOf s.slave.awaitIcw2 s.slave.awaitIcw4

/-! ### Reports -/

/-- `report K(args)`: append the record, and stop under the strict policy for the kinds that stop
(60_exceptions.md R171). -/
def report (v : Violation) (s : State) : Out :=
  if s.cfg.policy = .fault ∧ v.stops then .fault (.violation v) else .next (s.pushViolation v)

/-- The optional record of an unregistered access (40_port_bus.md R84, R87; log 17). -/
def reportOptional (v : Violation) (s : State) : State :=
  if s.cfg.logUnregistered then s.pushViolation v else s

/-! ### The summary and the lines -/

/-- `Recompute()` (41_pic_lines.md R100). -/
def recompute (s : State) : State :=
  { s with summary := summaryOf s.master.request s.master.mask s.slave.request s.slave.mask }

/-- Set a request bit of a chip. -/
def setRequest (c : Chip) (i : Nat) (s : State) : State :=
  s.setChip c { s.chip c with request := setBit (s.chip c).request i }

/-- Clear a request bit of a chip. -/
def clearRequest (c : Chip) (i : Nat) (s : State) : State :=
  s.setChip c { s.chip c with request := clearBit (s.chip c).request i }

/-- Set an in-service bit of a chip. -/
def setInService (c : Chip) (i : Nat) (s : State) : State :=
  s.setChip c { s.chip c with inService := setBit (s.chip c).inService i }

/-- Clear an in-service bit of a chip. -/
def clearInService (c : Chip) (i : Nat) (s : State) : State :=
  s.setChip c { s.chip c with inService := clearBit (s.chip c).inService i }

/-- `raise(n)` of a line in range: the line's request bit, and master line 2 for a slave line
(41_pic_lines.md R101). -/
def raiseLine (n : Nat) (s : State) : State :=
  if n < 8 then recompute (setRequest .M n s)
  else recompute (setRequest .M Config.cascadeLine (setRequest .S (n - 8) s))

/-- The end of `lower(n)` for a slave line: master line 2 is lowered when no slave line is pending
(41_pic_lines.md R102). -/
def lowerCascade (s : State) : State :=
  if s.slave.request = 0x00 then clearRequest .M Config.cascadeLine s else s

/-- `lower(n)` of a line in range (41_pic_lines.md R102). -/
def lowerLine (n : Nat) (s : State) : State :=
  if n < 8 then recompute (clearRequest .M n s)
  else recompute (lowerCascade (clearRequest .S (n - 8) s))

/-- The request bit of a line in range (41_pic_lines.md R105). -/
def requestBit (n : Nat) (s : State) : Bool := (s.chip (lineChip n)).request.getLsbD (lineIndex n)

/-- `set_ignore_all(b)` (43_service.md R143). -/
def setIgnoreAll (b : Bool) (s : State) : State := { s with ignoreAll := b }

/-! ### Other agents -/

/-- The line a peripheral is bound to (10_state.md R23, 40_port_bus.md R94); none without a device record
(log 34). -/
def boundLine (k : Byte) (s : State) : Option (BitVec 4) := (s.cfg.record? k).bind (·.line)

/-- One action of a device or of the debug host. A peripheral without a line has no line operation
(40_port_bus.md R94). -/
def agentAct (s : State) (a : AgentOp) : State :=
  match a with
  | .raise n => raiseLine n.toNat s
  | .lower n => lowerLine n.toNat s
  | .raiseLine k =>
    match boundLine k s with
    | some n => raiseLine n.toNat s
    | none => s
  | .lowerLine k =>
    match boundLine k s with
    | some n => lowerLine n.toNat s
    | none => s
  | .ignore b => setIgnoreAll b s

/-- A point at which other agents may act between two atomic pieces of one operation of the core: the
actions the outside scheduled for it, none if it scheduled none (20_memory.md R49, R53, R56; log 14). -/
def point (s : State) : State :=
  match s.agentOps with
  | [] => s
  | acts :: rest => acts.foldl agentAct { s with agentOps := rest }

/-! ### Free values and the inputs that stand before them -/

/-- The next byte a peripheral answers (log 13). -/
def takeReply (s : State) : Byte × State :=
  match s.deviceReplies with
  | b :: rest => (b, { s with deviceReplies := rest })
  | [] => (Config.freeDeviceByte s.freeCount, { s with freeCount := s.freeCount + 1 })

/-- The next answer of the element body (log 12). -/
def takeBody (s : State) : BodyResult × State :=
  match s.bodyResults with
  | r :: rest => (r, { s with bodyResults := rest })
  | [] => (⟨Config.freeBodyZf s.freeCount, Config.freeBodyData s.freeCount⟩,
      { s with freeCount := s.freeCount + 1 })

/-- The address of the next instruction (log 36). -/
def takeNextIp (s : State) : BitVec 32 × State :=
  match s.nextIps with
  | a :: rest => (a, { s with nextIps := rest })
  | [] => (Config.freeNextIp s.freeCount, { s with freeCount := s.freeCount + 1 })

/-! ### The port maps -/

/-- The device of a port (40_port_bus.md R82, R83). -/
def PortMap.lookup (p : Port) (m : PortMap) : Option Device :=
  (m.find? (fun e => e.1 == p.toNat)).map (·.2)

/-- Put a port into a map, keeping the canonical form; an entry of the port is replaced. -/
def PortMap.insert (p : Nat) (d : Device) : PortMap → PortMap
  | [] => [(p, d)]
  | e :: rest =>
    if p < e.1 then (p, d) :: e :: rest
    else if p = e.1 then (p, d) :: rest
    else e :: PortMap.insert p d rest

/-- Take every port of a device out of a map (40_port_bus.md R81). -/
def PortMap.remove (d : Device) (m : PortMap) : PortMap := m.filter (fun e => e.2 != d)

/-- Whether a registration collides in one of its directions (40_port_bus.md R80). -/
def collides (p : Port) (dir : Dir) (s : State) : Bool :=
  (wantsIn dir && (s.inMap.lookup p).isSome) || (wantsOut dir && (s.outMap.lookup p).isSome)

/-- The maps after an accepted registration (40_port_bus.md R80). -/
def enterPorts (p : Port) (d : Device) (dir : Dir) (s : State) : State :=
  { s with
    inMap := if wantsIn dir then s.inMap.insert p.toNat d else s.inMap
    outMap := if wantsOut dir then s.outMap.insert p.toNat d else s.outMap }

/-- The maps after `unregister(d)` (40_port_bus.md R81). -/
def removePorts (d : Device) (s : State) : State :=
  { s with inMap := s.inMap.remove d, outMap := s.outMap.remove d }

/-! ### Delivery of an interrupt and its end -/

/-- What the core is told of a delivery: `interrupt(vec, external)` at its current `ip`, then
`set_state(running)` (43_service.md R144, 60_exceptions.md R177). -/
def callCore (vec : Byte) (s : State) : State :=
  let s1 := (s.pushEvent (.interrupt vec .external s.core.ip)).pushEvent .setRunning
  s1.setCore { s1.core with runState := .running }

/-- The delivery of the selected line, the block's side of interrupt entry (43_service.md R140, R142;
60_exceptions.md R176): request to in service, the cascade's in-service bit for a slave line, the summary,
the vector and the calls on the core. -/
def deliver (n : Nat) (s : State) : Byte × State :=
  if n < 8 then
    let vec := vectorOf s.master.vectorBase n
    (vec, callCore vec (recompute (setInService .M n (clearRequest .M n s))))
  else
    let i := n - 8
    let vec := vectorOf s.slave.vectorBase i
    (vec, callCore vec
      (recompute (setInService .M Config.cascadeLine (setInService .S i (clearRequest .S i s)))))

/-- `service()`: none, or the vector of the delivered line (43_service.md R140, R148). -/
def serviceStep (s : State) : Option Byte × State :=
  if s.ignoreAll then (none, s)
  else
    match encodeLine s.summary with
    | none => (none, s)
    | some n => (some (deliver n s).1, (deliver n s).2)

/-- The non-specific end-of-interrupt: the lowest set in-service bit (42_pic_commands.md R115). -/
def endNonSpecific (c : Chip) (s : State) : Out :=
  match lowestSet (s.chip c).inService with
  | none => report (.eoiNothingInService c) s
  | some i => .next (clearInService c i s)

/-- The specific end-of-interrupt: the named in-service bit (42_pic_commands.md R116). -/
def endSpecific (c : Chip) (i : Nat) (s : State) : State := clearInService c i s

/-- The instruction boundary of the core: it polls, and calls `service()` when the poll holds; other
agents may act before the poll and between the poll and the call (43_service.md R147, 20_memory.md R56). -/
def boundary (s : State) : State :=
  let s1 := point s
  if eligible s1 then (serviceStep (point s1)).2 else s1

end Sys2Proof.Machine
end

