-- ==== Sys2Proof/Machine/Lines.lean ====
section
/-! DEFINITION. The line operations and the pending queries (41_pic_lines.md). -/

namespace Sys2Proof.Machine

/-- RAISE (41_pic_lines.md R101); a line above 15 is V4 (R106). -/
def execRaise (n : Byte) (s : State) : Out :=
  if n.toNat > 15 then mapNext (report (.lineOutOfRange n) s) (·.setResult .none)
  else .next ((raiseLine n.toNat s).setResult .none)

/-- LOWER (41_pic_lines.md R102); a line above 15 is V4 (R106). -/
def execLower (n : Byte) (s : State) : Out :=
  if n.toNat > 15 then mapNext (report (.lineOutOfRange n) s) (·.setResult .none)
  else .next ((lowerLine n.toNat s).setResult .none)

/-- QUERY (41_pic_lines.md R105): the request bit; a line above 15 is V4 and returns 0. -/
def execQuery (n : Byte) (s : State) : Out :=
  if n.toNat > 15 then mapNext (report (.lineOutOfRange n) s) (·.setResult (.bit false))
  else .next (s.setResult (.bit (requestBit n.toNat s)))

/-- ANY_PENDING (41_pic_lines.md R103). -/
def execAnyPending (s : State) : Out := .next (s.setResult (.bit (anyPendingOf s.summary)))

/-- DELIVERABLE (41_pic_lines.md R104). -/
def execDeliverable (s : State) : Out := .next (s.setResult (.bit (deliverableOf s.summary)))

/-- RECOMPUTE (41_pic_lines.md R100). -/
def execRecompute (s : State) : Out := .next ((recompute s).setResult .none)

end Sys2Proof.Machine
end

