-- ==== Sys2Proof/Machine/Commands.lean ====
section
/-! DEFINITION. The two-port command protocol of a chip (42_pic_commands.md): each command as one
operation, the two port writes and reads that dispatch to them, and the meanings of the chip rows. -/

namespace Sys2Proof.Machine

/-! ### The commands -/

/-- Initialization byte (42_pic_commands.md R111). `vector_base` is not written. -/
def initChip (c : Chip) (v : Byte) (s : State) : State :=
  recompute (s.setChip c { s.chip c with
    mask := 0x00, inService := 0x00, request := 0x00, readIsr := false, specialMask := false
    awaitIcw2 := true, awaitIcw4 := v.getLsbD 0 })

/-- Status-mode command: the read select (R112) and the special-mask flag (R113). -/
def statusMode (c : Chip) (esmm smm rr ris : Bool) (s : State) : State :=
  s.setChip c { s.chip c with
    readIsr := if rr then ris else (s.chip c).readIsr
    specialMask := if esmm then smm else (s.chip c).specialMask }

/-- Vector-base byte (42_pic_commands.md R119). -/
def vectorBaseByte (c : Chip) (v : Byte) (s : State) : State :=
  s.setChip c { s.chip c with vectorBase := vectorBaseOf v, awaitIcw2 := false }

/-- Fourth initialization byte, consumed (42_pic_commands.md R120). -/
def fourthByte (c : Chip) (s : State) : State :=
  s.setChip c { s.chip c with awaitIcw4 := false }

/-- Mask write (42_pic_commands.md R121). -/
def setMask (c : Chip) (v : Byte) (s : State) : State :=
  recompute (s.setChip c { s.chip c with mask := v })

/-! ### The port handlers of a chip -/

/-- `write_command_byte_0(c, v)` (42_pic_commands.md R110). -/
def writeCommandByte0 (c : Chip) (v : Byte) (s : State) : Out :=
  if v.getLsbD 4 then .next (initChip c v s)
  else if v.getLsbD 3 then
    if v.getLsbD 2 then report (.pollUnsupported c v) s
    else if v.getLsbD 7 then report (.unrecognizedCommand c v) s
    else .next (statusMode c (v.getLsbD 6) (v.getLsbD 5) (v.getLsbD 1) (v.getLsbD 0) s)
  else if v = 0x20 then endNonSpecific c s
  else if v.extractLsb' 5 3 = 0b011 then .next (endSpecific c (v.extractLsb' 0 3).toNat s)
  else report (.unrecognizedCommand c v) s

/-- `write_command_byte_1(c, v)`: by the phase flags (42_pic_commands.md R118). -/
def writeCommandByte1 (c : Chip) (v : Byte) (s : State) : State :=
  if (s.chip c).awaitIcw2 then vectorBaseByte c v s
  else if (s.chip c).awaitIcw4 then fourthByte c s
  else setMask c v s

/-- `read_status(c)` (42_pic_commands.md R122). -/
def statusByte (c : Chip) (s : State) : Byte :=
  if (s.chip c).readIsr then (s.chip c).inService else (s.chip c).request

/-- `read_mask(c)` (42_pic_commands.md R123). -/
def maskByte (c : Chip) (s : State) : Byte := (s.chip c).mask

/-- `c.in8(p)` (40_port_bus.md R95). -/
def chipIn8 (c : Chip) (p : Port) (s : State) : Byte :=
  if isDataPort p then maskByte c s else statusByte c s

/-- `c.out8(p, v)` (40_port_bus.md R95). -/
def chipOut8 (c : Chip) (p : Port) (v : Byte) (s : State) : Out :=
  if isDataPort p then .next (writeCommandByte1 c v s) else writeCommandByte0 c v s

/-- An operation that returns nothing to its caller. -/
def doneNone (o : Out) : Out := mapNext o (·.setResult .none)

/-! ### The meanings -/

/-- ICW1 (42_pic_commands.md R111). -/
def execIcw1 (c : Chip) (v : Byte) (s : State) : Out := .next ((initChip c v s).setResult .none)

/-- OCW3_POLL: V2 and nothing else (42_pic_commands.md R114). -/
def execOcw3Poll (c : Chip) (v : Byte) (s : State) : Out := doneNone (report (.pollUnsupported c v) s)

/-- OCW3_BIT7: V1 and nothing else (42_pic_commands.md R114). -/
def execOcw3Bit7 (c : Chip) (v : Byte) (s : State) : Out :=
  doneNone (report (.unrecognizedCommand c v) s)

/-- OCW3 (42_pic_commands.md R112, R113). -/
def execOcw3 (c : Chip) (esmm smm rr ris : Bool) (s : State) : Out :=
  .next ((statusMode c esmm smm rr ris s).setResult .none)

/-- EOI (42_pic_commands.md R115). -/
def execEoi (c : Chip) (s : State) : Out := doneNone (endNonSpecific c s)

/-- SEOI (42_pic_commands.md R116). -/
def execSeoi (c : Chip) (l : BitVec 3) (s : State) : Out :=
  .next ((endSpecific c l.toNat s).setResult .none)

/-- OCW2_UNRECOGNIZED: V1 and nothing else (42_pic_commands.md R117). -/
def execOcw2Unrecognized (c : Chip) (v : Byte) (s : State) : Out :=
  doneNone (report (.unrecognizedCommand c v) s)

/-- ICW2 (42_pic_commands.md R119). -/
def execIcw2 (c : Chip) (base : BitVec 5) (dropped : BitVec 3) (s : State) : Out :=
  .next ((vectorBaseByte c (base ++ dropped) s).setResult .none)

/-- ICW4 (42_pic_commands.md R120): the byte is ignored. -/
def execIcw4 (c : Chip) (_v : Byte) (s : State) : Out := .next ((fourthByte c s).setResult .none)

/-- OCW1 (42_pic_commands.md R121). -/
def execOcw1 (c : Chip) (m : Byte) (s : State) : Out := .next ((setMask c m s).setResult .none)

/-- READ_STATUS (42_pic_commands.md R122). -/
def execReadStatus (c : Chip) (s : State) : Out := .next (s.setResult (.byte (statusByte c s)))

/-- READ_MASK (42_pic_commands.md R123). -/
def execReadMask (c : Chip) (s : State) : Out := .next (s.setResult (.byte (maskByte c s)))

end Sys2Proof.Machine
end

