-- ==== Sys2Proof/Machine/PortBus.lean ====
section
/-! DEFINITION. The port bus router and the device contract (40_port_bus.md, 20_memory.md). -/

namespace Sys2Proof.Machine

/-! ### The device contract -/

/-- Whether a device performs a 16-bit access as one atomic operation (40_port_bus.md R92). The chips do
not. DESIGN CHOICE: the spec does not say whether a device may override only the read or only the write of
a width; here one flag of the record covers both (log 22). -/
def overrides16 (d : Device) (s : State) : Option Byte :=
  match d with
  | .chip _ => none
  | .peripheral k => if (s.cfg.record? k).any (·.override16) then some k else none

/-- Whether a device performs a 32-bit access as one atomic operation (40_port_bus.md R92), by one flag for
its reads and writes as with 16 bits (log 22). -/
def overrides32 (d : Device) (s : State) : Option Byte :=
  match d with
  | .chip _ => none
  | .peripheral k => if (s.cfg.record? k).any (·.override32) then some k else none

/-- Two bytes answered by a peripheral, as the word of the default composition. -/
def takeReply16 (s : State) : BitVec 16 × State :=
  let r0 := takeReply s
  let r1 := takeReply r0.2
  (word16 r0.1 r1.1, r1.2)

/-- Four bytes answered by a peripheral, as the double word of the default composition. -/
def takeReply32 (s : State) : BitVec 32 × State :=
  let r0 := takeReply16 s
  let r1 := takeReply16 r0.2
  (word32 r0.1 r1.1, r1.2)

/-- `d.in8(p)` (40_port_bus.md R90, R95). What a peripheral answers is an input or a free value
(log 13). -/
def deviceIn8 (d : Device) (p : Port) (s : State) : Byte × State :=
  match d with
  | .chip c => (chipIn8 c p s, s)
  | .peripheral k => takeReply (s.pushCall (.in8 k p))

/-- `d.in16(p)`: the default composition, between whose bytes other agents may act, or an override
(40_port_bus.md R91, R92; 20_memory.md R49). -/
def deviceIn16 (d : Device) (p : Port) (s : State) : BitVec 16 × State :=
  match overrides16 d s with
  | some k => takeReply16 (s.pushCall (.in16 k p))
  | none =>
    let r0 := deviceIn8 d p s
    let r1 := deviceIn8 d (nextPort p) (point r0.2)
    (word16 r0.1 r1.1, r1.2)

/-- `d.in32(p)` (40_port_bus.md R91, R92). -/
def deviceIn32 (d : Device) (p : Port) (s : State) : BitVec 32 × State :=
  match overrides32 d s with
  | some k => takeReply32 (s.pushCall (.in32 k p))
  | none =>
    let r0 := deviceIn16 d p s
    let r1 := deviceIn16 d (nextWordPort p) (point r0.2)
    (word32 r0.1 r1.1, r1.2)

/-- `d.out8(p, v)` (40_port_bus.md R90, R95). What a peripheral does with it is excluded: the call is
recorded (log 13). -/
def deviceOut8 (d : Device) (p : Port) (v : Byte) (s : State) : Out :=
  match d with
  | .chip c => chipOut8 c p v s
  | .peripheral k => .next (s.pushCall (.out8 k p v))

/-- `d.out16(p, v)` (40_port_bus.md R91, R92). -/
def deviceOut16 (d : Device) (p : Port) (v : BitVec 16) (s : State) : Out :=
  match overrides16 d s with
  | some k => .next (s.pushCall (.out16 k p v))
  | none => andThen (deviceOut8 d p (lowByte v) s)
      (fun t => deviceOut8 d (nextPort p) (highByte v) (point t))

/-- `d.out32(p, v)` (40_port_bus.md R91, R92). -/
def deviceOut32 (d : Device) (p : Port) (v : BitVec 32) (s : State) : Out :=
  match overrides32 d s with
  | some k => .next (s.pushCall (.out32 k p v))
  | none => andThen (deviceOut16 d p (lowHalf v) s)
      (fun t => deviceOut16 d (nextWordPort p) (highHalf v) (point t))

/-! ### The bus -/

/-- `PortRead(p, 8)` (40_port_bus.md R84). -/
def portRead8 (p : Port) (s : State) : Byte × State :=
  match s.inMap.lookup p with
  | some d => deviceIn8 d p s
  | none => (s.cfg.junk8, reportOptional (.unregisteredPortRead p .w8) s)

/-- `PortRead(p, 16)`: one lookup, at the first port (40_port_bus.md R85). -/
def portRead16 (p : Port) (s : State) : BitVec 16 × State :=
  match s.inMap.lookup p with
  | some d => deviceIn16 d p s
  | none => (s.cfg.junk16, reportOptional (.unregisteredPortRead p .w16) s)

/-- `PortRead(p, 32)` (40_port_bus.md R86). -/
def portRead32 (p : Port) (s : State) : BitVec 32 × State :=
  match s.inMap.lookup p with
  | some d => deviceIn32 d p s
  | none => (s.cfg.junk32, reportOptional (.unregisteredPortRead p .w32) s)

/-- `PortWrite(p, 8, v)` (40_port_bus.md R87). -/
def portWrite8 (p : Port) (v : Byte) (s : State) : Out :=
  match s.outMap.lookup p with
  | some d => deviceOut8 d p v s
  | none => .next (reportOptional (.unregisteredPortWrite p .w8 (v.zeroExtend 32)) s)

/-- `PortWrite(p, 16, v)` (40_port_bus.md R88). -/
def portWrite16 (p : Port) (v : BitVec 16) (s : State) : Out :=
  match s.outMap.lookup p with
  | some d => deviceOut16 d p v s
  | none => .next (reportOptional (.unregisteredPortWrite p .w16 (v.zeroExtend 32)) s)

/-- `PortWrite(p, 32, v)` (40_port_bus.md R89). -/
def portWrite32 (p : Port) (v : BitVec 32) (s : State) : Out :=
  match s.outMap.lookup p with
  | some d => deviceOut32 d p v s
  | none => .next (reportOptional (.unregisteredPortWrite p .w32 v) s)

/-- `register(p, d, dir)`: accepted, or V7 and refused as a whole (40_port_bus.md R80). -/
def registerPort (p : Port) (d : Device) (dir : Dir) (s : State) : State :=
  if collides p dir s then (s.pushViolation (.doubleRegistration p dir)).setResult (.registered false)
  else (enterPorts p d dir s).setResult (.registered true)

/-! ### Building the machine -/

/-- Register a list of (port, direction) pairs of a device; none when one collides. -/
def registerAll (d : Device) : List (Port × Dir) → State → Option State
  | [], s => some s
  | (p, dir) :: rest, s => if collides p dir s then none else registerAll d rest (enterPorts p d dir s)

/-- Register the peripherals of a configuration; none when two of them collide. -/
def registerDevices : List DeviceRecord → State → Option State
  | [], s => some s
  | r :: rest, s => (registerAll (.peripheral r.handle) r.ports s).bind (registerDevices rest)

/-- The port pair of a chip, for reading and writing (40_port_bus.md R95). -/
def chipPair (g : Config) (c : Chip) : List (Port × Dir) :=
  [(g.picBase c, .readWrite), (nextPort (g.picBase c), .readWrite)]

/-- The machine of a configuration right after reset, or none for an ill-formed configuration
(70_reset_and_hazards.md R204 step 1, R216; 40_port_bus.md R80). -/
def State.build (g : Config) : Option State :=
  if g.wf then
    (registerAll (.chip .M) (chipPair g .M) (State.bare g)).bind fun s =>
      (registerAll (.chip .S) (chipPair g .S) s).bind (registerDevices g.devices)
  else none

/-! ### The meanings -/

/-- REGISTER (40_port_bus.md R80). -/
def execRegister (p : Port) (d : Device) (dir : Dir) (s : State) : Out := .next (registerPort p d dir s)

/-- UNREGISTER (40_port_bus.md R81). -/
def execUnregister (d : Device) (s : State) : Out := .next ((removePorts d s).setResult .none)

/-- LOOKUP_INPUT (40_port_bus.md R82). -/
def execLookupInput (p : Port) (s : State) : Out := .next (s.setResult (.owner (s.inMap.lookup p)))

/-- LOOKUP_OUTPUT (40_port_bus.md R83). -/
def execLookupOutput (p : Port) (s : State) : Out := .next (s.setResult (.owner (s.outMap.lookup p)))

/-- IN8 (40_port_bus.md R84). -/
def execIn8 (p : Port) (s : State) : Out :=
  .next ((portRead8 p s).2.setResult (.byte (portRead8 p s).1))

/-- IN16 (40_port_bus.md R85). -/
def execIn16 (p : Port) (s : State) : Out :=
  .next ((portRead16 p s).2.setResult (.word (portRead16 p s).1))

/-- IN32 (40_port_bus.md R86). -/
def execIn32 (p : Port) (s : State) : Out :=
  .next ((portRead32 p s).2.setResult (.dword (portRead32 p s).1))

/-- OUT8 (40_port_bus.md R87). -/
def execOut8 (p : Port) (v : Byte) (s : State) : Out := doneNone (portWrite8 p v s)

/-- OUT16 (40_port_bus.md R88). -/
def execOut16 (p : Port) (v : BitVec 16) (s : State) : Out := doneNone (portWrite16 p v s)

/-- OUT32 (40_port_bus.md R89). -/
def execOut32 (p : Port) (v : BitVec 32) (s : State) : Out := doneNone (portWrite32 p v s)

end Sys2Proof.Machine
end

