-- ==== Sys2Proof/Machine/Repeat.lean ====
section
/-! DEFINITION. The repeat driver and its abort detector (44_repeat.md). -/

namespace Sys2Proof.Machine

/-- `PortRead(p, 8 * width)` of a `port_in` element, zero-extended (44_repeat.md R155). -/
def portReadWide (w : Width) (p : Port) (s : State) : BitVec 32 × State :=
  match w with
  | .w8 => ((portRead8 p s).1.zeroExtend 32, (portRead8 p s).2)
  | .w16 => ((portRead16 p s).1.zeroExtend 32, (portRead16 p s).2)
  | .w32 => portRead32 p s

/-- `PortWrite(p, 8 * width, v)` of a `port_out` element (44_repeat.md R155). -/
def portWriteWide (w : Width) (p : Port) (v : BitVec 32) (s : State) : Out :=
  match w with
  | .w8 => portWrite8 p (v.extractLsb' 0 8) s
  | .w16 => portWrite16 p (lowHalf v) s
  | .w32 => portWrite32 p v s

/-- The part of `Body` that touches this block (44_repeat.md R155): the call itself, the zero flag of a
compare or scan, and the port access of a port element. The rest is excluded (00_scope.md R4). -/
def body (j : RepInputs) (s : State) : Out :=
  let s1 := s.pushEvent (.body j.kind j.width j.addrSize s.core.srcIndex s.core.dstIndex)
  match j.kind with
  | .move | .load | .store => .next s1
  | .compare | .scan =>
    let r := takeBody s1
    .next (r.2.setCore { r.2.core with zf := r.1.zf })
  | .portIn =>
    let r := portReadWide j.width s1.core.portReg s1
    .next (r.2.pushEvent (.portData r.1))
  | .portOut =>
    let r := takeBody s1
    portWriteWide j.width s1.core.portReg r.1.data r.2

/-- `AdvanceIndex` (44_repeat.md R162). -/
def advanceIndex (j : RepInputs) (s : State) : State :=
  s.setCore { s.core with
    srcIndex := if usesSource j.kind then advance j.addrSize j.dir j.width s.core.srcIndex
      else s.core.srcIndex
    dstIndex := if usesDest j.kind then advance j.addrSize j.dir j.width s.core.dstIndex
      else s.core.dstIndex }

/-- The cycle counter and, when counted, the count register (44_repeat.md R155, R166). -/
def countElement (j : RepInputs) (counted : Bool) (s : State) : State :=
  s.setCore { s.core with
    cycles := s.core.cycles + Config.cycleInc
    count := if counted then decrement j.addrSize s.core.count else s.core.count }

/-- `Element` (44_repeat.md R155). -/
def element (j : RepInputs) (counted : Bool) (s : State) : Out :=
  mapNext (body j s) (fun t => advanceIndex j (countElement j counted t))

/-- The end of the driver: its result and `ip` (44_repeat.md R159). -/
def finishDriver (j : RepInputs) (r : DriverResult) (s : State) : State :=
  (s.setCore { s.core with
    ip := match r with
      | .completed => j.ipNext
      | .abortedForInterrupt => j.ip0 }).setResult (.driver r)

/-- The loop of the driver (44_repeat.md R164), by the number of elements the count register still asks
for: the loop guard (R152), the abort test (R153), one element (R155) and the termination test (R156).
Other agents may act before the abort test and between it and the element (20_memory.md R53). -/
def driverLoop (j : RepInputs) : Nat → State → Out
  | 0, s => .next (finishDriver j .completed s)
  | n + 1, s =>
    let s1 := point s
    if eligible s1 then .next (finishDriver j .abortedForInterrupt s1)
    else andThen (element j true (point s1)) fun t =>
      if stopsRepeat j.rep j.kind t.core.zf then .next (finishDriver j .completed t)
      else driverLoop j n t

/-- `RepeatDrive` (44_repeat.md R164, R151). -/
def repeatDrive (j : RepInputs) (s : State) : Out :=
  match j.rep with
  | .none => mapNext (element j false s) (finishDriver j .completed)
  | .repNz | .repZ => driverLoop j (readAt j.addrSize s.core.count).toNat s

/-- REP (44_repeat.md R164). -/
def execRep (j : RepInputs) (s : State) : Out := repeatDrive j s

end Sys2Proof.Machine
end

