-- ==== Sys2Proof/Machine/Reset.lean ====
section
/-! DEFINITION. Reset (70_reset_and_hazards.md). -/

namespace Sys2Proof.Machine

/-- `c.reset()` (70_reset_and_hazards.md R201). -/
def resetChip (c : Chip) (s : State) : State :=
  recompute (s.setChip c (ChipRegs.reset (s.cfg.vbReset c)))

/-- `d.reset()` (40_port_bus.md R93): a chip resets; of a peripheral the call is recorded (log 21). -/
def resetDevice (d : Device) (s : State) : State :=
  match d with
  | .chip c => resetChip c s
  | .peripheral k => s.pushCall (.reset k)

/-- A reset of the machine: both chips, then each peripheral (70_reset_and_hazards.md R201). The kinds of
reset have the same effect (R200). DESIGN CHOICE: a peripheral that REGISTER entered and that has no device
record is not among them (log 34). -/
def resetMachine (s : State) : State :=
  s.cfg.devices.foldl (fun t d => resetDevice (.peripheral d.handle) t) (resetChip .S (resetChip .M s))

/-- RESET (70_reset_and_hazards.md R201). -/
def execReset (t : ResetScope) (s : State) : Out :=
  match t with
  | .machine => .next ((resetMachine s).setResult .none)
  | .device d => .next ((resetDevice d s).setResult .none)

end Sys2Proof.Machine
end

