-- ==== Sys2Proof/Machine/Service.lean ====
section
/-! DEFINITION. The interrupt vector priority encoder (43_service.md). -/

namespace Sys2Proof.Machine

/-- SERVICE (43_service.md R140). -/
def execService (s : State) : Out :=
  .next ((serviceStep s).2.setResult (.vector (serviceStep s).1))

/-- ENCODE (43_service.md R141): a function of its operand. -/
def execEncode (w : BitVec 16) (s : State) : Out := .next (s.setResult (.line (encodeLine w)))

/-- IGNORE (43_service.md R143). -/
def execIgnore (b : Bool) (s : State) : Out := .next ((setIgnoreAll b s).setResult .none)

end Sys2Proof.Machine
end

