-- ==== Sys2Proof/Machine/Dispatch.lean ====
section
/-! DEFINITION. One arm for each instruction. -/

namespace Sys2Proof.Machine

def exec (i : Instr) (s : State) : Host.Outcome State Fault Refusal :=
  match i with
  -- 42_pic_commands.md
  | .icw1 c v => Sys2Proof.Machine.execIcw1 c v s
  | .ocw3Poll c v => Sys2Proof.Machine.execOcw3Poll c v s
  | .ocw3Bit7 c v => Sys2Proof.Machine.execOcw3Bit7 c v s
  | .ocw3 c esmm smm rr ris => Sys2Proof.Machine.execOcw3 c esmm smm rr ris s
  | .eoi c => Sys2Proof.Machine.execEoi c s
  | .seoi c l => Sys2Proof.Machine.execSeoi c l s
  | .ocw2Unrecognized c v => Sys2Proof.Machine.execOcw2Unrecognized c v s
  | .icw2 c base dropped => Sys2Proof.Machine.execIcw2 c base dropped s
  | .icw4 c v => Sys2Proof.Machine.execIcw4 c v s
  | .ocw1 c m => Sys2Proof.Machine.execOcw1 c m s
  | .readStatus c => Sys2Proof.Machine.execReadStatus c s
  | .readMask c => Sys2Proof.Machine.execReadMask c s
  -- 41_pic_lines.md
  | .raise n => Sys2Proof.Machine.execRaise n s
  | .lower n => Sys2Proof.Machine.execLower n s
  | .query n => Sys2Proof.Machine.execQuery n s
  | .anyPending => Sys2Proof.Machine.execAnyPending s
  | .deliverable => Sys2Proof.Machine.execDeliverable s
  | .recompute => Sys2Proof.Machine.execRecompute s
  -- 43_service.md
  | .service => Sys2Proof.Machine.execService s
  | .encode w => Sys2Proof.Machine.execEncode w s
  | .ignore b => Sys2Proof.Machine.execIgnore b s
  -- 40_port_bus.md
  | .register p d dir => Sys2Proof.Machine.execRegister p d dir s
  | .unregister d => Sys2Proof.Machine.execUnregister d s
  | .lookupInput p => Sys2Proof.Machine.execLookupInput p s
  | .lookupOutput p => Sys2Proof.Machine.execLookupOutput p s
  | .in8 p => Sys2Proof.Machine.execIn8 p s
  | .in16 p => Sys2Proof.Machine.execIn16 p s
  | .in32 p => Sys2Proof.Machine.execIn32 p s
  | .out8 p v => Sys2Proof.Machine.execOut8 p v s
  | .out16 p v => Sys2Proof.Machine.execOut16 p v s
  | .out32 p v => Sys2Proof.Machine.execOut32 p v s
  -- 70_reset_and_hazards.md, 44_repeat.md
  | .reset t => Sys2Proof.Machine.execReset t s
  | .rep j => Sys2Proof.Machine.execRep j s

end Sys2Proof.Machine
end

