-- ==== Sys2Proof/Machine/Fetch.lean ====
section
/-! DEFINITION. What the step does around an instruction: taking the next input, the halted core, and the
boundary after an instruction of the guest. -/

namespace Sys2Proof.Machine

/-- Take the next input out of the inbox. -/
def dropInput (s : State) : State := { s with inbox := s.inbox.tail }

/-- A halted core runs no instruction of the guest: it only polls (43_service.md R147; log 16). -/
def waitsHalted (i : Instr) (s : State) : Bool := i.isGuest && s.core.runState == .halted

/-- The core's `ip` after a completed instruction of the guest: REP has written it (44_repeat.md R159); after
any other it is the address of the next instruction (60_exceptions.md R177), an input or a free value, since how
an instruction advances `ip` is in no source (log 36). -/
def passInstruction (i : Instr) (s : State) : State :=
  if i.isRepeat then s
  else (takeNextIp s).2.setCore { (takeNextIp s).2.core with ip := (takeNextIp s).1 }

/-- After an instruction of the guest the core stands at an instruction boundary, with `ip` at the next
instruction (43_service.md R147, 44_repeat.md R158, 60_exceptions.md R177). The operations of other agents, and
the core's own queries, are followed by none. DESIGN CHOICE: this boundary comes before any synchronous
exception of the same instruction, an order that is in no source (log 35). -/
def finishStep (i : Instr) (o : Out) : Out :=
  if i.isGuest then mapNext o (fun t => boundary (passInstruction i t)) else o

/-- The core's excluded instructions have left its signals at new values; a boundary follows (log 11). -/
def coreInput (u : CoreSignals) (s : State) : State := boundary (s.setCore u)

/-- `interrupt(vec, internal)` is performed by the core alone and touches nothing of the block
(60_exceptions.md R180); a boundary follows (log 32). DESIGN CHOICE: it is an input of its own, after the
boundary of the instruction that caused it and before the next one (log 35). -/
def internalInput (vec : Byte) (s : State) : State := boundary (s.pushEvent (.interrupt vec .internal s.core.ip))

end Sys2Proof.Machine
end

