-- ==== Sys2Proof/Machine/Step.lean ====
section
/-! DEFINITION. One step of the machine: the next transaction of the inbox, as one atomic operation of
some agent, with the instruction boundary that follows an instruction of the guest. -/

namespace Sys2Proof.Machine

/-- Run a frame: decode it in the chips' phases and execute it. DESIGN CHOICE: an instruction of the guest before
a halted core holds back every later input of the inbox (log 16). -/
def stepFrame (bytes : List Byte) (s : State) : Host.Outcome State Fault Refusal :=
  match decode s.phases bytes with
  | .error e => .refused (.undecodable e)
  | .ok i => if waitsHalted i s then .next (boundary s) else finishStep i (exec i (dropInput s))

/-- One step. With nothing in the inbox the core, running excluded instructions or halted, only comes to
an instruction boundary (43_service.md R147; log 15). -/
def step (s : State) : Host.Outcome State Fault Refusal :=
  match s.inbox with
  | [] => .next (boundary s)
  | .frame bytes :: _ => stepFrame bytes s
  | .coreSignals u :: _ => .next (coreInput u (dropInput s))
  | .internalInterrupt vec :: _ => .next (internalInput vec (dropInput s))

/-- A table word as the next transaction of a running core (log 1, 3). -/
def State.withFetchWord (s : State) (nbits w : Nat) : State :=
  { s with
    inbox := .frame (tableFrame nbits w) :: s.inbox
    core := { s.core with runState := .running } }

end Sys2Proof.Machine
end

