-- ==== Sys2Proof/Safety.lean ====
section
/-! DEFINITION. The invariants of the block and what counts as a safe outcome. -/

namespace Sys2Proof.Machine

/-- The summary invariant (10_state.md R25). -/
def SummaryExact (s : State) : Prop :=
  s.summary = summaryOf s.master.request s.master.mask s.slave.request s.slave.mask

/-- The port maps have their canonical form (10_state.md R22: partial functions). -/
def PortMapsCanonical (s : State) : Prop := s.inMap.wf = true ∧ s.outMap.wf = true

/-- What every step keeps. -/
def Inv (s : State) : Prop := SummaryExact s ∧ PortMapsCanonical s

/-- The statement `Q` of 10_state.md R26: a pending slave line asserts master line 2. -/
def CascadeAsserted (s : State) : Prop :=
  s.slave.request ≠ 0 → s.master.request.getLsbD 2 = true

/-- An outcome that is a next state. -/
def Completes (o : Host.Outcome State Fault Refusal) : Prop := ∃ t, o = .next t

/-- No step of the run so far stopped: neither a fault nor a refusal. -/
def SafeOutcome (o : Host.Outcome State Fault Refusal) : Prop :=
  (∀ r, o ≠ .fault r) ∧ ∀ r, o ≠ .refused r

end Sys2Proof.Machine
end

