-- ==== Sys2Proof/Certificates/Slice0/Obligations.lean ====
section
/-! DEFINITION. What the model claims, for the provers. Each statement names the rule of spec/ it
formalises; where a clause rests on a decision the spec marks as its own (D<n> of 92_eei_decisions.md) or
on a choice of the model (log <n>), its docstring says so. -/

namespace Sys2Proof.Statements

open Sys2Proof.Machine

/-- Every bit of the summary is "pending and unmasked" (10_state.md R19). -/
def SummaryIsPending (t : State) : Prop :=
  ∀ n < 8, t.summary.getLsbD n = (t.master.request.getLsbD n && !t.master.mask.getLsbD n)
    ∧ t.summary.getLsbD (n + 8) = (t.slave.request.getLsbD n && !t.slave.mask.getLsbD n)

/-- Frame: nothing but the two chips, the summary and the (empty) result has changed. -/
def OnlyChips (s t : State) : Prop :=
  t = { s with master := t.master, slave := t.slave, summary := t.summary, result := .none }

/-- Frame of one chip: nothing but its request bits has changed. -/
def OnlyRequest (r r' : ChipRegs) : Prop := r' = { r with request := r'.request }

/-- Line `n` is the one the priority order selects in a summary word (43_service.md R141). -/
def Selects (w : BitVec 16) (n : Nat) : Prop :=
  n < 16 ∧ n ≠ 2 ∧ w.getLsbD n = true ∧ ∀ m < n, m ≠ 2 → w.getLsbD m = false

/-- The vector of a global line: its chip's base with the index OR'd in (43_service.md R142). -/
def deliveredVector (s : State) (n : Nat) : Byte :=
  if n < 8 then s.master.vectorBase ||| BitVec.ofNat 8 n else s.slave.vectorBase ||| BitVec.ofNat 8 (n - 8)

/-- What a read of a chip's command or data port returns (42_pic_commands.md R122, R123). -/
def chipPortByte (r : ChipRegs) (dataPort : Bool) : Byte :=
  if dataPort then r.mask else if r.readIsr then r.inService else r.request

/-- The log after an unregistered access, whose record is optional (40_port_bus.md R84; log 17). -/
def optionalRecord (s : State) (v : Violation) : List Violation :=
  if s.cfg.logUnregistered then s.violLog ++ [v] else s.violLog

/-- A peripheral that performs a 16-bit access as one atomic operation (40_port_bus.md R92). -/
def overridesWord (s : State) (k : Byte) : Bool := (s.cfg.record? k).any (·.override16)

/-- A peripheral that performs a 32-bit access as one atomic operation (40_port_bus.md R92). -/
def overridesDword (s : State) (k : Byte) : Bool := (s.cfg.record? k).any (·.override32)

/-- A byte for the command port of a chip, other agents, then one for its data port, each byte decoded in
the state it finds. -/
def commandThenData (c : Chip) (v0 v1 : Byte) (s : State) : Out :=
  andThen (exec (decodeCommand c v0) s) fun t => exec (decodeData c (t.phases.of c) v1) (point t)

/-- A byte for the data port of a chip, other agents, then one for its command port. -/
def dataThenCommand (c : Chip) (v0 v1 : Byte) (s : State) : Out :=
  andThen (exec (decodeData c (s.phases.of c) v0) s) fun t => exec (decodeCommand c v1) (point t)

/-- The operations after which a request for line `n` may be gone: a lower of the line (or, for the cascade
line, of a slave line), `service()`, an initialization byte to its chip however it is written, and a reset of
its chip (20_memory.md R54, 70_reset_and_hazards.md R201). The data a string instruction writes are its
body's. -/
def MayDropRequest (s : State) (n : Nat) : Instr → Prop
  | .lower m => m.toNat = n ∨ (n = 2 ∧ 8 ≤ m.toNat)
  | .service => True
  | .icw1 c _ => c = lineChip n
  | .out8 p v => s.outMap.lookup p = some (.chip (lineChip n)) ∧ p.getLsbD 0 = false ∧ v.getLsbD 4 = true
  | .out16 p v => s.outMap.lookup p = some (.chip (lineChip n))
      ∧ v.getLsbD (if p.getLsbD 0 then 12 else 4) = true
  | .out32 p v => s.outMap.lookup p = some (.chip (lineChip n))
      ∧ (v.getLsbD (if p.getLsbD 0 then 12 else 4) = true ∨ v.getLsbD (if p.getLsbD 0 then 28 else 20) = true)
  | .rep j => j.kind = .portOut ∧ s.outMap.lookup s.core.portReg = some (.chip (lineChip n))
  | .reset t => t = .machine ∨ t = .device (.chip (lineChip n))
  | _ => False

/-- The test of the poll and of the abort detector (43_service.md R147, 44_repeat.md R153). -/
def PollHolds (s : State) : Prop :=
  s.core.intEnable = true ∧ (∃ n, Selects s.summary n) ∧ s.ignoreAll = false

/-- The port read of a width. -/
def readOf (w : Width) (p : Port) : Instr :=
  match w with
  | .w8 => .in8 p
  | .w16 => .in16 p
  | .w32 => .in32 p

/-- The port write of a width, of the low bits of `v`. -/
def writeOf (w : Width) (p : Port) (v : BitVec 32) : Instr :=
  match w with
  | .w8 => .out8 p (v.extractLsb' 0 8)
  | .w16 => .out16 p (v.extractLsb' 0 16)
  | .w32 => .out32 p v

/-- What a port read returned, zero-extended. -/
def readData : Result → BitVec 32
  | .byte v => v.zeroExtend 32
  | .word v => v.zeroExtend 32
  | .dword v => v
  | _ => 0

/-- The element counter at width `addr_size` (44_repeat.md R152). -/
def countOf (a : AddrSize) (r : BitVec 32) : Nat :=
  match a with
  | .a16 => r.toNat % 65536
  | .a32 => r.toNat

/-- A register moved by `d` modulo `2^addr_size`, its other bits kept (44_repeat.md R162). -/
def Moved (a : AddrSize) (d r r' : BitVec 32) : Prop :=
  match a with
  | .a16 => r'.extractLsb' 0 16 = r.extractLsb' 0 16 + d.extractLsb' 0 16
      ∧ r'.extractLsb' 16 16 = r.extractLsb' 16 16
  | .a32 => r' = r + d

/-- `dir x width` (44_repeat.md R162). -/
def stride (j : RepInputs) : BitVec 32 :=
  match j.dir with
  | .up => BitVec.ofNat 32 j.width.bytes
  | .down => -(BitVec.ofNat 32 j.width.bytes)

/-- After `k` elements each index register the kind uses has moved by `k x dir x width`, and the other is
unchanged (44_repeat.md R160, R162). -/
def IndicesAfter (j : RepInputs) (k : Nat) (u u' : CoreSignals) : Prop :=
  (if j.kind ∈ [StringKind.move, .compare, .load, .portOut] then
      Moved j.addrSize (BitVec.ofNat 32 k * stride j) u.srcIndex u'.srcIndex
    else u'.srcIndex = u.srcIndex)
  ∧ (if j.kind ∈ [StringKind.move, .compare, .store, .scan, .portIn] then
      Moved j.addrSize (BitVec.ofNat 32 k * stride j) u.dstIndex u'.dstIndex
    else u'.dstIndex = u.dstIndex)

/-- How often the element body has been called. -/
def bodyCalls (l : List CoreEvent) : Nat :=
  l.countP (fun e => match e with | .body .. => true | _ => false)

/-- The call of the element body that the driver makes in state `s`. -/
def bodyCall (j : RepInputs) (s : State) : CoreEvent :=
  .body j.kind j.width j.addrSize s.core.srcIndex s.core.dstIndex

/-- The signals of the core after an instruction without modifier that is no compare or scan. -/
def CoreAfterOne (j : RepInputs) (u u' : CoreSignals) : Prop :=
  u' = { u with cycles := u.cycles + 1, srcIndex := u'.srcIndex, dstIndex := u'.dstIndex, ip := j.ipNext }
  ∧ IndicesAfter j 1 u u'

/-- A compare or scan whose zero flag ends the repeat (44_repeat.md R156). -/
def FlagStops (j : RepInputs) (zf : Bool) : Prop :=
  j.kind ∈ [StringKind.compare, .scan] ∧ ((j.rep = .repNz ∧ zf = true) ∨ (j.rep = .repZ ∧ zf = false))

end Sys2Proof.Statements

open Sys2Proof Sys2Proof.Machine Sys2Proof.Statements

/-! ### The command protocol -/

/-- 42_pic_commands.md R111; that bit 0 of the byte is the one that asks for a fourth byte is the spec's
decision D27 (30_encoding.md R62; log 30). -/
def Obligations.InitByteClearsChip : Prop :=
  ∀ (s : State) (c : Chip) (v : Byte), ∃ t, exec (.icw1 c v) s = .next t
    ∧ t.chip c = {
        request := 0, mask := 0, inService := 0, vectorBase := (s.chip c).vectorBase
        awaitIcw2 := true, awaitIcw4 := v.getLsbD 0, readIsr := false, specialMask := false }
    ∧ (∀ c', c' ≠ c → t.chip c' = s.chip c')
    ∧ SummaryIsPending t ∧ OnlyChips s t

/-- 42_pic_commands.md R112 and R113; the bit layout they use is the spec's decision D5. -/
def Obligations.StatusModeWritesTwoFlags : Prop :=
  ∀ (s : State) (c : Chip) (esmm smm rr ris : Bool),
    exec (.ocw3 c esmm smm rr ris) s = .next ((s.setChip c { s.chip c with
      readIsr := if rr then ris else (s.chip c).readIsr
      specialMask := if esmm then smm else (s.chip c).specialMask }).setResult .none)

/-- 42_pic_commands.md R115: the lowest set bit goes, as `in_service & (in_service - 1)`; with nothing in
service the report is made and nothing else changes (under the default policy, the spec's decision D3). -/
def Obligations.NonSpecificEoiClearsLowestBit : Prop :=
  ∀ (s : State) (c : Chip),
    ((s.chip c).inService ≠ 0 →
      exec (.eoi c) s = .next ((s.setChip c { s.chip c with
        inService := (s.chip c).inService &&& ((s.chip c).inService - 1) }).setResult .none))
    ∧ ((s.chip c).inService = 0 → s.cfg.policy = .reportAndContinue →
      exec (.eoi c) s = .next ((s.pushViolation (.eoiNothingInService c)).setResult .none))

/-- 42_pic_commands.md R116; that a bit already 0 is no violation is the spec's decision D19. -/
def Obligations.SpecificEoiClearsNamedBit : Prop :=
  ∀ (s : State) (c : Chip) (l : BitVec 3), ∃ x : Byte,
    exec (.seoi c l) s = .next ((s.setChip c { s.chip c with inService := x }).setResult .none)
    ∧ ∀ k < 8, x.getLsbD k = ((s.chip c).inService.getLsbD k && decide (k ≠ l.toNat))

/-- 42_pic_commands.md R114, R117 and 41_pic_lines.md R106 under the default policy (the policy is the
spec's decision D3, the bit-7 bytes D5): the record, and no other change; a query of such a line returns 0
(41_pic_lines.md R105, the spec's decision D25). The line operand of a byte is log 19. -/
def Obligations.ViolationsOnlyReport : Prop :=
  ∀ (s : State) (c : Chip) (v n : Byte), s.cfg.policy = .reportAndContinue →
    exec (.ocw3Poll c v) s = .next ((s.pushViolation (.pollUnsupported c v)).setResult .none)
    ∧ exec (.ocw3Bit7 c v) s = .next ((s.pushViolation (.unrecognizedCommand c v)).setResult .none)
    ∧ exec (.ocw2Unrecognized c v) s = .next ((s.pushViolation (.unrecognizedCommand c v)).setResult .none)
    ∧ (15 < n.toNat →
      exec (.raise n) s = .next ((s.pushViolation (.lineOutOfRange n)).setResult .none)
      ∧ exec (.lower n) s = .next ((s.pushViolation (.lineOutOfRange n)).setResult .none)
      ∧ exec (.query n) s = .next ((s.pushViolation (.lineOutOfRange n)).setResult (.bit false)))

/-- 60_exceptions.md R171, `VIOLATION_POLICY = fault` (the spec's decision D3): V1 to V4 stop the run. -/
def Obligations.StrictPolicyStopsAtViolation : Prop :=
  ∀ (s : State) (c : Chip) (v n : Byte), s.cfg.policy = .fault → 15 < n.toNat →
    exec (.ocw3Poll c v) s = .fault (.violation (.pollUnsupported c v))
    ∧ exec (.ocw3Bit7 c v) s = .fault (.violation (.unrecognizedCommand c v))
    ∧ exec (.ocw2Unrecognized c v) s = .fault (.violation (.unrecognizedCommand c v))
    ∧ ((s.chip c).inService = 0 → exec (.eoi c) s = .fault (.violation (.eoiNothingInService c)))
    ∧ exec (.raise n) s = .fault (.violation (.lineOutOfRange n))
    ∧ exec (.lower n) s = .fault (.violation (.lineOutOfRange n))
    ∧ exec (.query n) s = .fault (.violation (.lineOutOfRange n))

/-- 42_pic_commands.md R119 and 10_state.md R27: the upper five bits, zeros below, so that the vector of a
line index is the sum of base and index; that the low bits go without a report is the spec's decision D33. -/
def Obligations.VectorBaseTakesUpperBits : Prop :=
  ∀ (s : State) (c : Chip) (base : BitVec 5) (dropped : BitVec 3),
    exec (.icw2 c base dropped) s = .next ((s.setChip c { s.chip c with
      vectorBase := base ++ 0#3, awaitIcw2 := false }).setResult .none)
    ∧ ∀ i < 8, vectorOf (base ++ 0#3) i = (base ++ 0#3) + BitVec.ofNat 8 i

/-- 42_pic_commands.md R120 (which byte of a sequence it is, is the spec's decision D7). -/
def Obligations.FourthByteIsConsumed : Prop :=
  ∀ (s : State) (c : Chip) (v : Byte),
    exec (.icw4 c v) s = .next ((s.setChip c { s.chip c with awaitIcw4 := false }).setResult .none)

/-- 42_pic_commands.md R121. -/
def Obligations.MaskWriteSetsMask : Prop :=
  ∀ (s : State) (c : Chip) (m : Byte), ∃ t, exec (.ocw1 c m) s = .next t
    ∧ t.chip c = { s.chip c with mask := m } ∧ (∀ c', c' ≠ c → t.chip c' = s.chip c')
    ∧ SummaryIsPending t ∧ OnlyChips s t

/-- 42_pic_commands.md R122 and R123. -/
def Obligations.ChipReadsReturnRegisters : Prop :=
  ∀ (s : State) (c : Chip),
    exec (.readStatus c) s = .next (s.setResult
      (.byte (if (s.chip c).readIsr then (s.chip c).inService else (s.chip c).request)))
    ∧ exec (.readMask c) s = .next (s.setResult (.byte (s.chip c).mask))

/-! ### Lines and queries -/

/-- 41_pic_lines.md R101 on the lines of its operand's range (line 2 included, by the spec's decision D18). -/
def Obligations.RaiseSetsRequestAndCascade : Prop :=
  ∀ (s : State) (n : Byte), n.toNat < 16 → ∃ t, exec (.raise n) s = .next t
    ∧ (∀ k < 8, t.master.request.getLsbD k = (s.master.request.getLsbD k
        || decide (k = n.toNat) || (decide (8 ≤ n.toNat) && decide (k = 2))))
    ∧ (∀ k < 8, t.slave.request.getLsbD k = (s.slave.request.getLsbD k || decide (k + 8 = n.toNat)))
    ∧ OnlyRequest s.master t.master ∧ OnlyRequest s.slave t.slave
    ∧ SummaryIsPending t ∧ OnlyChips s t

/-- 41_pic_lines.md R102 on the lines of its operand's range; that "pending" is the request bit alone,
masked or not, is the spec's decision D8, and that line 2 follows the general rule, also under pending slave
lines, D18 (log 29). -/
def Obligations.LowerClearsRequestAndCascade : Prop :=
  ∀ (s : State) (n : Byte), n.toNat < 16 → ∃ t, exec (.lower n) s = .next t
    ∧ (∀ k < 8, t.slave.request.getLsbD k = (s.slave.request.getLsbD k && decide (k + 8 ≠ n.toNat)))
    ∧ (∀ k < 8, t.master.request.getLsbD k = (s.master.request.getLsbD k && decide (k ≠ n.toNat)
        && !(decide (8 ≤ n.toNat) && decide (t.slave.request = 0) && decide (k = 2))))
    ∧ OnlyRequest s.master t.master ∧ OnlyRequest s.slave t.slave
    ∧ SummaryIsPending t ∧ OnlyChips s t

/-- 41_pic_lines.md R105 (what the query returns is the spec's decision D25). -/
def Obligations.QueryReturnsRequestBit : Prop :=
  ∀ (s : State) (n : Byte), n.toNat < 16 →
    exec (.query n) s = .next (s.setResult (.bit
      (if n.toNat < 8 then s.master.request.getLsbD n.toNat else s.slave.request.getLsbD (n.toNat - 8))))

/-- 41_pic_lines.md R103. -/
def Obligations.AnyPendingTestsWholeSummary : Prop :=
  ∀ s : State, ∃ b, exec .anyPending s = .next (s.setResult (.bit b)) ∧ (b = true ↔ s.summary ≠ 0)

/-- 41_pic_lines.md R104 (the spec's decision D9): true exactly when the priority order selects a line. -/
def Obligations.DeliverableMeansSomeLineSelected : Prop :=
  ∀ s : State, ∃ b, exec .deliverable s = .next (s.setResult (.bit b))
    ∧ (b = true ↔ ∃ n, Selects s.summary n)

/-- 41_pic_lines.md R100. -/
def Obligations.RecomputeGivesPendingUnmasked : Prop :=
  ∀ s : State, ∃ t, exec .recompute s = .next t ∧ SummaryIsPending t
    ∧ t = { s with summary := t.summary, result := .none }

/-- 20_memory.md R54: a raised, unmasked line is in the summary, and so is a requested line after a mask write
that unmasks it; every operation but those the rule names keeps the request, and with it the bit of the summary
while the line is unmasked (no other agent acting between its parts: their own operations are among these);
and the next `service()` then delivers that line or one before it. -/
def Obligations.RaiseIsVisibleToNextService : Prop :=
  (∀ (s : State) (n : Byte), n.toNat < 16 →
    (s.chip (lineChip n.toNat)).mask.getLsbD (lineIndex n.toNat) = false →
    ∃ t, exec (.raise n) s = .next t ∧ t.summary.getLsbD n.toNat = true)
  ∧ (∀ (s : State) (n : Nat) (m : Byte), n < 16 → m.getLsbD (lineIndex n) = false →
    (s.chip (lineChip n)).request.getLsbD (lineIndex n) = true →
    ∃ t, exec (.ocw1 (lineChip n) m) s = .next t ∧ t.summary.getLsbD n = true)
  ∧ (∀ (i : Instr) (s t : State) (n : Nat), n < 16 → SummaryExact s → s.agentOps = [] →
    (s.chip (lineChip n)).request.getLsbD (lineIndex n) = true → ¬MayDropRequest s n i →
    exec i s = .next t →
    (t.chip (lineChip n)).request.getLsbD (lineIndex n) = true
      ∧ ((t.chip (lineChip n)).mask.getLsbD (lineIndex n) = false → t.summary.getLsbD n = true))
  ∧ ∀ (s : State) (n : Nat), n < 16 → n ≠ 2 → s.ignoreAll = false → s.summary.getLsbD n = true →
    ∃ t m, m ≤ n ∧ Selects s.summary m ∧ exec .service s = .next t
      ∧ t.result = .vector (some (deliveredVector s m))

/-! ### Delivery -/

/-- 43_service.md R141. -/
def Obligations.EncodePicksLowestLineButCascade : Prop :=
  ∀ (s : State) (w : BitVec 16), ∃ r, exec (.encode w) s = .next (s.setResult (.line r))
    ∧ ∀ n, r = some n ↔ Selects w n

/-- 43_service.md R140, R142 and R144: the selected line goes from request to in service on its chip, with the
cascade's in-service bit for a slave line (whose request bit stays); the vector is of its chip's own base; the
core is called; and without a selected line, or under the switch, nothing happens. That of the core's signals
only the run state changes is the model's choice (log 10): the spec excludes what interrupt entry does inside
the core. The call is recorded with the core's `ip`, which the entry saves (60_exceptions.md R177; log 36). -/
def Obligations.ServiceDeliversSelectedLine : Prop :=
  ∀ s : State,
    (∀ n, s.ignoreAll = false → Selects s.summary n → ∃ t, exec .service s = .next t
      ∧ (∀ k < 8, t.master.request.getLsbD k = (s.master.request.getLsbD k && decide (k ≠ n))
        ∧ t.slave.request.getLsbD k = (s.slave.request.getLsbD k && decide (k + 8 ≠ n))
        ∧ t.master.inService.getLsbD k
          = (s.master.inService.getLsbD k || decide (k = n) || (decide (8 ≤ n) && decide (k = 2)))
        ∧ t.slave.inService.getLsbD k = (s.slave.inService.getLsbD k || decide (k + 8 = n)))
      ∧ t.master = { s.master with request := t.master.request, inService := t.master.inService }
      ∧ t.slave = { s.slave with request := t.slave.request, inService := t.slave.inService }
      ∧ SummaryIsPending t
      ∧ t.events = s.events ++ [.interrupt (deliveredVector s n) .external s.core.ip, .setRunning]
      ∧ t = { s with
          master := t.master, slave := t.slave, summary := t.summary, events := t.events
          core := { s.core with runState := .running }, result := .vector (some (deliveredVector s n)) })
    ∧ ((s.ignoreAll = true ∨ ¬∃ n, Selects s.summary n) →
      exec .service s = .next (s.setResult (.vector none)))

/-- 43_service.md R148 (derived there): `service()` is a no-op in exactly three cases. -/
def Obligations.ServiceNoOpExactlyThreeCases : Prop :=
  ∀ s : State, exec .service s = .next (s.setResult (.vector none))
    ↔ (s.ignoreAll = true ∨ s.summary = 0x0000 ∨ s.summary = 0x0004)

/-- 43_service.md R145 (derived there): `in_service` blocks nothing. Two machines that differ only there deliver the same
vector, make the same calls and leave the same requests. -/
def Obligations.InServiceBlocksNothing : Prop :=
  ∀ (s : State) (a b : Byte),
    ∃ t t', exec .service s = .next t
      ∧ exec .service { s with
          master := { s.master with inService := a }, slave := { s.slave with inService := b } } = .next t'
      ∧ t'.result = t.result ∧ t'.events = t.events ∧ t'.summary = t.summary
      ∧ t'.master.request = t.master.request ∧ t'.slave.request = t.slave.request

/-- 43_service.md R143: the switch, and `service()` and the boundary under it. -/
def Obligations.IgnoreSwitchSuppressesDelivery : Prop :=
  ∀ (s : State) (b : Bool),
    exec (.ignore b) s = .next { s with ignoreAll := b, result := .none }
    ∧ (s.ignoreAll = true → exec .service s = .next (s.setResult (.vector none))
        ∧ (s.agentOps = [] → boundary s = s))

/-- 10_state.md R26 (derived there): raising and lowering any line a device may be wired to, and `service()`, keep `Q`. -/
def Obligations.LinesAndServiceKeepCascade : Prop :=
  ∀ (s : State) (n : Byte), n.toNat < 16 → n ≠ 2 → CascadeAsserted s →
    (∃ t, exec (.raise n) s = .next t ∧ CascadeAsserted t)
    ∧ (∃ t, exec (.lower n) s = .next t ∧ CascadeAsserted t)
    ∧ (∃ t, exec .service s = .next t ∧ CascadeAsserted t)

/-! ### The port bus -/

/-- 40_port_bus.md R80: an accepted registration enters the directions it names and no other entry; one that
collides in some direction is refused whole (the spec's decision D29) and reported, and the run goes on
(log 18). -/
def Obligations.RegisterEntersOrRefusesWhole : Prop :=
  ∀ (s : State) (p : Port) (d : Device) (dir : Dir),
    ((dir ≠ .write → s.inMap.lookup p = none) ∧ (dir ≠ .read → s.outMap.lookup p = none) →
      ∃ t, exec (.register p d dir) s = .next t ∧ t.result = .registered true
      ∧ (∀ q, t.inMap.lookup q = if q = p ∧ dir ≠ .write then some d else s.inMap.lookup q)
      ∧ (∀ q, t.outMap.lookup q = if q = p ∧ dir ≠ .read then some d else s.outMap.lookup q)
      ∧ t = { s with inMap := t.inMap, outMap := t.outMap, result := t.result })
    ∧ ((dir ≠ .write ∧ s.inMap.lookup p ≠ none) ∨ (dir ≠ .read ∧ s.outMap.lookup p ≠ none) →
      exec (.register p d dir) s
        = .next ((s.pushViolation (.doubleRegistration p dir)).setResult (.registered false)))

/-- 40_port_bus.md R81, in states whose port maps have their canonical form; that a device without ports is no
violation is the spec's decision D29. -/
def Obligations.UnregisterRemovesOneDevice : Prop :=
  ∀ (s : State) (d : Device), PortMapsCanonical s →
    ∃ t, exec (.unregister d) s = .next t
    ∧ (∀ q, t.inMap.lookup q = if s.inMap.lookup q = some d then none else s.inMap.lookup q)
    ∧ (∀ q, t.outMap.lookup q = if s.outMap.lookup q = some d then none else s.outMap.lookup q)
    ∧ t = { s with inMap := t.inMap, outMap := t.outMap, result := .none }

/-- 40_port_bus.md R82 and R83: a lookup answers the owner that the map holds, or none. -/
def Obligations.LookupsAnswerOwner : Prop :=
  ∀ (s : State) (p : Port), PortMapsCanonical s →
    (∃ o, exec (.lookupInput p) s = .next (s.setResult (.owner o))
      ∧ ∀ d, o = some d ↔ (p.toNat, d) ∈ s.inMap)
    ∧ (∃ o, exec (.lookupOutput p) s = .next (s.setResult (.owner o))
      ∧ ∀ d, o = some d ↔ (p.toNat, d) ∈ s.outMap)

/-- 44_repeat.md R155: an element of kind `port_in` or `port_out` does to the block what IN or OUT of its width
does at the port register; and a repeat (R164) that no interrupt aborts before it (R153, the spec's decision D9) is
one such element, counted (R152), then the repeat again, unless the zero flag ends it (R156). The data written are the body's next answer (an
input, log 12), the indices move by the spec's decision D23, the cycle counter by D22, and the address after
the instruction is an operand (log 9). -/
def Obligations.PortElementsDoWhatInAndOutDo : Prop :=
  ∀ (s : State) (j : RepInputs),
    (j.rep = .none → j.kind = .portIn → ∃ u t,
      exec (readOf j.width s.core.portReg) { s with events := s.events ++ [bodyCall j s] } = .next u
      ∧ exec (.rep j) s = .next t ∧ CoreAfterOne j s.core t.core
      ∧ t = { u with
          core := t.core, events := u.events ++ [.portData (readData u.result)], result := .driver .completed })
    ∧ (j.rep = .none → j.kind = .portOut → ∃ v s1 k,
      (∀ r rest, s.bodyResults = r :: rest → v = r.data)
      ∧ s1 = { s with
          events := s.events ++ [bodyCall j s], bodyResults := s.bodyResults.tail, freeCount := s1.freeCount }
      ∧ CoreAfterOne j s.core k
      ∧ exec (.rep j) s = mapNext (exec (writeOf j.width s.core.portReg v) s1)
          (fun u => { u with core := k, result := .driver .completed }))
    ∧ (j.rep ≠ .none → countOf j.addrSize s.core.count ≠ 0 → s.agentOps = [] → ¬PollHolds s →
      (∀ t, exec (.rep { j with rep := .none }) s = .next t → ∃ c, Moved j.addrSize (-1) s.core.count c
        ∧ countOf j.addrSize c = countOf j.addrSize s.core.count - 1
        ∧ (FlagStops j t.core.zf → exec (.rep j) s = .next { t with core := { t.core with count := c } })
        ∧ (¬FlagStops j t.core.zf → exec (.rep j) s = exec (.rep j) { t with
            core := { t.core with count := c, ip := s.core.ip }, result := s.result }))
      ∧ ∀ r, exec (.rep { j with rep := .none }) s = .fault r → exec (.rep j) s = .fault r)

/-- 40_port_bus.md R84 to R89: a port without an input handler reads as `JUNK(w)`, and one without an output
handler ignores writes; one lookup, at the first port (the spec's decision D16). The record of the access is
optional there, and a setting of the configuration here (log 17). -/
def Obligations.UnregisteredPortsAreInert : Prop :=
  ∀ (s : State) (p : Port) (v8 : Byte) (v16 : BitVec 16) (v32 : BitVec 32),
    (s.inMap.lookup p = none →
      exec (.in8 p) s = .next { s with
        violLog := optionalRecord s (.unregisteredPortRead p .w8), result := .byte s.cfg.junk8 }
      ∧ exec (.in16 p) s = .next { s with
        violLog := optionalRecord s (.unregisteredPortRead p .w16), result := .word s.cfg.junk16 }
      ∧ exec (.in32 p) s = .next { s with
        violLog := optionalRecord s (.unregisteredPortRead p .w32), result := .dword s.cfg.junk32 })
    ∧ (s.outMap.lookup p = none →
      exec (.out8 p v8) s = .next { s with
        violLog := optionalRecord s (.unregisteredPortWrite p .w8 (v8.zeroExtend 32)), result := .none }
      ∧ exec (.out16 p v16) s = .next { s with
        violLog := optionalRecord s (.unregisteredPortWrite p .w16 (v16.zeroExtend 32)), result := .none }
      ∧ exec (.out32 p v32) s = .next { s with
        violLog := optionalRecord s (.unregisteredPortWrite p .w32 v32), result := .none })

/-- 40_port_bus.md R95, R96 and 20_memory.md R50: a read of a chip's port, of any width, returns its
registers by bit 0 of each byte's port (the spec's decision D17) and changes nothing. -/
def Obligations.ChipPortReadsComposeRegisters : Prop :=
  ∀ (s : State) (p : Port) (c : Chip), s.inMap.lookup p = some (.chip c) →
    exec (.in8 p) s = .next (s.setResult (.byte (chipPortByte (s.chip c) (p.getLsbD 0))))
    ∧ (s.agentOps = [] →
      exec (.in16 p) s = .next (s.setResult (.word
        (chipPortByte (s.chip c) (!p.getLsbD 0) ++ chipPortByte (s.chip c) (p.getLsbD 0))))
      ∧ exec (.in32 p) s = .next (s.setResult (.dword
        (chipPortByte (s.chip c) (!p.getLsbD 0) ++ chipPortByte (s.chip c) (p.getLsbD 0)
          ++ chipPortByte (s.chip c) (!p.getLsbD 0) ++ chipPortByte (s.chip c) (p.getLsbD 0)))))

/-- 40_port_bus.md R90 to R92: a peripheral is asked for its bytes in ascending port order, and they compose
little-endian (order and wrap are the spec's decisions D14 and D15); one that overrides an access returns the
same bits in one call, whatever other agents do. The bytes are the inputs of log 13. -/
def Obligations.PeripheralReadsCompose : Prop :=
  ∀ (s : State) (p : Port) (k b0 b1 b2 b3 : Byte) (rest : List Byte),
    s.inMap.lookup p = some (.peripheral k) → s.deviceReplies = b0 :: b1 :: b2 :: b3 :: rest →
    exec (.in8 p) s = .next { s with
      deviceCalls := s.deviceCalls ++ [.in8 k p], deviceReplies := b1 :: b2 :: b3 :: rest
      result := .byte b0 }
    ∧ (overridesWord s k = true →
      exec (.in16 p) s = .next { s with
        deviceCalls := s.deviceCalls ++ [.in16 k p], deviceReplies := b2 :: b3 :: rest
        result := .word (b1 ++ b0) })
    ∧ (overridesDword s k = true →
      exec (.in32 p) s = .next { s with
        deviceCalls := s.deviceCalls ++ [.in32 k p], deviceReplies := rest
        result := .dword (b3 ++ b2 ++ b1 ++ b0) })
    ∧ (s.agentOps = [] → overridesWord s k = false →
      exec (.in16 p) s = .next { s with
        deviceCalls := s.deviceCalls ++ [.in8 k p, .in8 k (p + 1)], deviceReplies := b2 :: b3 :: rest
        result := .word (b1 ++ b0) })
    ∧ (s.agentOps = [] → overridesDword s k = false →
      exec (.in32 p) s = .next { s with
        deviceCalls := s.deviceCalls ++ (if overridesWord s k then [.in16 k p, .in16 k (p + 2)]
          else [.in8 k p, .in8 k (p + 1), .in8 k (p + 2), .in8 k (p + 3)])
        deviceReplies := rest, result := .dword (b3 ++ b2 ++ b1 ++ b0) })

/-- 40_port_bus.md R87 to R92: a peripheral is given its bytes in ascending port order (the spec's decision
D14), the ports modulo 65536 (D15); one that overrides an access is given the same bits in one call,
whatever other agents do. -/
def Obligations.PeripheralWritesAscend : Prop :=
  ∀ (s : State) (p : Port) (k b0 b1 b2 b3 : Byte), s.outMap.lookup p = some (.peripheral k) →
    exec (.out8 p b0) s = .next { s with
      deviceCalls := s.deviceCalls ++ [.out8 k p b0], result := .none }
    ∧ (overridesWord s k = true →
      exec (.out16 p (b1 ++ b0)) s = .next { s with
        deviceCalls := s.deviceCalls ++ [.out16 k p (b1 ++ b0)], result := .none })
    ∧ (overridesDword s k = true →
      exec (.out32 p (b3 ++ b2 ++ b1 ++ b0)) s = .next { s with
        deviceCalls := s.deviceCalls ++ [.out32 k p (b3 ++ b2 ++ b1 ++ b0)], result := .none })
    ∧ (s.agentOps = [] → overridesWord s k = false →
      exec (.out16 p (b1 ++ b0)) s = .next { s with
        deviceCalls := s.deviceCalls ++ [.out8 k p b0, .out8 k (p + 1) b1], result := .none })
    ∧ (s.agentOps = [] → overridesDword s k = false →
      exec (.out32 p (b3 ++ b2 ++ b1 ++ b0)) s = .next { s with
        deviceCalls := s.deviceCalls ++ (if overridesWord s k
          then [.out16 k p (b1 ++ b0), .out16 k (p + 2) (b3 ++ b2)]
          else [.out8 k p b0, .out8 k (p + 1) b1, .out8 k (p + 2) b2, .out8 k (p + 3) b3])
        result := .none })

/-- 40_port_bus.md R95, 42_pic_commands.md R110 and R118: a byte written to a chip's port does what the
instruction it decodes to does. -/
def Obligations.PortWriteRunsDecodedCommand : Prop :=
  ∀ (s : State) (p : Port) (c : Chip) (v : Byte), s.outMap.lookup p = some (.chip c) →
    exec (.out8 p v) s
      = exec (if p.getLsbD 0 then decodeData c (s.phases.of c) v else decodeCommand c v) s

/-- 40_port_bus.md R96 and 20_memory.md R49: a wide write to a chip is its bytes in ascending order (the
spec's decision D14), command and data ports in turn (bit 0 decoded, D17), each decoded in the phase that the
byte before it left; devices and the debug host may act between two bytes, a reset by the machine not
(log 37). -/
def Obligations.WideChipWritesRunInOrder : Prop :=
  ∀ (s : State) (p : Port) (c : Chip) (v : BitVec 16) (w : BitVec 32),
    s.outMap.lookup p = some (.chip c) →
    (p.getLsbD 0 = false →
      exec (.out16 p v) s = commandThenData c (v.extractLsb' 0 8) (v.extractLsb' 8 8) s
      ∧ exec (.out32 p w) s
        = andThen (commandThenData c (w.extractLsb' 0 8) (w.extractLsb' 8 8) s)
            fun t => commandThenData c (w.extractLsb' 16 8) (w.extractLsb' 24 8) (point t))
    ∧ (p.getLsbD 0 = true →
      exec (.out16 p v) s = dataThenCommand c (v.extractLsb' 0 8) (v.extractLsb' 8 8) s
      ∧ exec (.out32 p w) s
        = andThen (dataThenCommand c (w.extractLsb' 0 8) (w.extractLsb' 8 8) s)
            fun t => dataThenCommand c (w.extractLsb' 16 8) (w.extractLsb' 24 8) (point t))

/-! ### Reset -/

/-- 70_reset_and_hazards.md R201 and R203 (the values are the spec's decision D11; that a peripheral's
reset entry is called and recorded is log 21). -/
def Obligations.ResetClearsChipsOnly : Prop :=
  ∀ (s : State) (c : Chip) (k : Byte),
    (∃ t, exec (.reset (.device (.chip c))) s = .next t
      ∧ t.chip c = {
          request := 0, mask := 0, inService := 0, vectorBase := s.cfg.vbReset c
          awaitIcw2 := false, awaitIcw4 := false, readIsr := false, specialMask := false }
      ∧ (∀ c', c' ≠ c → t.chip c' = s.chip c') ∧ SummaryIsPending t ∧ OnlyChips s t)
    ∧ (∃ t, exec (.reset .machine) s = .next t
      ∧ (∀ c', t.chip c' = {
          request := 0, mask := 0, inService := 0, vectorBase := s.cfg.vbReset c'
          awaitIcw2 := false, awaitIcw4 := false, readIsr := false, specialMask := false })
      ∧ t = { s with
          master := t.master, slave := t.slave, summary := 0, result := .none
          deviceCalls := s.deviceCalls ++ s.cfg.devices.map (fun d => .reset d.handle) })
    ∧ exec (.reset (.device (.peripheral k))) s = .next { s with
        deviceCalls := s.deviceCalls ++ [.reset k], result := .none }

/-! ### The repeat driver -/

/-- 44_repeat.md R151, under the default policy (D3); the index advance is by the spec's decision D23, the
cycle count by D22, and the address after the instruction is an operand (log 9). -/
def Obligations.NoModifierRunsOneElement : Prop :=
  ∀ (s : State) (j : RepInputs), s.cfg.policy = .reportAndContinue → j.rep = .none →
    ∃ t, exec (.rep j) s = .next t ∧ t.result = .driver .completed
    ∧ t.core.count = s.core.count ∧ t.core.cycles = s.core.cycles + 1
    ∧ IndicesAfter j 1 s.core t.core ∧ t.core.ip = j.ipNext
    ∧ bodyCalls t.events = bodyCalls s.events + 1

/-- 44_repeat.md R152 and R161: a count of 0 completes at once, even when an interrupt is deliverable. -/
def Obligations.ZeroCountCompletesAtOnce : Prop :=
  ∀ (s : State) (j : RepInputs), j.rep ≠ .none → countOf j.addrSize s.core.count = 0 →
    exec (.rep j) s = .next { s with
      core := { s.core with ip := j.ipNext }, result := .driver .completed }

/-- 44_repeat.md R153 and R154 before the first element (the test by the spec's decision D9, `ip` by D24;
no other agent acts meanwhile). -/
def Obligations.PendingInterruptAbortsBeforeFirst : Prop :=
  ∀ (s : State) (j : RepInputs), j.rep ≠ .none → countOf j.addrSize s.core.count ≠ 0 → s.agentOps = [] →
    s.core.intEnable = true → (∃ n, Selects s.summary n) → s.ignoreAll = false →
    exec (.rep j) s = .next { s with
      core := { s.core with ip := j.ip0 }, result := .driver .abortedForInterrupt }

/-- 44_repeat.md R160 and R159, the aborted row: precise interrupts. Whatever other agents do meanwhile, an
aborted repeat has run `k` whole elements, fewer than the count asked for. The index advance is by the spec's
decision D23, the cycle count by D22, `ip` by D24, the abort test by D9. -/
def Obligations.AbortedRepeatIsPrecise : Prop :=
  ∀ (s t : State) (j : RepInputs), j.rep ≠ .none → exec (.rep j) s = .next t →
    t.result = .driver .abortedForInterrupt →
    ∃ k, k < countOf j.addrSize s.core.count
      ∧ countOf j.addrSize t.core.count = countOf j.addrSize s.core.count - k
      ∧ Moved j.addrSize (-(BitVec.ofNat 32 k)) s.core.count t.core.count
      ∧ IndicesAfter j k s.core t.core
      ∧ t.core.cycles = s.core.cycles + k ∧ bodyCalls t.events = bodyCalls s.events + k
      ∧ t.core.ip = j.ip0
      ∧ t.core.intEnable = true ∧ (∃ n, Selects t.summary n) ∧ t.ignoreAll = false

/-- 44_repeat.md R159, the completed row, with R156: a completed repeat has run all its elements, or its
last element was a compare or scan that met the termination condition. The index advance is by the spec's
decision D23, the cycle count by D22, and the address after the instruction is an operand (log 9). -/
def Obligations.CompletedRepeatRanItsElements : Prop :=
  ∀ (s t : State) (j : RepInputs), j.rep ≠ .none → exec (.rep j) s = .next t →
    t.result = .driver .completed →
    ∃ k, k ≤ countOf j.addrSize s.core.count
      ∧ countOf j.addrSize t.core.count = countOf j.addrSize s.core.count - k
      ∧ Moved j.addrSize (-(BitVec.ofNat 32 k)) s.core.count t.core.count
      ∧ IndicesAfter j k s.core t.core
      ∧ t.core.cycles = s.core.cycles + k ∧ bodyCalls t.events = bodyCalls s.events + k
      ∧ t.core.ip = j.ipNext
      ∧ (k = countOf j.addrSize s.core.count ∨ (1 ≤ k ∧ FlagStops j t.core.zf))

/-- 44_repeat.md R157. -/
def Obligations.FlavourIrrelevantWithoutFlag : Prop :=
  ∀ (s : State) (j : RepInputs), j.kind ∉ [StringKind.compare, .scan] →
    exec (.rep { j with rep := .repNz }) s = exec (.rep { j with rep := .repZ }) s

/-- 44_repeat.md R156: the element that ends the repeat is counted. The zero flag of the body is the input
of log 12; interrupts are disabled and no other agent acts. The index advance is by the spec's decision D23, the
cycle count by D22. -/
def Obligations.FlagEndsRepeatAfterCounting : Prop :=
  ∀ (s : State) (j : RepInputs) (r : BodyResult) (rest : List BodyResult),
    FlagStops j r.zf → countOf j.addrSize s.core.count ≠ 0 → s.agentOps = [] →
    s.core.intEnable = false → s.bodyResults = r :: rest →
    ∃ t, exec (.rep j) s = .next t ∧ t.result = .driver .completed ∧ t.core.zf = r.zf
      ∧ Moved j.addrSize (-1) s.core.count t.core.count
      ∧ countOf j.addrSize t.core.count = countOf j.addrSize s.core.count - 1
      ∧ IndicesAfter j 1 s.core t.core ∧ t.core.cycles = s.core.cycles + 1 ∧ t.core.ip = j.ipNext

/-- 44_repeat.md R153 (the spec's decision D9): with `IF = 0` the abort detector never fires, however many lines
are pending. -/
def Obligations.DisabledInterruptsNeverAbort : Prop :=
  ∀ (s t : State) (j : RepInputs), s.core.intEnable = false → exec (.rep j) s = .next t →
    t.result = .driver .completed ∧ t.core.intEnable = false

/-- Frame of the driver (10_state.md R24, R31; 44_repeat.md R155, R162, R164): it answers `Completed` or
`AbortedForInterrupt`, writes no signal of the core but
the zero flag, the count, the index registers, `ip` and the cycle counter, the zero flag only in a compare or
scan; and an element without a port access leaves the block as it is, but for what devices and the debug host
do meanwhile. That no reset by the machine falls inside a repeat is the model's choice (log 37). -/
def Obligations.RepeatWritesOnlyItsRegisters : Prop :=
  ∀ (s t : State) (j : RepInputs), exec (.rep j) s = .next t →
    (∃ r, t.result = .driver r)
    ∧ t.core = { s.core with
      zf := t.core.zf, count := t.core.count, srcIndex := t.core.srcIndex, dstIndex := t.core.dstIndex
      ip := t.core.ip, cycles := t.core.cycles }
    ∧ (j.kind ∉ [StringKind.compare, .scan] → t.core.zf = s.core.zf)
    ∧ (j.kind ∉ [StringKind.portIn, .portOut] → t = { s with
        master := { s.master with request := t.master.request }
        slave := { s.slave with request := t.slave.request }
        summary := t.summary, ignoreAll := t.ignoreAll, agentOps := t.agentOps
        core := t.core, events := t.events, result := t.result
        bodyResults := t.bodyResults, freeCount := t.freeCount })

/-! ### The step -/

/-- The step runs the decoded instruction: after an instruction of the guest `ip` is at the next instruction
(60_exceptions.md R177), where REP left it or where the next address of the inputs says (log 36), and the
boundary follows (43_service.md R147; log 1, 15). -/
def Obligations.StepRunsDecodedInstruction : Prop :=
  ∀ (s : State) (bytes : List Byte) (rest : List Input) (i : Instr),
    s.inbox = .frame bytes :: rest → decode s.phases bytes = .ok i →
    ¬(i.isGuest = true ∧ s.core.runState = .halted) →
    (step s = if i.isGuest then mapNext (exec i { s with inbox := rest }) (fun t => boundary (passInstruction i t))
      else exec i { s with inbox := rest })
    ∧ ∀ t : State, (i.isRepeat = true → passInstruction i t = t)
      ∧ (i.isRepeat = false → ∀ a later, t.nextIps = a :: later →
        passInstruction i t = { t with core := { t.core with ip := a }, nextIps := later })

/-- 43_service.md R147 (the spec's decision D10) and 20_memory.md R56: other agents may act before the poll,
and between the poll and `service()`, which decides from the state at its own transition, so that a line lowered
in between is not delivered; without them the core calls `service()` exactly when the poll holds. The result of
the finished instruction stays (log 20). A step with nothing in the inbox, or with new signals of the core
(log 11), is such a boundary (log 15). That no reset by the machine falls into a boundary is log 37. -/
def Obligations.BoundaryServicesWhenEligible : Prop :=
  ∀ s : State,
    (PollHolds (point s) →
      ∃ t, exec .service (point (point s)) = .next t ∧ boundary s = { t with result := s.result })
    ∧ (¬PollHolds (point s) → boundary s = point s)
    ∧ (s.agentOps = [] →
      (PollHolds s → ∃ t, exec .service s = .next t ∧ boundary s = { t with result := s.result })
      ∧ (¬PollHolds s → boundary s = s))
    ∧ (∀ (n : Byte) (m : BitVec 4) (rest : List (List AgentOp)) (t : State), n.toNat = m.toNat →
      s.agentOps = [] :: [.lower m] :: rest → exec (.lower n) s = .next t → (¬∃ k, Selects t.summary k) →
      PollHolds s → boundary s = { t with agentOps := rest, result := s.result })
    ∧ (s.inbox = [] → step s = .next (boundary s))
    ∧ ∀ (u : CoreSignals) (rest : List Input), s.inbox = .coreSignals u :: rest →
      step s = .next (boundary { s with inbox := rest, core := u })

/-- 43_service.md R147, 60_exceptions.md R186 (the spec's decisions D10, D31): the step of a halted core before
an instruction of the guest is a boundary and nothing else; the instruction waits in the inbox (log 16), and the
core is woken exactly by a delivery. -/
def Obligations.HaltedCoreOnlyPolls : Prop :=
  ∀ (s : State) (bytes : List Byte) (rest : List Input) (i : Instr),
    s.inbox = .frame bytes :: rest → decode s.phases bytes = .ok i → i.isGuest = true →
    s.core.runState = .halted →
    step s = .next (boundary s) ∧ (boundary s).inbox = s.inbox
      ∧ (s.agentOps = [] → ((boundary s).core.runState = .running ↔ PollHolds s))

/-- 60_exceptions.md R180 (derived there): an internal cause changes nothing of the block, whatever its vector:
the call is recorded, and the boundary follows (log 32), which with `IF = 0` and no other agent acting does
nothing either. -/
def Obligations.InternalCauseTouchesNothing : Prop :=
  ∀ (s : State) (vec : Byte) (rest : List Input), s.inbox = .internalInterrupt vec :: rest →
    step s = .next (boundary { s with inbox := rest, events := s.events ++ [.interrupt vec .internal s.core.ip] })
    ∧ (s.agentOps = [] → s.core.intEnable = false →
      step s = .next { s with inbox := rest, events := s.events ++ [.interrupt vec .internal s.core.ip] })

/-! ### The whole machine -/

/-- 10_state.md R25: every step, whatever it runs and whatever other agents do meanwhile, keeps the summary
exact. -/
def Obligations.StepKeepsSummary : Prop :=
  ∀ s t : State, SummaryExact s → step s = .next t → SummaryExact t

/-- 10_state.md R22: the port maps stay partial functions on 16-bit ports, in the model's canonical form. -/
def Obligations.StepKeepsPortMaps : Prop :=
  ∀ s t : State, PortMapsCanonical s → step s = .next t → PortMapsCanonical t

/-- The reset state meets the invariant, and its fields are the values of 10_state.md R30 (the spec's
decision D11); `vector_base` is unspecified. -/
def Obligations.ResetStateMeetsInvariant : Prop :=
  Inv State.reset ∧ State.reset.summary = 0 ∧ State.reset.ignoreAll = false ∧ State.reset.violLog = []
    ∧ ∀ c : Chip, State.reset.chip c = {
        request := 0, mask := 0, inService := 0, vectorBase := Config.freeVbReset c
        awaitIcw2 := false, awaitIcw4 := false, readIsr := false, specialMask := false }

/-- 10_state.md R21 and R29, 20_memory.md R59: the violation log is append-only, no call once made, so no
delivery, is taken back, and no step writes the configuration. -/
def Obligations.RecordsAndDeliveriesOnlyGrow : Prop :=
  ∀ s t : State, step s = .next t →
    s.violLog <+: t.violLog ∧ s.events <+: t.events ∧ s.deviceCalls <+: t.deviceCalls ∧ t.cfg = s.cfg

/-- 20_memory.md R58: under the default policy (the spec's decision D3) every operation returns, with a next
state. -/
def Obligations.EveryOperationReturns : Prop :=
  ∀ (i : Instr) (s : State), s.cfg.policy = .reportAndContinue → Completes (exec i s)

/-- 10_state.md R31 (derived there): lines, queries, registrations, the ignore switch and all reads write no chip register
but `request`, whatever devices and the debug host do meanwhile. That no reset by the machine falls between two
bytes of a wide read is the model's choice (log 37). -/
def Obligations.ReadsAndLinesWriteOnlyRequest : Prop :=
  ∀ (i : Instr) (s t : State) (c : Chip),
    (match i with
      | .readStatus .. | .readMask .. | .raise .. | .lower .. | .query .. | .anyPending | .deliverable
      | .recompute | .encode .. | .ignore .. | .register .. | .unregister .. | .lookupInput ..
      | .lookupOutput .. | .in8 .. | .in16 .. | .in32 .. => True
      | _ => False) →
    exec i s = .next t → OnlyRequest (s.chip c) (t.chip c)

/-- 10_state.md R20: no instruction of the guest writes the ignore switch (with no other agent acting
between its parts). -/
def Obligations.GuestCannotWriteIgnoreSwitch : Prop :=
  ∀ (i : Instr) (s t : State), i.isGuest = true → s.agentOps = [] → exec i s = .next t →
    t.ignoreAll = s.ignoreAll

/-- 10_state.md R20, 43_service.md R143: apart from `service()`, the switch's own write and the abort detector
of a repeat, every operation does the same whatever the switch is, and leaves it (no other agent acting between
its parts). -/
def Obligations.IgnoreSwitchTouchesOnlyDelivery : Prop :=
  ∀ (i : Instr) (s : State) (b : Bool),
    (match i with | .service | .ignore _ | .rep _ => False | _ => True) → s.agentOps = [] →
    exec i { s with ignoreAll := b } = mapNext (exec i s) (fun t => { t with ignoreAll := b })

/-- 10_state.md R13, R31: only `service()` sets an in-service bit, whatever other agents do meanwhile. -/
def Obligations.OnlyServiceSetsInService : Prop :=
  ∀ (i : Instr) (s t : State) (c : Chip) (k : Nat), i ≠ .service → exec i s = .next t →
    (t.chip c).inService.getLsbD k = true → (s.chip c).inService.getLsbD k = true

/-! ### Encodings -/

/-- Every well-formed instruction is read back from its frame, in the phases in which its byte has its
meaning (30_encoding.md R61 to R65; the frame is log 2). -/
def Obligations.DecodeOfEncode : Prop :=
  ∀ (ph : Phases) (i : Instr), i.wf = true → i.fitsPhases ph = true → decode ph (encode i) = .ok i

/-- Whatever a frame decodes to is well formed and fits the phases, and no bit of the frame is dropped
(30_encoding.md R61 to R65, R71; the frame around the spec's bytes is the model's, log 2). -/
def Obligations.EncodeOfDecode : Prop :=
  ∀ (ph : Phases) (bytes : List Byte) (i : Instr), decode ph bytes = .ok i →
    i.wf = true ∧ i.fitsPhases ph = true ∧ encode i = bytes

/-- 30_encoding.md R74, the ranges of the command-port map (its classification is the spec's decision D4,
the status-mode bits, polling and bit 7 D5, the end-of-interrupt bytes D6; log 30). -/
def Obligations.CommandPortMapByRanges : Prop :=
  ∀ (c : Chip) (v : Byte),
    decodeCommand c v =
      if v.toNat % 32 ≥ 16 then .icw1 c v
      else if v.toNat % 16 ≥ 12 then .ocw3Poll c v
      else if v.toNat % 16 ≥ 8 then
        if v.toNat ≥ 0x80 then .ocw3Bit7 c v
        else .ocw3 c (decide (0x40 ≤ v.toNat)) (decide (0x20 ≤ v.toNat % 0x40))
          (decide (2 ≤ v.toNat % 4)) (decide (v.toNat % 2 = 1))
      else if v = 0x20 then .eoi c
      else if 0x60 ≤ v.toNat ∧ v.toNat ≤ 0x67 then .seoi c (BitVec.ofNat 3 (v.toNat - 0x60))
      else .ocw2Unrecognized c v

/-- A few words of 95_test_vectors.md §2.1 decode to the instruction they stand for. That a bare 8-bit word is
a command byte of the master is the model's (log 3); the status-mode words rest on the spec's decision D5, the
end-of-interrupt words on D6. -/
def Obligations.ListedCommandWordsDecode : Prop :=
  decodeTableWord 8 0b00010011 = some (.icw1 .M 0x13)
    ∧ decodeTableWord 8 0b00100000 = some (.eoi .M)
    ∧ decodeTableWord 8 0b01100010 = some (.seoi .M 2)
    ∧ decodeTableWord 8 0b00001011 = some (.ocw3 .M false false true true)
    ∧ decodeTableWord 8 0b10001100 = some (.ocw3Poll .M 0x8C)
    ∧ decodeTableWord 8 0b10001000 = some (.ocw3Bit7 .M 0x88)
    ∧ decodeTableWord 8 0b11100111 = some (.ocw2Unrecognized .M 0xE7)
end

