-- ==== Sys2Proof/Laws/State.lean ====
section
/-! SUPPORT. One lemma for each field of State under each named update, so that no proof unfolds an
update. -/

namespace Sys2Proof.Machine

/-! ### The registers of a chip -/

@[simp] theorem setChip_chip (s : State) (c : Chip) (r : ChipRegs) : (s.setChip c r).chip c = r := by
  cases c <;> rfl

@[simp] theorem setChip_master (s : State) (r : ChipRegs) : (s.setChip .M r).master = r := rfl

@[simp] theorem setChip_slave (s : State) (r : ChipRegs) : (s.setChip .S r).slave = r := rfl

@[simp] theorem setChip_master_of_S (s : State) (r : ChipRegs) : (s.setChip .S r).master = s.master := rfl

@[simp] theorem setChip_slave_of_M (s : State) (r : ChipRegs) : (s.setChip .M r).slave = s.slave := rfl

@[simp] theorem chip_M (s : State) : s.chip .M = s.master := rfl

@[simp] theorem chip_S (s : State) : s.chip .S = s.slave := rfl

/-- Writing one chip leaves the other. -/
theorem setChip_chip_ne (s : State) {c c' : Chip} (r : ChipRegs) (h : c' ≠ c) :
    (s.setChip c r).chip c' = s.chip c' := by
  cases c <;> cases c' <;> first | exact absurd rfl h | rfl

@[simp] theorem setChip_cfg (s : State) (c : Chip) (r : ChipRegs) : (s.setChip c r).cfg = s.cfg := by
  cases c <;> rfl

@[simp] theorem setChip_summary (s : State) (c : Chip) (r : ChipRegs) : (s.setChip c r).summary = s.summary := by
  cases c <;> rfl

@[simp] theorem setChip_ignoreAll (s : State) (c : Chip) (r : ChipRegs) : (s.setChip c r).ignoreAll = s.ignoreAll := by
  cases c <;> rfl

@[simp] theorem setChip_violLog (s : State) (c : Chip) (r : ChipRegs) : (s.setChip c r).violLog = s.violLog := by
  cases c <;> rfl

@[simp] theorem setChip_inMap (s : State) (c : Chip) (r : ChipRegs) : (s.setChip c r).inMap = s.inMap := by
  cases c <;> rfl

@[simp] theorem setChip_outMap (s : State) (c : Chip) (r : ChipRegs) : (s.setChip c r).outMap = s.outMap := by
  cases c <;> rfl

@[simp] theorem setChip_core (s : State) (c : Chip) (r : ChipRegs) : (s.setChip c r).core = s.core := by
  cases c <;> rfl

@[simp] theorem setChip_events (s : State) (c : Chip) (r : ChipRegs) : (s.setChip c r).events = s.events := by
  cases c <;> rfl

@[simp] theorem setChip_deviceCalls (s : State) (c : Chip) (r : ChipRegs) : (s.setChip c r).deviceCalls = s.deviceCalls := by
  cases c <;> rfl

@[simp] theorem setChip_result (s : State) (c : Chip) (r : ChipRegs) : (s.setChip c r).result = s.result := by
  cases c <;> rfl

@[simp] theorem setChip_inbox (s : State) (c : Chip) (r : ChipRegs) : (s.setChip c r).inbox = s.inbox := by
  cases c <;> rfl

@[simp] theorem setChip_agentOps (s : State) (c : Chip) (r : ChipRegs) : (s.setChip c r).agentOps = s.agentOps := by
  cases c <;> rfl

@[simp] theorem setChip_deviceReplies (s : State) (c : Chip) (r : ChipRegs) : (s.setChip c r).deviceReplies = s.deviceReplies := by
  cases c <;> rfl

@[simp] theorem setChip_bodyResults (s : State) (c : Chip) (r : ChipRegs) : (s.setChip c r).bodyResults = s.bodyResults := by
  cases c <;> rfl

@[simp] theorem setChip_nextIps (s : State) (c : Chip) (r : ChipRegs) : (s.setChip c r).nextIps = s.nextIps := by
  cases c <;> rfl

@[simp] theorem setChip_freeCount (s : State) (c : Chip) (r : ChipRegs) : (s.setChip c r).freeCount = s.freeCount := by
  cases c <;> rfl

/-! ### setResult -/

@[simp] theorem setResult_cfg (s : State) (r : Result) : (s.setResult r).cfg = s.cfg := rfl

@[simp] theorem setResult_master (s : State) (r : Result) : (s.setResult r).master = s.master := rfl

@[simp] theorem setResult_slave (s : State) (r : Result) : (s.setResult r).slave = s.slave := rfl

@[simp] theorem setResult_summary (s : State) (r : Result) :
    (s.setResult r).summary = s.summary := rfl

@[simp] theorem setResult_ignoreAll (s : State) (r : Result) :
    (s.setResult r).ignoreAll = s.ignoreAll := rfl

@[simp] theorem setResult_violLog (s : State) (r : Result) :
    (s.setResult r).violLog = s.violLog := rfl

@[simp] theorem setResult_inMap (s : State) (r : Result) : (s.setResult r).inMap = s.inMap := rfl

@[simp] theorem setResult_outMap (s : State) (r : Result) : (s.setResult r).outMap = s.outMap := rfl

@[simp] theorem setResult_core (s : State) (r : Result) : (s.setResult r).core = s.core := rfl

@[simp] theorem setResult_events (s : State) (r : Result) : (s.setResult r).events = s.events := rfl

@[simp] theorem setResult_deviceCalls (s : State) (r : Result) :
    (s.setResult r).deviceCalls = s.deviceCalls := rfl

@[simp] theorem setResult_result (s : State) (r : Result) : (s.setResult r).result = r := rfl

@[simp] theorem setResult_inbox (s : State) (r : Result) : (s.setResult r).inbox = s.inbox := rfl

@[simp] theorem setResult_agentOps (s : State) (r : Result) :
    (s.setResult r).agentOps = s.agentOps := rfl

@[simp] theorem setResult_deviceReplies (s : State) (r : Result) :
    (s.setResult r).deviceReplies = s.deviceReplies := rfl

@[simp] theorem setResult_bodyResults (s : State) (r : Result) :
    (s.setResult r).bodyResults = s.bodyResults := rfl

@[simp] theorem setResult_nextIps (s : State) (r : Result) :
    (s.setResult r).nextIps = s.nextIps := rfl

@[simp] theorem setResult_freeCount (s : State) (r : Result) :
    (s.setResult r).freeCount = s.freeCount := rfl

@[simp] theorem setResult_chip (s : State) (r : Result) (c : Chip) : (s.setResult r).chip c = s.chip c := by
  cases c <;> rfl

/-! ### setCore -/

@[simp] theorem setCore_cfg (s : State) (u : CoreSignals) : (s.setCore u).cfg = s.cfg := rfl

@[simp] theorem setCore_master (s : State) (u : CoreSignals) :
    (s.setCore u).master = s.master := rfl

@[simp] theorem setCore_slave (s : State) (u : CoreSignals) : (s.setCore u).slave = s.slave := rfl

@[simp] theorem setCore_summary (s : State) (u : CoreSignals) :
    (s.setCore u).summary = s.summary := rfl

@[simp] theorem setCore_ignoreAll (s : State) (u : CoreSignals) :
    (s.setCore u).ignoreAll = s.ignoreAll := rfl

@[simp] theorem setCore_violLog (s : State) (u : CoreSignals) :
    (s.setCore u).violLog = s.violLog := rfl

@[simp] theorem setCore_inMap (s : State) (u : CoreSignals) : (s.setCore u).inMap = s.inMap := rfl

@[simp] theorem setCore_outMap (s : State) (u : CoreSignals) :
    (s.setCore u).outMap = s.outMap := rfl

@[simp] theorem setCore_core (s : State) (u : CoreSignals) : (s.setCore u).core = u := rfl

@[simp] theorem setCore_events (s : State) (u : CoreSignals) :
    (s.setCore u).events = s.events := rfl

@[simp] theorem setCore_deviceCalls (s : State) (u : CoreSignals) :
    (s.setCore u).deviceCalls = s.deviceCalls := rfl

@[simp] theorem setCore_result (s : State) (u : CoreSignals) :
    (s.setCore u).result = s.result := rfl

@[simp] theorem setCore_inbox (s : State) (u : CoreSignals) : (s.setCore u).inbox = s.inbox := rfl

@[simp] theorem setCore_agentOps (s : State) (u : CoreSignals) :
    (s.setCore u).agentOps = s.agentOps := rfl

@[simp] theorem setCore_deviceReplies (s : State) (u : CoreSignals) :
    (s.setCore u).deviceReplies = s.deviceReplies := rfl

@[simp] theorem setCore_bodyResults (s : State) (u : CoreSignals) :
    (s.setCore u).bodyResults = s.bodyResults := rfl

@[simp] theorem setCore_nextIps (s : State) (u : CoreSignals) :
    (s.setCore u).nextIps = s.nextIps := rfl

@[simp] theorem setCore_freeCount (s : State) (u : CoreSignals) :
    (s.setCore u).freeCount = s.freeCount := rfl

@[simp] theorem setCore_chip (s : State) (u : CoreSignals) (c : Chip) : (s.setCore u).chip c = s.chip c := by
  cases c <;> rfl

/-! ### pushViolation -/

@[simp] theorem pushViolation_cfg (s : State) (v : Violation) :
    (s.pushViolation v).cfg = s.cfg := rfl

@[simp] theorem pushViolation_master (s : State) (v : Violation) :
    (s.pushViolation v).master = s.master := rfl

@[simp] theorem pushViolation_slave (s : State) (v : Violation) :
    (s.pushViolation v).slave = s.slave := rfl

@[simp] theorem pushViolation_summary (s : State) (v : Violation) :
    (s.pushViolation v).summary = s.summary := rfl

@[simp] theorem pushViolation_ignoreAll (s : State) (v : Violation) :
    (s.pushViolation v).ignoreAll = s.ignoreAll := rfl

@[simp] theorem pushViolation_violLog (s : State) (v : Violation) :
    (s.pushViolation v).violLog = s.violLog ++ [v] := rfl

@[simp] theorem pushViolation_inMap (s : State) (v : Violation) :
    (s.pushViolation v).inMap = s.inMap := rfl

@[simp] theorem pushViolation_outMap (s : State) (v : Violation) :
    (s.pushViolation v).outMap = s.outMap := rfl

@[simp] theorem pushViolation_core (s : State) (v : Violation) :
    (s.pushViolation v).core = s.core := rfl

@[simp] theorem pushViolation_events (s : State) (v : Violation) :
    (s.pushViolation v).events = s.events := rfl

@[simp] theorem pushViolation_deviceCalls (s : State) (v : Violation) :
    (s.pushViolation v).deviceCalls = s.deviceCalls := rfl

@[simp] theorem pushViolation_result (s : State) (v : Violation) :
    (s.pushViolation v).result = s.result := rfl

@[simp] theorem pushViolation_inbox (s : State) (v : Violation) :
    (s.pushViolation v).inbox = s.inbox := rfl

@[simp] theorem pushViolation_agentOps (s : State) (v : Violation) :
    (s.pushViolation v).agentOps = s.agentOps := rfl

@[simp] theorem pushViolation_deviceReplies (s : State) (v : Violation) :
    (s.pushViolation v).deviceReplies = s.deviceReplies := rfl

@[simp] theorem pushViolation_bodyResults (s : State) (v : Violation) :
    (s.pushViolation v).bodyResults = s.bodyResults := rfl

@[simp] theorem pushViolation_nextIps (s : State) (v : Violation) :
    (s.pushViolation v).nextIps = s.nextIps := rfl

@[simp] theorem pushViolation_freeCount (s : State) (v : Violation) :
    (s.pushViolation v).freeCount = s.freeCount := rfl

@[simp] theorem pushViolation_chip (s : State) (v : Violation) (c : Chip) : (s.pushViolation v).chip c = s.chip c := by
  cases c <;> rfl

/-! ### pushEvent -/

@[simp] theorem pushEvent_cfg (s : State) (e : CoreEvent) : (s.pushEvent e).cfg = s.cfg := rfl

@[simp] theorem pushEvent_master (s : State) (e : CoreEvent) :
    (s.pushEvent e).master = s.master := rfl

@[simp] theorem pushEvent_slave (s : State) (e : CoreEvent) : (s.pushEvent e).slave = s.slave := rfl

@[simp] theorem pushEvent_summary (s : State) (e : CoreEvent) :
    (s.pushEvent e).summary = s.summary := rfl

@[simp] theorem pushEvent_ignoreAll (s : State) (e : CoreEvent) :
    (s.pushEvent e).ignoreAll = s.ignoreAll := rfl

@[simp] theorem pushEvent_violLog (s : State) (e : CoreEvent) :
    (s.pushEvent e).violLog = s.violLog := rfl

@[simp] theorem pushEvent_inMap (s : State) (e : CoreEvent) : (s.pushEvent e).inMap = s.inMap := rfl

@[simp] theorem pushEvent_outMap (s : State) (e : CoreEvent) :
    (s.pushEvent e).outMap = s.outMap := rfl

@[simp] theorem pushEvent_core (s : State) (e : CoreEvent) : (s.pushEvent e).core = s.core := rfl

@[simp] theorem pushEvent_events (s : State) (e : CoreEvent) :
    (s.pushEvent e).events = s.events ++ [e] := rfl

@[simp] theorem pushEvent_deviceCalls (s : State) (e : CoreEvent) :
    (s.pushEvent e).deviceCalls = s.deviceCalls := rfl

@[simp] theorem pushEvent_result (s : State) (e : CoreEvent) :
    (s.pushEvent e).result = s.result := rfl

@[simp] theorem pushEvent_inbox (s : State) (e : CoreEvent) : (s.pushEvent e).inbox = s.inbox := rfl

@[simp] theorem pushEvent_agentOps (s : State) (e : CoreEvent) :
    (s.pushEvent e).agentOps = s.agentOps := rfl

@[simp] theorem pushEvent_deviceReplies (s : State) (e : CoreEvent) :
    (s.pushEvent e).deviceReplies = s.deviceReplies := rfl

@[simp] theorem pushEvent_bodyResults (s : State) (e : CoreEvent) :
    (s.pushEvent e).bodyResults = s.bodyResults := rfl

@[simp] theorem pushEvent_nextIps (s : State) (e : CoreEvent) :
    (s.pushEvent e).nextIps = s.nextIps := rfl

@[simp] theorem pushEvent_freeCount (s : State) (e : CoreEvent) :
    (s.pushEvent e).freeCount = s.freeCount := rfl

@[simp] theorem pushEvent_chip (s : State) (e : CoreEvent) (c : Chip) : (s.pushEvent e).chip c = s.chip c := by
  cases c <;> rfl

/-! ### pushCall -/

@[simp] theorem pushCall_cfg (s : State) (e : DeviceCall) : (s.pushCall e).cfg = s.cfg := rfl

@[simp] theorem pushCall_master (s : State) (e : DeviceCall) :
    (s.pushCall e).master = s.master := rfl

@[simp] theorem pushCall_slave (s : State) (e : DeviceCall) : (s.pushCall e).slave = s.slave := rfl

@[simp] theorem pushCall_summary (s : State) (e : DeviceCall) :
    (s.pushCall e).summary = s.summary := rfl

@[simp] theorem pushCall_ignoreAll (s : State) (e : DeviceCall) :
    (s.pushCall e).ignoreAll = s.ignoreAll := rfl

@[simp] theorem pushCall_violLog (s : State) (e : DeviceCall) :
    (s.pushCall e).violLog = s.violLog := rfl

@[simp] theorem pushCall_inMap (s : State) (e : DeviceCall) : (s.pushCall e).inMap = s.inMap := rfl

@[simp] theorem pushCall_outMap (s : State) (e : DeviceCall) :
    (s.pushCall e).outMap = s.outMap := rfl

@[simp] theorem pushCall_core (s : State) (e : DeviceCall) : (s.pushCall e).core = s.core := rfl

@[simp] theorem pushCall_events (s : State) (e : DeviceCall) :
    (s.pushCall e).events = s.events := rfl

@[simp] theorem pushCall_deviceCalls (s : State) (e : DeviceCall) :
    (s.pushCall e).deviceCalls = s.deviceCalls ++ [e] := rfl

@[simp] theorem pushCall_result (s : State) (e : DeviceCall) :
    (s.pushCall e).result = s.result := rfl

@[simp] theorem pushCall_inbox (s : State) (e : DeviceCall) : (s.pushCall e).inbox = s.inbox := rfl

@[simp] theorem pushCall_agentOps (s : State) (e : DeviceCall) :
    (s.pushCall e).agentOps = s.agentOps := rfl

@[simp] theorem pushCall_deviceReplies (s : State) (e : DeviceCall) :
    (s.pushCall e).deviceReplies = s.deviceReplies := rfl

@[simp] theorem pushCall_bodyResults (s : State) (e : DeviceCall) :
    (s.pushCall e).bodyResults = s.bodyResults := rfl

@[simp] theorem pushCall_nextIps (s : State) (e : DeviceCall) :
    (s.pushCall e).nextIps = s.nextIps := rfl

@[simp] theorem pushCall_freeCount (s : State) (e : DeviceCall) :
    (s.pushCall e).freeCount = s.freeCount := rfl

@[simp] theorem pushCall_chip (s : State) (e : DeviceCall) (c : Chip) : (s.pushCall e).chip c = s.chip c := by
  cases c <;> rfl

/-! ### recompute -/

@[simp] theorem recompute_cfg (s : State) : (recompute s).cfg = s.cfg := rfl

@[simp] theorem recompute_master (s : State) : (recompute s).master = s.master := rfl

@[simp] theorem recompute_slave (s : State) : (recompute s).slave = s.slave := rfl

@[simp] theorem recompute_summary (s : State) :
    (recompute s).summary = summaryOf s.master.request s.master.mask s.slave.request s.slave.mask := rfl

@[simp] theorem recompute_ignoreAll (s : State) : (recompute s).ignoreAll = s.ignoreAll := rfl

@[simp] theorem recompute_violLog (s : State) : (recompute s).violLog = s.violLog := rfl

@[simp] theorem recompute_inMap (s : State) : (recompute s).inMap = s.inMap := rfl

@[simp] theorem recompute_outMap (s : State) : (recompute s).outMap = s.outMap := rfl

@[simp] theorem recompute_core (s : State) : (recompute s).core = s.core := rfl

@[simp] theorem recompute_events (s : State) : (recompute s).events = s.events := rfl

@[simp] theorem recompute_deviceCalls (s : State) : (recompute s).deviceCalls = s.deviceCalls := rfl

@[simp] theorem recompute_result (s : State) : (recompute s).result = s.result := rfl

@[simp] theorem recompute_inbox (s : State) : (recompute s).inbox = s.inbox := rfl

@[simp] theorem recompute_agentOps (s : State) : (recompute s).agentOps = s.agentOps := rfl

@[simp] theorem recompute_deviceReplies (s : State) :
    (recompute s).deviceReplies = s.deviceReplies := rfl

@[simp] theorem recompute_bodyResults (s : State) : (recompute s).bodyResults = s.bodyResults := rfl

@[simp] theorem recompute_nextIps (s : State) : (recompute s).nextIps = s.nextIps := rfl

@[simp] theorem recompute_freeCount (s : State) : (recompute s).freeCount = s.freeCount := rfl

@[simp] theorem recompute_chip (s : State) (c : Chip) : (recompute s).chip c = s.chip c := by
  cases c <;> rfl

/-! ### setIgnoreAll -/

@[simp] theorem setIgnoreAll_cfg (b : Bool) (s : State) : (setIgnoreAll b s).cfg = s.cfg := rfl

@[simp] theorem setIgnoreAll_master (b : Bool) (s : State) :
    (setIgnoreAll b s).master = s.master := rfl

@[simp] theorem setIgnoreAll_slave (b : Bool) (s : State) :
    (setIgnoreAll b s).slave = s.slave := rfl

@[simp] theorem setIgnoreAll_summary (b : Bool) (s : State) :
    (setIgnoreAll b s).summary = s.summary := rfl

@[simp] theorem setIgnoreAll_ignoreAll (b : Bool) (s : State) :
    (setIgnoreAll b s).ignoreAll = b := rfl

@[simp] theorem setIgnoreAll_violLog (b : Bool) (s : State) :
    (setIgnoreAll b s).violLog = s.violLog := rfl

@[simp] theorem setIgnoreAll_inMap (b : Bool) (s : State) :
    (setIgnoreAll b s).inMap = s.inMap := rfl

@[simp] theorem setIgnoreAll_outMap (b : Bool) (s : State) :
    (setIgnoreAll b s).outMap = s.outMap := rfl

@[simp] theorem setIgnoreAll_core (b : Bool) (s : State) : (setIgnoreAll b s).core = s.core := rfl

@[simp] theorem setIgnoreAll_events (b : Bool) (s : State) :
    (setIgnoreAll b s).events = s.events := rfl

@[simp] theorem setIgnoreAll_deviceCalls (b : Bool) (s : State) :
    (setIgnoreAll b s).deviceCalls = s.deviceCalls := rfl

@[simp] theorem setIgnoreAll_result (b : Bool) (s : State) :
    (setIgnoreAll b s).result = s.result := rfl

@[simp] theorem setIgnoreAll_inbox (b : Bool) (s : State) :
    (setIgnoreAll b s).inbox = s.inbox := rfl

@[simp] theorem setIgnoreAll_agentOps (b : Bool) (s : State) :
    (setIgnoreAll b s).agentOps = s.agentOps := rfl

@[simp] theorem setIgnoreAll_deviceReplies (b : Bool) (s : State) :
    (setIgnoreAll b s).deviceReplies = s.deviceReplies := rfl

@[simp] theorem setIgnoreAll_bodyResults (b : Bool) (s : State) :
    (setIgnoreAll b s).bodyResults = s.bodyResults := rfl

@[simp] theorem setIgnoreAll_nextIps (b : Bool) (s : State) :
    (setIgnoreAll b s).nextIps = s.nextIps := rfl

@[simp] theorem setIgnoreAll_freeCount (b : Bool) (s : State) :
    (setIgnoreAll b s).freeCount = s.freeCount := rfl

@[simp] theorem setIgnoreAll_chip (b : Bool) (s : State) (c : Chip) : (setIgnoreAll b s).chip c = s.chip c := by
  cases c <;> rfl

/-! ### dropInput -/

@[simp] theorem dropInput_cfg (s : State) : (dropInput s).cfg = s.cfg := rfl

@[simp] theorem dropInput_master (s : State) : (dropInput s).master = s.master := rfl

@[simp] theorem dropInput_slave (s : State) : (dropInput s).slave = s.slave := rfl

@[simp] theorem dropInput_summary (s : State) : (dropInput s).summary = s.summary := rfl

@[simp] theorem dropInput_ignoreAll (s : State) : (dropInput s).ignoreAll = s.ignoreAll := rfl

@[simp] theorem dropInput_violLog (s : State) : (dropInput s).violLog = s.violLog := rfl

@[simp] theorem dropInput_inMap (s : State) : (dropInput s).inMap = s.inMap := rfl

@[simp] theorem dropInput_outMap (s : State) : (dropInput s).outMap = s.outMap := rfl

@[simp] theorem dropInput_core (s : State) : (dropInput s).core = s.core := rfl

@[simp] theorem dropInput_events (s : State) : (dropInput s).events = s.events := rfl

@[simp] theorem dropInput_deviceCalls (s : State) : (dropInput s).deviceCalls = s.deviceCalls := rfl

@[simp] theorem dropInput_result (s : State) : (dropInput s).result = s.result := rfl

@[simp] theorem dropInput_inbox (s : State) : (dropInput s).inbox = s.inbox.tail := rfl

@[simp] theorem dropInput_agentOps (s : State) : (dropInput s).agentOps = s.agentOps := rfl

@[simp] theorem dropInput_deviceReplies (s : State) :
    (dropInput s).deviceReplies = s.deviceReplies := rfl

@[simp] theorem dropInput_bodyResults (s : State) : (dropInput s).bodyResults = s.bodyResults := rfl

@[simp] theorem dropInput_nextIps (s : State) : (dropInput s).nextIps = s.nextIps := rfl

@[simp] theorem dropInput_freeCount (s : State) : (dropInput s).freeCount = s.freeCount := rfl

@[simp] theorem dropInput_chip (s : State) (c : Chip) : (dropInput s).chip c = s.chip c := by
  cases c <;> rfl

/-! ### enterPorts -/

@[simp] theorem enterPorts_cfg (p : Port) (d : Device) (dir : Dir) (s : State) :
    (enterPorts p d dir s).cfg = s.cfg := rfl

@[simp] theorem enterPorts_master (p : Port) (d : Device) (dir : Dir) (s : State) :
    (enterPorts p d dir s).master = s.master := rfl

@[simp] theorem enterPorts_slave (p : Port) (d : Device) (dir : Dir) (s : State) :
    (enterPorts p d dir s).slave = s.slave := rfl

@[simp] theorem enterPorts_summary (p : Port) (d : Device) (dir : Dir) (s : State) :
    (enterPorts p d dir s).summary = s.summary := rfl

@[simp] theorem enterPorts_ignoreAll (p : Port) (d : Device) (dir : Dir) (s : State) :
    (enterPorts p d dir s).ignoreAll = s.ignoreAll := rfl

@[simp] theorem enterPorts_violLog (p : Port) (d : Device) (dir : Dir) (s : State) :
    (enterPorts p d dir s).violLog = s.violLog := rfl

@[simp] theorem enterPorts_inMap (p : Port) (d : Device) (dir : Dir) (s : State) :
    (enterPorts p d dir s).inMap = if wantsIn dir then s.inMap.insert p.toNat d else s.inMap := rfl

@[simp] theorem enterPorts_outMap (p : Port) (d : Device) (dir : Dir) (s : State) :
    (enterPorts p d dir s).outMap = if wantsOut dir then s.outMap.insert p.toNat d else s.outMap := rfl

@[simp] theorem enterPorts_core (p : Port) (d : Device) (dir : Dir) (s : State) :
    (enterPorts p d dir s).core = s.core := rfl

@[simp] theorem enterPorts_events (p : Port) (d : Device) (dir : Dir) (s : State) :
    (enterPorts p d dir s).events = s.events := rfl

@[simp] theorem enterPorts_deviceCalls (p : Port) (d : Device) (dir : Dir) (s : State) :
    (enterPorts p d dir s).deviceCalls = s.deviceCalls := rfl

@[simp] theorem enterPorts_result (p : Port) (d : Device) (dir : Dir) (s : State) :
    (enterPorts p d dir s).result = s.result := rfl

@[simp] theorem enterPorts_inbox (p : Port) (d : Device) (dir : Dir) (s : State) :
    (enterPorts p d dir s).inbox = s.inbox := rfl

@[simp] theorem enterPorts_agentOps (p : Port) (d : Device) (dir : Dir) (s : State) :
    (enterPorts p d dir s).agentOps = s.agentOps := rfl

@[simp] theorem enterPorts_deviceReplies (p : Port) (d : Device) (dir : Dir) (s : State) :
    (enterPorts p d dir s).deviceReplies = s.deviceReplies := rfl

@[simp] theorem enterPorts_bodyResults (p : Port) (d : Device) (dir : Dir) (s : State) :
    (enterPorts p d dir s).bodyResults = s.bodyResults := rfl

@[simp] theorem enterPorts_nextIps (p : Port) (d : Device) (dir : Dir) (s : State) :
    (enterPorts p d dir s).nextIps = s.nextIps := rfl

@[simp] theorem enterPorts_freeCount (p : Port) (d : Device) (dir : Dir) (s : State) :
    (enterPorts p d dir s).freeCount = s.freeCount := rfl

@[simp] theorem enterPorts_chip (p : Port) (d : Device) (dir : Dir) (s : State) (c : Chip) : (enterPorts p d dir s).chip c = s.chip c := by
  cases c <;> rfl

/-! ### removePorts -/

@[simp] theorem removePorts_cfg (d : Device) (s : State) : (removePorts d s).cfg = s.cfg := rfl

@[simp] theorem removePorts_master (d : Device) (s : State) :
    (removePorts d s).master = s.master := rfl

@[simp] theorem removePorts_slave (d : Device) (s : State) :
    (removePorts d s).slave = s.slave := rfl

@[simp] theorem removePorts_summary (d : Device) (s : State) :
    (removePorts d s).summary = s.summary := rfl

@[simp] theorem removePorts_ignoreAll (d : Device) (s : State) :
    (removePorts d s).ignoreAll = s.ignoreAll := rfl

@[simp] theorem removePorts_violLog (d : Device) (s : State) :
    (removePorts d s).violLog = s.violLog := rfl

@[simp] theorem removePorts_inMap (d : Device) (s : State) :
    (removePorts d s).inMap = s.inMap.remove d := rfl

@[simp] theorem removePorts_outMap (d : Device) (s : State) :
    (removePorts d s).outMap = s.outMap.remove d := rfl

@[simp] theorem removePorts_core (d : Device) (s : State) : (removePorts d s).core = s.core := rfl

@[simp] theorem removePorts_events (d : Device) (s : State) :
    (removePorts d s).events = s.events := rfl

@[simp] theorem removePorts_deviceCalls (d : Device) (s : State) :
    (removePorts d s).deviceCalls = s.deviceCalls := rfl

@[simp] theorem removePorts_result (d : Device) (s : State) :
    (removePorts d s).result = s.result := rfl

@[simp] theorem removePorts_inbox (d : Device) (s : State) :
    (removePorts d s).inbox = s.inbox := rfl

@[simp] theorem removePorts_agentOps (d : Device) (s : State) :
    (removePorts d s).agentOps = s.agentOps := rfl

@[simp] theorem removePorts_deviceReplies (d : Device) (s : State) :
    (removePorts d s).deviceReplies = s.deviceReplies := rfl

@[simp] theorem removePorts_bodyResults (d : Device) (s : State) :
    (removePorts d s).bodyResults = s.bodyResults := rfl

@[simp] theorem removePorts_nextIps (d : Device) (s : State) :
    (removePorts d s).nextIps = s.nextIps := rfl

@[simp] theorem removePorts_freeCount (d : Device) (s : State) :
    (removePorts d s).freeCount = s.freeCount := rfl

@[simp] theorem removePorts_chip (d : Device) (s : State) (c : Chip) : (removePorts d s).chip c = s.chip c := by
  cases c <;> rfl

end Sys2Proof.Machine
end

