-- ==== Sys2Proof/Laws/Words.lean ====
section
/-! SUPPORT. What the operand operations do, bit by bit. -/

namespace Sys2Proof.Machine

/-- Setting a bit changes that bit only. -/
theorem setBit_getLsbD (v : Byte) (i k : Nat) :
    (setBit v i).getLsbD k = (v.getLsbD k || (decide (k < 8) && decide (k = i))) := by
  simp only [setBit, BitVec.getLsbD_or, BitVec.getLsbD_shiftLeft, BitVec.getLsbD_one]
  by_cases h : k = i
  · subst h; simp
  · by_cases h8 : k < 8
    · have : (decide (k < i) || decide (i ≤ k) && decide (k - i ≠ 0)) = true := by
        rcases Nat.lt_trichotomy k i with h1 | h1 | h1
        · simp [h1]
        · exact absurd h1 h
        · have : k - i ≠ 0 := by omega
          simp [this]; omega
      simp only [h, decide_false, Bool.and_false, Bool.or_false]
      by_cases hlt : k < i
      · simp [hlt]
      · have : k - i ≠ 0 := by omega
        simp [this]
    · simp [h8]

/-- Clearing a bit changes that bit only. -/
theorem clearBit_getLsbD (v : Byte) (i k : Nat) :
    (clearBit v i).getLsbD k = (v.getLsbD k && !decide (k = i)) := by
  simp only [clearBit, BitVec.getLsbD_and, BitVec.getLsbD_not, BitVec.getLsbD_shiftLeft,
    BitVec.getLsbD_one]
  by_cases h8 : k < 8
  · by_cases h : k = i
    · subst h; simp
    · by_cases hlt : k < i
      · simp [h, hlt, h8]
      · have : k - i ≠ 0 := by omega
        simp [h, this, h8]
  · have : v.getLsbD k = false := BitVec.getLsbD_of_ge v k (by omega)
    simp [this]

theorem setBit_getElem (v : Byte) (i k : Nat) (hk : k < 8) :
    (setBit v i)[k] = (v[k] || decide (k = i)) := by
  rw [← BitVec.getLsbD_eq_getElem, setBit_getLsbD]
  simp [hk]

theorem clearBit_getElem (v : Byte) (i k : Nat) (hk : k < 8) :
    (clearBit v i)[k] = (v[k] && !decide (k = i)) := by
  rw [← BitVec.getLsbD_eq_getElem, clearBit_getLsbD]
  simp [hk]

/-- The low byte of the summary is the master's pending and unmasked lines. -/
theorem summaryOf_low (a b c d : Byte) {n : Nat} (h : n < 8) :
    (summaryOf a b c d).getLsbD n = (a.getLsbD n && !b.getLsbD n) := by
  have h16 : n < 16 := by omega
  simp [summaryOf, h, h16]

/-- The high byte of the summary is the slave's pending and unmasked lines. -/
theorem summaryOf_high (a b c d : Byte) {n : Nat} (h : n < 8) :
    (summaryOf a b c d).getLsbD (n + 8) = (c.getLsbD n && !d.getLsbD n) := by
  have h3 : n + 8 < 16 := by omega
  simp [summaryOf, h3, h]

/-- The lowest set bit, characterized. -/
theorem lowestSet_eq_some {w : Nat} (x : BitVec w) (n : Nat) :
    lowestSet x = some n ↔ n < w ∧ x.getLsbD n = true ∧ ∀ m < n, x.getLsbD m = false := by
  simp only [lowestSet, List.find?_range_eq_some, List.mem_range]
  constructor
  · rintro ⟨h1, h2, h3⟩
    exact ⟨h2, h1, fun m hm => by simpa using h3 m hm⟩
  · rintro ⟨h1, h2, h3⟩
    exact ⟨h2, h1, fun m hm => by simpa using h3 m hm⟩

/-- No bit is set exactly in 0. -/
theorem lowestSet_eq_none {w : Nat} (x : BitVec w) : lowestSet x = none ↔ x = 0 := by
  simp only [lowestSet, List.find?_eq_none, List.mem_range]
  constructor
  · intro h
    apply BitVec.eq_of_getLsbD_eq
    intro i hi
    simpa using h i hi
  · rintro rfl i _
    simp

/-- The word without master line 2. -/
theorem drop_cascade_getLsbD (w : BitVec 16) (n : Nat) :
    (w &&& 0xFFFB).getLsbD n = (w.getLsbD n && !decide (n = 2)) := by
  rw [BitVec.getLsbD_and]
  by_cases h : n < 16
  · congr 1
    revert n
    decide
  · simp [BitVec.getLsbD_of_ge w n (by omega)]

/-- `Encode` picks the lowest-numbered line other than master line 2. -/
theorem encodeLine_eq_some (w : BitVec 16) (n : Nat) :
    encodeLine w = some n ↔
      n < 16 ∧ n ≠ 2 ∧ w.getLsbD n = true ∧ ∀ m < n, m ≠ 2 → w.getLsbD m = false := by
  simp only [encodeLine, lowestSet_eq_some, drop_cascade_getLsbD]
  constructor
  · rintro ⟨h1, h2, h3⟩
    simp only [Bool.and_eq_true, Bool.not_eq_true', decide_eq_false_iff_not] at h2
    refine ⟨h1, h2.2, h2.1, fun m hm h => ?_⟩
    simpa [h] using h3 m hm
  · rintro ⟨h1, h2, h3, h4⟩
    refine ⟨h1, by simp [h2, h3], fun m hm => ?_⟩
    by_cases h : m = 2
    · simp [h]
    · simp [h4 m hm h]

/-- `Encode` picks nothing exactly when no line other than master line 2 is set. -/
theorem encodeLine_eq_none (w : BitVec 16) : encodeLine w = none ↔ w &&& 0xFFFB = 0 :=
  lowestSet_eq_none _

/-- `deliverable()` is the condition under which `Encode` picks a line. -/
theorem deliverableOf_eq_isSome (w : BitVec 16) : deliverableOf w = (encodeLine w).isSome := by
  rw [Bool.eq_iff_iff, Option.isSome_iff_ne_none, Ne, encodeLine_eq_none]
  exact bne_iff_ne

end Sys2Proof.Machine
end

