-- ==== Sys2Proof/Laws/Agents.lean ====
section
/-! SUPPORT. What other agents can do between two pieces of an operation of the core: request bits, the
summary and the ignore switch, and nothing else. -/

namespace Sys2Proof.Machine

/-- Nothing but what other agents may write has changed. -/
def OnlyAgents (s t : State) : Prop :=
  t = { s with
    master := { s.master with request := t.master.request }
    slave := { s.slave with request := t.slave.request }
    summary := t.summary, ignoreAll := t.ignoreAll, agentOps := t.agentOps }

theorem OnlyAgents.refl (s : State) : OnlyAgents s s := rfl

theorem OnlyAgents.trans {s t u : State} (h : OnlyAgents s t) (h' : OnlyAgents t u) : OnlyAgents s u := by
  unfold OnlyAgents at *
  rw [h] at h'
  exact h'

/-- `Recompute()` makes the summary exact. -/
theorem recompute_exact (s : State) : SummaryExact (recompute s) := rfl

/-- A state whose summary is exact does not change by `Recompute()`. -/
theorem recompute_of_exact {s : State} (h : SummaryExact s) : recompute s = s := by
  unfold SummaryExact at h
  unfold recompute
  rw [← h]

theorem raiseLine_exact (n : Nat) (s : State) : SummaryExact (raiseLine n s) := by
  unfold raiseLine
  split <;> rfl

theorem lowerLine_exact (n : Nat) (s : State) : SummaryExact (lowerLine n s) := by
  unfold lowerLine
  split <;> rfl

theorem raiseLine_only (n : Nat) (s : State) : OnlyAgents s (raiseLine n s) := by
  unfold raiseLine
  split <;> rfl

theorem lowerLine_only (n : Nat) (s : State) : OnlyAgents s (lowerLine n s) := by
  unfold lowerLine lowerCascade
  split
  · rfl
  · split <;> rfl

theorem agentAct_only (s : State) (a : AgentOp) : OnlyAgents s (agentAct s a) := by
  cases a with
  | raise n => exact raiseLine_only _ _
  | lower n => exact lowerLine_only _ _
  | raiseLine k =>
    simp only [agentAct]
    split
    · exact raiseLine_only _ _
    · rfl
  | lowerLine k =>
    simp only [agentAct]
    split
    · exact lowerLine_only _ _
    · rfl
  | ignore b => rfl

theorem agentAct_exact {s : State} (h : SummaryExact s) (a : AgentOp) : SummaryExact (agentAct s a) := by
  cases a with
  | raise n => exact raiseLine_exact _ _
  | lower n => exact lowerLine_exact _ _
  | raiseLine k =>
    simp only [agentAct]
    split
    · exact raiseLine_exact _ _
    · exact h
  | lowerLine k =>
    simp only [agentAct]
    split
    · exact lowerLine_exact _ _
    · exact h
  | ignore b => exact h

theorem foldl_agentAct_only (acts : List AgentOp) (s : State) : OnlyAgents s (acts.foldl agentAct s) := by
  induction acts generalizing s with
  | nil => rfl
  | cons a rest ih => exact (agentAct_only s a).trans (ih _)

theorem foldl_agentAct_exact (acts : List AgentOp) {s : State} (h : SummaryExact s) :
    SummaryExact (acts.foldl agentAct s) := by
  induction acts generalizing s with
  | nil => exact h
  | cons a rest ih => exact ih (agentAct_exact h a)

/-- At a point nothing is scheduled for, nothing happens. -/
theorem point_of_nil {s : State} (h : s.agentOps = []) : point s = s := by
  unfold point
  rw [h]

theorem point_only (s : State) : OnlyAgents s (point s) := by
  unfold point
  split
  · rfl
  · exact OnlyAgents.trans (t := { s with agentOps := _ }) rfl (foldl_agentAct_only _ _)

theorem point_exact {s : State} (h : SummaryExact s) : SummaryExact (point s) := by
  unfold point
  split
  · exact h
  · exact foldl_agentAct_exact _ h

/-- The fields that no other agent writes. -/
theorem OnlyAgents.fields {s t : State} (h : OnlyAgents s t) :
    t.cfg = s.cfg ∧ t.violLog = s.violLog ∧ t.inMap = s.inMap ∧ t.outMap = s.outMap ∧ t.core = s.core
      ∧ t.events = s.events ∧ t.deviceCalls = s.deviceCalls ∧ t.result = s.result ∧ t.inbox = s.inbox
      ∧ t.deviceReplies = s.deviceReplies ∧ t.bodyResults = s.bodyResults ∧ t.nextIps = s.nextIps
      ∧ t.freeCount = s.freeCount := by
  rw [h]
  exact ⟨rfl, rfl, rfl, rfl, rfl, rfl, rfl, rfl, rfl, rfl, rfl, rfl, rfl⟩

@[simp] theorem point_core (s : State) : (point s).core = s.core := (point_only s).fields.2.2.2.2.1

@[simp] theorem point_cfg (s : State) : (point s).cfg = s.cfg := (point_only s).fields.1

@[simp] theorem point_events (s : State) : (point s).events = s.events :=
  (point_only s).fields.2.2.2.2.2.1

@[simp] theorem point_result (s : State) : (point s).result = s.result :=
  (point_only s).fields.2.2.2.2.2.2.2.1

@[simp] theorem point_outMap (s : State) : (point s).outMap = s.outMap := (point_only s).fields.2.2.2.1

@[simp] theorem point_inMap (s : State) : (point s).inMap = s.inMap := (point_only s).fields.2.2.1

/-- No other agent reads or writes the result. -/
theorem foldl_agentAct_setResult (acts : List AgentOp) (s : State) (r : Result) :
    acts.foldl agentAct (s.setResult r) = (acts.foldl agentAct s).setResult r := by
  have raise (s : State) (n : Nat) : raiseLine n (s.setResult r) = (raiseLine n s).setResult r := by
    unfold raiseLine
    split <;> rfl
  have lower (s : State) (n : Nat) : lowerLine n (s.setResult r) = (lowerLine n s).setResult r := by
    unfold lowerLine lowerCascade
    split
    · rfl
    · simp only [show (clearRequest .S (n - 8) (s.setResult r)).slave.request
        = (clearRequest .S (n - 8) s).slave.request from rfl]
      split <;> rfl
  induction acts generalizing s with
  | nil => rfl
  | cons a rest ih =>
    rw [List.foldl_cons, List.foldl_cons, ← ih]
    congr 1
    cases a with
    | raise n => exact raise s _
    | lower n => exact lower s _
    | raiseLine k =>
      simp only [agentAct, show boundLine k (s.setResult r) = boundLine k s from rfl]
      split
      · exact raise s _
      · rfl
    | lowerLine k =>
      simp only [agentAct, show boundLine k (s.setResult r) = boundLine k s from rfl]
      split
      · exact lower s _
      · rfl
    | ignore b => rfl

theorem point_setResult (s : State) (r : Result) : point (s.setResult r) = (point s).setResult r := by
  unfold point
  simp only [show (s.setResult r).agentOps = s.agentOps from rfl]
  split
  · rfl
  · exact foldl_agentAct_setResult _ { s with agentOps := _ } _

/-- No other agent writes a chip field but `request`. -/
theorem OnlyAgents.chip {s t : State} (h : OnlyAgents s t) (c : Chip) :
    t.chip c = { s.chip c with request := (t.chip c).request } := by
  rw [h]
  cases c <;> rfl

end Sys2Proof.Machine
end

