-- ==== Sys2Proof/Laws/Bytes.lean ====
section
/-! SUPPORT. Words as their bytes: what taking apart and putting together give back. -/

namespace Sys2Proof

theorem append_low {m n : Nat} (x : BitVec m) (y : BitVec n) : (x ++ y).extractLsb' 0 n = y := by
  ext i h
  simp [BitVec.getLsbD_append, h]

/-- Bits above the lower part are those of the upper part. -/
theorem append_skip {m n : Nat} (x : BitVec m) (y : BitVec n) (k w : Nat) :
    (x ++ y).extractLsb' (n + k) w = x.extractLsb' k w := by
  ext i h
  have h1 : ¬ n + k + i < n := by omega
  have h2 : n + k + i - n = k + i := by omega
  simp [BitVec.getLsbD_append, h1, h2]

theorem append_high {m n : Nat} (x : BitVec m) (y : BitVec n) : (x ++ y).extractLsb' n m = x := by
  ext i h
  simp [BitVec.getLsbD_append, h]

/-- Bits within the lower part are those of the lower part. -/
theorem append_within {m n : Nat} (x : BitVec m) (y : BitVec n) (k w : Nat) (h : k + w ≤ n) :
    (x ++ y).extractLsb' k w = y.extractLsb' k w := by
  ext i hi
  have h1 : k + i < n := by omega
  simp [BitVec.getLsbD_append, h1]

/-- Two neighbouring fields are one. -/
theorem join_fields {w : Nat} (x : BitVec w) (k m n : Nat) :
    x.extractLsb' (k + n) m ++ x.extractLsb' k n = x.extractLsb' k (m + n) := by
  ext i h
  simp only [BitVec.getElem_append]
  split
  · simp
  · have : k + n + (i - n) = k + i := by omega
    simp [this]

theorem all_bits {w : Nat} (x : BitVec w) : x.extractLsb' 0 w = x := by
  ext i
  simp

theorem append_assoc_bytes (b3 b2 b1 b0 : Byte) :
    ((b3 ++ b2) ++ (b1 ++ b0) : BitVec 32) = b3 ++ b2 ++ b1 ++ b0 :=
  (BitVec.append_assoc (x₁ := b3 ++ b2) (x₂ := b1) (x₃ := b0)).symm

theorem bytes16_append (b1 b0 : Byte) : bytes16 (b1 ++ b0) = [b0, b1] := by
  rw [bytes16, show (b1 ++ b0 : BitVec 16).extractLsb' 0 8 = b0 from append_low b1 b0,
    show (b1 ++ b0 : BitVec 16).extractLsb' 8 8 = b1 from append_high b1 b0]

theorem bytes24_append (b2 b1 b0 : Byte) : bytes24 (b2 ++ b1 ++ b0) = [b0, b1, b2] := by
  rw [bytes24, show (b2 ++ b1 ++ b0 : BitVec 24).extractLsb' 0 8 = b0 from append_low (b2 ++ b1) b0,
    show (b2 ++ b1 ++ b0 : BitVec 24).extractLsb' 8 8 = b1 from
      (append_skip (b2 ++ b1) b0 0 8).trans (append_low b2 b1),
    show (b2 ++ b1 ++ b0 : BitVec 24).extractLsb' 16 8 = b2 from
      (append_skip (b2 ++ b1) b0 8 8).trans (append_high b2 b1)]

theorem bytes32_append (b3 b2 b1 b0 : Byte) : bytes32 (b3 ++ b2 ++ b1 ++ b0) = [b0, b1, b2, b3] := by
  rw [bytes32, show (b3 ++ b2 ++ b1 ++ b0 : BitVec 32).extractLsb' 0 8 = b0 from
      append_low (b3 ++ b2 ++ b1) b0,
    show (b3 ++ b2 ++ b1 ++ b0 : BitVec 32).extractLsb' 8 8 = b1 from
      (append_skip (b3 ++ b2 ++ b1) b0 0 8).trans (append_low (b3 ++ b2) b1),
    show (b3 ++ b2 ++ b1 ++ b0 : BitVec 32).extractLsb' 16 8 = b2 from
      (append_skip (b3 ++ b2 ++ b1) b0 8 8).trans
        ((append_skip (b3 ++ b2) b1 0 8).trans (append_low b3 b2)),
    show (b3 ++ b2 ++ b1 ++ b0 : BitVec 32).extractLsb' 24 8 = b3 from
      (append_skip (b3 ++ b2 ++ b1) b0 16 8).trans
        ((append_skip (b3 ++ b2) b1 8 8).trans (append_high b3 b2))]

theorem join16 (w : BitVec 16) : w.extractLsb' 8 8 ++ w.extractLsb' 0 8 = w :=
  (join_fields w 0 8 8).trans (all_bits w)

theorem join24 (w : BitVec 24) : w.extractLsb' 16 8 ++ w.extractLsb' 8 8 ++ w.extractLsb' 0 8 = w := by
  rw [show w.extractLsb' 16 8 ++ w.extractLsb' 8 8 = w.extractLsb' 8 16 from join_fields w 8 8 8]
  exact (join_fields w 0 16 8).trans (all_bits w)

theorem join32 (w : BitVec 32) :
    w.extractLsb' 24 8 ++ w.extractLsb' 16 8 ++ w.extractLsb' 8 8 ++ w.extractLsb' 0 8 = w := by
  rw [show w.extractLsb' 24 8 ++ w.extractLsb' 16 8 = w.extractLsb' 16 16 from join_fields w 16 8 8,
    show w.extractLsb' 16 16 ++ w.extractLsb' 8 8 = w.extractLsb' 8 24 from join_fields w 8 16 8]
  exact (join_fields w 0 24 8).trans (all_bits w)

namespace Machine

theorem lowByte_word16 (b0 b1 : Byte) : lowByte (b1 ++ b0) = b0 := append_low b1 b0

theorem highByte_word16 (b0 b1 : Byte) : highByte (b1 ++ b0) = b1 := append_high b1 b0

theorem lowHalf_bytes (b3 b2 b1 b0 : Byte) : lowHalf (b3 ++ b2 ++ b1 ++ b0) = b1 ++ b0 := by
  rw [← append_assoc_bytes]
  exact append_low (b3 ++ b2) (b1 ++ b0)

theorem highHalf_bytes (b3 b2 b1 b0 : Byte) : highHalf (b3 ++ b2 ++ b1 ++ b0) = b3 ++ b2 := by
  rw [← append_assoc_bytes]
  exact append_high (b3 ++ b2) (b1 ++ b0)

/-- The byte order of a composed access: a double word of its four bytes. -/
theorem word32_bytes (b3 b2 b1 b0 : Byte) :
    word32 (word16 b0 b1) (word16 b2 b3) = b3 ++ b2 ++ b1 ++ b0 := append_assoc_bytes b3 b2 b1 b0

theorem lowByte_lowHalf (w : BitVec 32) : lowByte (lowHalf w) = w.extractLsb' 0 8 := by
  ext i h
  simp [lowByte, lowHalf]

theorem highByte_lowHalf (w : BitVec 32) : highByte (lowHalf w) = w.extractLsb' 8 8 := by
  ext i h
  simp [highByte, lowHalf]

theorem lowByte_highHalf (w : BitVec 32) : lowByte (highHalf w) = w.extractLsb' 16 8 := by
  ext i h
  have : i < 16 := by omega
  simp [lowByte, highHalf, this]

theorem highByte_highHalf (w : BitVec 32) : highByte (highHalf w) = w.extractLsb' 24 8 := by
  ext i h
  have h1 : 16 + (8 + i) = 24 + i := by omega
  have h2 : 8 + i < 16 := by omega
  simp [highByte, highHalf, h1, h2]

/-- Ports alternate between a chip's command and data port. -/
theorem isDataPort_nextPort (p : Port) : isDataPort (nextPort p) = !isDataPort p := by
  simp only [isDataPort, nextPort, BitVec.getLsbD, Nat.testBit_zero, BitVec.toNat_add]
  rcases Nat.mod_two_eq_zero_or_one p.toNat with h | h
  · have : (p.toNat + 1) % 2 = 1 := by omega
    simp [h, this]
  · have : (p.toNat + 1) % 2 = 0 := by omega
    simp [h, this]

theorem isDataPort_nextWordPort (p : Port) : isDataPort (nextWordPort p) = isDataPort p := by
  simp only [isDataPort, nextWordPort, BitVec.getLsbD, Nat.testBit_zero, BitVec.toNat_add]
  have : (p.toNat + (2 : Port).toNat) % 2 ^ 16 % 2 = p.toNat % 2 := by simp
  rw [this]

end Machine

end Sys2Proof
end

