-- ==== Sys2Proof/Laws/Delivery.lean ====
section
/-! SUPPORT. `service()` and the boundary: when they act, and what they leave alone. -/

namespace Sys2Proof.Machine

/-- The three parts of the poll. -/
theorem eligible_iff (s : State) :
    eligible s = true ↔
      s.core.intEnable = true ∧ deliverableOf s.summary = true ∧ s.ignoreAll = false := by
  simp [eligible, and_assoc]

/-- `service()` delivers the selected line. -/
theorem serviceStep_selected {s : State} {n : Nat} (hi : s.ignoreAll = false)
    (h : encodeLine s.summary = some n) : serviceStep s = (some (deliver n s).1, (deliver n s).2) := by
  simp only [serviceStep, hi, h, Bool.false_eq_true, if_false]

/-- Without a selected line, or under the switch, `service()` does nothing. -/
theorem serviceStep_idle {s : State} (h : s.ignoreAll = true ∨ encodeLine s.summary = none) :
    serviceStep s = (none, s) := by
  unfold serviceStep
  rcases h with h | h
  · rw [h]; rfl
  · rw [h]; split <;> rfl

/-- What a delivery leaves alone. -/
theorem deliver_frame (n : Nat) (s : State) :
    (deliver n s).2 = { s with
      master := (deliver n s).2.master, slave := (deliver n s).2.slave
      summary := (deliver n s).2.summary, events := (deliver n s).2.events
      core := { s.core with runState := .running } } := by
  unfold deliver
  split <;> rfl

/-- What `service()` leaves alone. -/
theorem serviceStep_frame (s : State) :
    (serviceStep s).2 = { s with
      master := (serviceStep s).2.master, slave := (serviceStep s).2.slave
      summary := (serviceStep s).2.summary, events := (serviceStep s).2.events
      core := (serviceStep s).2.core } := by
  unfold serviceStep
  split
  · rfl
  · split
    · rfl
    · rw [deliver_frame]

/-- At a boundary with no other agent acting, `service()` runs exactly when the poll holds. -/
theorem boundary_alone {s : State} (h : s.agentOps = []) :
    boundary s = if eligible s then (serviceStep s).2 else s := by
  simp only [boundary, point_of_nil h]

/-- REP has written `ip`, and passing it changes nothing. -/
theorem passInstruction_repeat {i : Instr} (h : i.isRepeat = true) (s : State) :
    passInstruction i s = s := by
  simp only [passInstruction, h, if_true]

/-- Any other instruction leaves `ip` at the next address that the outside supplied. -/
theorem passInstruction_input {i : Instr} (h : i.isRepeat = false) {s : State} {a : BitVec 32}
    {later : List (BitVec 32)} (hn : s.nextIps = a :: later) :
    passInstruction i s = { s with core := { s.core with ip := a }, nextIps := later } := by
  simp only [passInstruction, h, takeNextIp, hn, Bool.false_eq_true, if_false]
  rfl

/-- Passing an instruction writes no signal of the core but `ip`. -/
theorem passInstruction_core (i : Instr) (s : State) :
    (passInstruction i s).core = { s.core with ip := (passInstruction i s).core.ip } := by
  unfold passInstruction takeNextIp
  split
  · rfl
  · split <;> rfl

end Sys2Proof.Machine
end

