-- ==== Sys2Proof/Laws/Frames.lean ====
section
/-! SUPPORT. The frame format: selectors and operand fields, encoded and decoded. -/

namespace Sys2Proof

/-- A selector is read back from its byte. -/
theorem ofByte_code (sel : Selector) : Selector.ofByte sel.code = some sel := by
  cases sel <;> rfl

/-- A byte that names a selector is that selector's byte. -/
theorem code_of_ofByte {b : Byte} {sel : Selector} (h : Selector.ofByte b = some sel) : sel.code = b := by
  obtain ⟨hlt, rfl⟩ := List.getElem?_eq_some_iff.1 h
  have key : ∀ i : Fin 27, (Selector.all[i.1]'i.2).code = BitVec.ofNat 8 i.1 := by decide
  exact (key ⟨b.toNat, hlt⟩).trans (by simp)

/-- A frame that starts with a selector's byte is read by that selector. -/
theorem decode_code (ph : Phases) (sel : Selector) (ops : List Byte) :
    decode ph (sel.code :: ops) = decodeOperands ph sel ops := by
  simp only [decode, ofByte_code]

/-- A device handle is read back from its two bytes. -/
theorem decodeDevice_bytes (d : Device) :
    ∃ kind k, deviceBytes d = [kind, k] ∧ decodeDevice kind k = .ok d := by
  cases d with
  | chip c => cases c <;> exact ⟨_, _, rfl, rfl⟩
  | peripheral k => exact ⟨_, _, rfl, rfl⟩

/-- Two bytes that are a device handle are that handle's bytes. -/
theorem deviceBytes_of_decode {kind k : Byte} {d : Device} (h : decodeDevice kind k = .ok d) :
    deviceBytes d = [kind, k] := by
  unfold decodeDevice at h
  split at h
  case isTrue h0 => cases h; rw [h0]; rfl
  split at h
  case isTrue h0 => cases h; rw [h0.1, h0.2]; rfl
  split at h
  case isTrue h0 => cases h; rw [h0.1, h0.2]; rfl
  · cases h

theorem decodeDir_bits (d : Dir) : decodeDir (dirBits d) = .ok d := by cases d <;> rfl

theorem decodeRepMode_bits (r : RepMode) : decodeRepMode (repBits r) = .ok r := by cases r <;> rfl

theorem decodeKind_bits (k : StringKind) : decodeKind (kindBits k) = .ok k := by cases k <;> rfl

theorem decodeWidth_bits (w : Width) : decodeWidth (widthBits w) = .ok w := by cases w <;> rfl

theorem dirBits_of_decode {b : BitVec 2} {d : Dir} (h : decodeDir b = .ok d) : dirBits d = b := by
  unfold decodeDir at h
  repeat' split at h
  all_goals first | (cases h; simp_all [dirBits]) | cases h

theorem repBits_of_decode {b : BitVec 2} {r : RepMode} (h : decodeRepMode b = .ok r) : repBits r = b := by
  unfold decodeRepMode at h
  repeat' split at h
  all_goals first | (cases h; simp_all [repBits]) | cases h

theorem kindBits_of_decode {b : BitVec 3} {k : StringKind} (h : decodeKind b = .ok k) : kindBits k = b := by
  unfold decodeKind at h
  repeat' split at h
  all_goals first | (cases h; simp_all [kindBits]) | cases h

theorem widthBits_of_decode {b : BitVec 2} {w : Width} (h : decodeWidth b = .ok w) : widthBits w = b := by
  unfold decodeWidth at h
  repeat' split at h
  all_goals first | (cases h; simp_all [widthBits]) | cases h

/-- The fields of the operand word of REGISTER. -/
theorem registerWord_fields (p : Port) (dir : Dir) :
    (registerWord p dir).extractLsb' 0 2 = dirBits dir ∧ (registerWord p dir).extractLsb' 2 16 = p
      ∧ (registerWord p dir).extractLsb' 18 6 = 0 :=
  ⟨append_low (0#6 ++ p) (dirBits dir),
    (append_skip (0#6 ++ p) (dirBits dir) 0 16).trans (append_low (0#6) p),
    (append_skip (0#6 ++ p) (dirBits dir) 16 6).trans (append_high (0#6) p)⟩

/-- The fields of the operand word of REP. -/
theorem repWord_fields (j : RepInputs) :
    (repWord j).extractLsb' 9 7 = 0 ∧ (repWord j).extractLsb' 7 2 = repBits j.rep
      ∧ (repWord j).extractLsb' 4 3 = kindBits j.kind ∧ (repWord j).extractLsb' 2 2 = widthBits j.width
      ∧ (repWord j).extractLsb' 1 1 = addrBit j.addrSize
      ∧ (repWord j).extractLsb' 0 1 = directionBit j.dir := by
  have key : ∀ rep kind width addrSize dir,
      (fun j : RepInputs => (repWord j).extractLsb' 9 7 = 0 ∧ (repWord j).extractLsb' 7 2 = repBits j.rep
      ∧ (repWord j).extractLsb' 4 3 = kindBits j.kind ∧ (repWord j).extractLsb' 2 2 = widthBits j.width
      ∧ (repWord j).extractLsb' 1 1 = addrBit j.addrSize
      ∧ (repWord j).extractLsb' 0 1 = directionBit j.dir) ⟨rep, kind, width, addrSize, dir, 0, 0⟩ := by
    intro rep kind width addrSize dir
    cases rep <;> cases kind <;> cases width <;> cases addrSize <;> cases dir <;> decide
  exact key j.rep j.kind j.width j.addrSize j.dir

end Sys2Proof
end

