-- ==== Sys2Proof/Laws/PerInstr.lean ====
section
/-! SUPPORT. A statement made for each constructor: an instruction's frame starts with the byte of one
selector, by which the decoder reads it, and is two to eleven bytes long. -/

namespace Sys2Proof.Laws.Framing

/-- The frame of `i` starts with a selector's byte and has at most eleven bytes. -/
def Statement (i : Instr) : Prop :=
  ∃ sel ops, encode i = sel.code :: ops ∧ Selector.ofByte sel.code = some sel
    ∧ 1 ≤ ops.length ∧ ops.length ≤ 10

/-- A frame of known bytes. -/
theorem of_bytes {i : Instr} (sel : Selector) (ops : List Byte) (h : encode i = sel.code :: ops)
    (hl : decide (1 ≤ ops.length ∧ ops.length ≤ 10) = true) : Statement i :=
  ⟨sel, ops, h, ofByte_code sel, of_decide_eq_true hl⟩

/-- A device handle takes two bytes. -/
theorem deviceBytes_length (d : Device) : (deviceBytes d).length = 2 := by
  cases d with
  | chip c => cases c <;> rfl
  | peripheral k => rfl

/-- So does what a reset acts on. -/
theorem scopeBytes_length (t : ResetScope) : (scopeBytes t).length = 2 := by
  cases t with
  | machine => rfl
  | device d => exact deviceBytes_length d

theorem icw1 (c v) : Statement (.icw1 c v) := of_bytes (commandSelector c) [v] rfl rfl
theorem ocw3Poll (c v) : Statement (.ocw3Poll c v) :=
  of_bytes (commandSelector c) [v] rfl rfl
theorem ocw3Bit7 (c v) : Statement (.ocw3Bit7 c v) :=
  of_bytes (commandSelector c) [v] rfl rfl
theorem ocw3 (c esmm smm rr ris) : Statement (.ocw3 c esmm smm rr ris) :=
  of_bytes (commandSelector c) [commandByte (.ocw3 c esmm smm rr ris)] rfl rfl
theorem eoi (c) : Statement (.eoi c) := of_bytes (commandSelector c) [0x20] rfl rfl
theorem seoi (c l) : Statement (.seoi c l) :=
  of_bytes (commandSelector c) [commandByte (.seoi c l)] rfl rfl
theorem ocw2Unrecognized (c v) : Statement (.ocw2Unrecognized c v) :=
  of_bytes (commandSelector c) [v] rfl rfl
theorem icw2 (c base dropped) : Statement (.icw2 c base dropped) :=
  of_bytes (dataSelector c) [base ++ dropped] rfl rfl
theorem icw4 (c v) : Statement (.icw4 c v) := of_bytes (dataSelector c) [v] rfl rfl
theorem ocw1 (c m) : Statement (.ocw1 c m) := of_bytes (dataSelector c) [m] rfl rfl
theorem readStatus (c) : Statement (.readStatus c) :=
  of_bytes (readSelector c) [0] rfl rfl
theorem readMask (c) : Statement (.readMask c) := of_bytes (readSelector c) [1] rfl rfl
theorem raise (n) : Statement (.raise n) := of_bytes .raise [n] rfl rfl
theorem lower (n) : Statement (.lower n) := of_bytes .lower [n] rfl rfl
theorem query (n) : Statement (.query n) := of_bytes .query [n] rfl rfl
theorem anyPending : Statement .anyPending := of_bytes .anyPending [1] rfl rfl
theorem deliverable : Statement .deliverable := of_bytes .deliverable [1] rfl rfl
theorem recompute : Statement .recompute := of_bytes .recompute [1] rfl rfl
theorem service : Statement .service := of_bytes .service [1] rfl rfl
theorem encode (w) : Statement (.encode w) := of_bytes .encode (bytes16 w) rfl rfl
theorem ignore (b) : Statement (.ignore b) :=
  of_bytes .ignore [if b then 1 else 0] rfl rfl
theorem register (p d dir) : Statement (.register p d dir) :=
  of_bytes .register (bytes24 (registerWord p dir) ++ deviceBytes d) rfl
    (by simp [bytes24, deviceBytes_length])
theorem unregister (d) : Statement (.unregister d) :=
  of_bytes .unregister (1 :: deviceBytes d) rfl (by simp [deviceBytes_length])
theorem lookupInput (p) : Statement (.lookupInput p) :=
  of_bytes .lookupInput (bytes16 p) rfl rfl
theorem lookupOutput (p) : Statement (.lookupOutput p) :=
  of_bytes .lookupOutput (bytes16 p) rfl rfl
theorem in8 (p) : Statement (.in8 p) := of_bytes .in8 (bytes16 p) rfl rfl
theorem in16 (p) : Statement (.in16 p) := of_bytes .in16 (bytes16 p) rfl rfl
theorem in32 (p) : Statement (.in32 p) := of_bytes .in32 (bytes16 p) rfl rfl
theorem out8 (p v) : Statement (.out8 p v) := of_bytes .out8 (v :: bytes16 p) rfl rfl
theorem out16 (p v) : Statement (.out16 p v) :=
  of_bytes .out16 (bytes16 v ++ bytes16 p) rfl rfl
theorem out32 (p v) : Statement (.out32 p v) :=
  of_bytes .out32 (bytes32 v ++ bytes16 p) rfl rfl
theorem reset (t) : Statement (.reset t) :=
  of_bytes .reset (1 :: scopeBytes t) rfl (by simp [scopeBytes_length])
theorem rep (j) : Statement (.rep j) :=
  of_bytes .rep (bytes16 (repWord j) ++ bytes32 j.ip0 ++ bytes32 j.ipNext) rfl rfl

end Sys2Proof.Laws.Framing
end

