-- ==== Sys2Proof/Laws/PortMaps.lean ====
section
/-! SUPPORT. The port maps: what a lookup finds after an insertion or a removal, and that both keep the
canonical form. -/

namespace Sys2Proof.Machine

/-- The canonical form, as a proposition. -/
theorem PortMap.wf_iff (m : PortMap) :
    m.wf = true ↔ m.Pairwise (fun a b => a.1 < b.1) ∧ ∀ e ∈ m, e.1 < 65536 := by
  simp [PortMap.wf]

/-- The entries of a map after an insertion. -/
theorem PortMap.mem_insert {p : Nat} {d : Device} {m : PortMap} {e : Nat × Device}
    (h : e ∈ m.insert p d) : e = (p, d) ∨ e ∈ m := by
  induction m with
  | nil => simpa [PortMap.insert] using h
  | cons x rest ih =>
    simp only [PortMap.insert] at h
    split at h
    · simpa using h
    · split at h
      · rcases List.mem_cons.1 h with h | h
        · exact .inl h
        · exact .inr (List.mem_cons_of_mem _ h)
      · rcases List.mem_cons.1 h with h | h
        · exact .inr (h ▸ List.mem_cons_self)
        · exact (ih h).imp id (List.mem_cons_of_mem _)

/-- An insertion keeps the canonical form. -/
theorem PortMap.insert_wf {p : Nat} {d : Device} {m : PortMap} (hp : p < 65536) (h : m.wf = true) :
    (m.insert p d).wf = true := by
  rw [PortMap.wf_iff] at h ⊢
  refine ⟨?_, fun e he => ?_⟩
  · induction m with
    | nil => simp [PortMap.insert]
    | cons x rest ih =>
      obtain ⟨hs, hb⟩ := h
      rw [List.pairwise_cons] at hs
      simp only [PortMap.insert]
      split
      case isTrue hlt =>
        refine List.pairwise_cons.2 ⟨fun e he => ?_, List.pairwise_cons.2 hs⟩
        rcases List.mem_cons.1 he with he | he
        · exact he ▸ hlt
        · exact Nat.lt_trans hlt (hs.1 e he)
      case isFalse hge =>
        split
        case isTrue heq => exact List.pairwise_cons.2 ⟨fun e he => heq ▸ hs.1 e he, hs.2⟩
        case isFalse hne =>
          refine List.pairwise_cons.2
            ⟨fun e he => ?_, ih ⟨hs.2, fun e he => hb e (List.mem_cons_of_mem _ he)⟩⟩
          rcases PortMap.mem_insert he with he | he
          · subst he
            show x.1 < p
            omega
          · exact hs.1 e he
  · rcases PortMap.mem_insert he with he | he
    · exact he ▸ hp
    · exact h.2 e he

/-- A removal keeps the canonical form. -/
theorem PortMap.remove_wf {d : Device} {m : PortMap} (h : m.wf = true) : (m.remove d).wf = true := by
  rw [PortMap.wf_iff] at h ⊢
  exact ⟨h.1.filter _, fun e he => h.2 e (List.mem_filter.1 he).1⟩

/-- A lookup after an insertion: the port's new device, and every other port as before. -/
theorem PortMap.lookup_insert (p q : Port) (d : Device) (m : PortMap) :
    (m.insert p.toNat d).lookup q = if q = p then some d else m.lookup q := by
  have hpq : (p.toNat == q.toNat) = decide (q = p) := by
    rw [Bool.eq_iff_iff]
    simp only [beq_iff_eq, decide_eq_true_eq]
    exact ⟨fun h => (BitVec.eq_of_toNat_eq h).symm, fun h => h ▸ rfl⟩
  simp only [PortMap.lookup]
  induction m with
  | nil => by_cases h : q = p <;> simp [PortMap.insert, hpq, h]
  | cons x rest ih =>
    simp only [PortMap.insert]
    split
    · by_cases h : q = p <;> simp [List.find?_cons, hpq, h]
    · split
      case isTrue heq => by_cases h : q = p <;> simp [← heq, hpq, h]
      case isFalse hne =>
        simp only [List.find?_cons]
        by_cases hx : (x.1 == q.toNat) = true
        · have : q ≠ p := fun h => hne (by rw [beq_iff_eq] at hx; rw [hx, h])
          simp [hx, this]
        · simp only [Bool.not_eq_true] at hx
          simpa only [hx] using ih

/-- In the canonical form a lookup finds a device exactly when the map has the entry. -/
theorem PortMap.lookup_eq_some {m : PortMap} (h : m.wf = true) (q : Port) (d : Device) :
    m.lookup q = some d ↔ (q.toNat, d) ∈ m := by
  have hs := ((PortMap.wf_iff m).1 h).1
  simp only [PortMap.lookup, Option.map_eq_some_iff]
  clear h
  induction m with
  | nil => simp
  | cons x rest ih =>
    rw [List.pairwise_cons] at hs
    simp only [List.find?_cons, List.mem_cons]
    by_cases hx : (x.1 == q.toNat) = true
    · simp only [hx]
      rw [beq_iff_eq] at hx
      constructor
      · rintro ⟨y, hy, rfl⟩
        cases hy
        exact .inl (by rw [← hx])
      · rintro (h | h)
        · exact ⟨x, rfl, by rw [← h]⟩
        · exact absurd (hs.1 _ h) (by simp [hx])
    · simp only [Bool.not_eq_true] at hx
      simp only [hx]
      refine (ih hs.2).trans ⟨.inr, ?_⟩
      rintro (h | h)
      · rw [← h] at hx; simp at hx
      · exact h

/-- In the canonical form a removal takes away the device's ports and no other. -/
theorem PortMap.lookup_remove {m : PortMap} (h : m.wf = true) (d : Device) (q : Port) :
    (m.remove d).lookup q = if m.lookup q = some d then none else m.lookup q := by
  have key : ∀ e : Device, (m.remove d).lookup q = some e ↔ m.lookup q = some e ∧ e ≠ d := by
    intro e
    rw [PortMap.lookup_eq_some (PortMap.remove_wf h), PortMap.lookup_eq_some h]
    simp [PortMap.remove]
  cases hr : (m.remove d).lookup q with
  | none =>
    cases hm : m.lookup q with
    | none => simp
    | some e =>
      by_cases he : e = d
      · simp [he]
      · exact absurd ((key e).2 ⟨hm, he⟩) (by simp [hr])
  | some e =>
    obtain ⟨h1, h2⟩ := (key e).1 hr
    simp [h1, h2]

end Sys2Proof.Machine
end

