-- ==== Sys2Proof/Laws/Reach.lean ====
section
/-! SUPPORT. What an operation can do, said once: every operation, and so every step, is a chain of atomic
changes, of a small set for the reads of the port bus, a larger one for its writes, a larger one for the
instructions of the guest, and the largest for the step. A property that each atomic change keeps is kept by
every chain. -/

namespace Sys2Proof.Machine

/-- The atomic changes a port read makes. -/
inductive ReadChange : State → State → Prop where
  | violation (s : State) (v : Violation) : ReadChange s (s.pushViolation v)
  | call (s : State) (e : DeviceCall) : ReadChange s (s.pushCall e)
  | reply (s : State) : ReadChange s (takeReply s).2
  | point (s : State) : ReadChange s (point s)

/-- The atomic changes an access to a chip or peripheral makes. -/
inductive BusChange : State → State → Prop where
  | read {s t : State} (h : ReadChange s t) : BusChange s t
  /-- chip fields other than `request` and `mask` -/
  | flags (s : State) (c : Chip) (r : ChipRegs) (hq : r.request = (s.chip c).request)
      (hm : r.mask = (s.chip c).mask) : BusChange s (s.setChip c r)
  /-- any chip fields, the summary recomputed before the change is over -/
  | lines (s : State) (m sl : ChipRegs) : BusChange s (recompute { s with master := m, slave := sl })

/-- The atomic changes an instruction of the guest makes, or a boundary. -/
inductive GuestChange : State → State → Prop where
  | bus {s t : State} (h : BusChange s t) : GuestChange s t
  | result (s : State) (r : Result) : GuestChange s (s.setResult r)
  | event (s : State) (e : CoreEvent) : GuestChange s (s.pushEvent e)
  | core (s : State) (u : CoreSignals) : GuestChange s (s.setCore u)
  | body (s : State) : GuestChange s (takeBody s).2
  | nextIp (s : State) : GuestChange s (takeNextIp s).2

/-- The atomic changes a step makes. -/
inductive Change : State → State → Prop where
  | guest {s t : State} (h : GuestChange s t) : Change s t
  | ignore (s : State) (b : Bool) : Change s (setIgnoreAll b s)
  | register (s : State) (p : Port) (d : Device) (dir : Dir) : Change s (enterPorts p d dir s)
  | unregister (s : State) (d : Device) : Change s (removePorts d s)
  | input (s : State) : Change s (dropInput s)

/-- A chain of atomic changes. -/
abbrev Chain (C : State → State → Prop) : State → State → Prop := Relation.ReflTransGen C

/-- If the outcome is a next state, a chain of atomic changes leads to it. -/
def Reaches (C : State → State → Prop) (s : State) (o : Out) : Prop := ∀ t, o = .next t → Chain C s t

/-- A property that every atomic change keeps is kept by every chain. -/
theorem Chain.keeps {C : State → State → Prop} {P : State → Prop} (hP : ∀ s t, C s t → P s → P t)
    {s t : State} (h : Chain C s t) (hs : P s) : P t := by
  induction h with
  | refl => exact hs
  | tail _ hc ih => exact hP _ _ hc ih

/-- A reflexive and transitive relation that holds of every atomic change holds of every chain. -/
theorem Chain.relates {C R : State → State → Prop} (hr : ∀ s, R s s)
    (ht : ∀ a b c, R a b → R b c → R a c) (hR : ∀ s t, C s t → R s t) {s t : State}
    (h : Chain C s t) : R s t := by
  induction h with
  | refl => exact hr _
  | tail _ hc ih => exact ht _ _ _ ih (hR _ _ hc)

/-- A larger set of changes allows every chain of a smaller one. -/
theorem Chain.widen {C D : State → State → Prop} (hCD : ∀ s t, C s t → D s t) {s t : State}
    (h : Chain C s t) : Chain D s t := by
  induction h with
  | refl => exact .refl
  | tail _ hc ih => exact ih.tail (hCD _ _ hc)

theorem Chain.toBus {s t : State} (h : Chain ReadChange s t) : Chain BusChange s t :=
  h.widen fun _ _ => .read

theorem Chain.toGuest {s t : State} (h : Chain BusChange s t) : Chain GuestChange s t :=
  h.widen fun _ _ => .bus

theorem Chain.toStep {s t : State} (h : Chain GuestChange s t) : Chain Change s t :=
  h.widen fun _ _ => .guest

theorem Reaches.widen {C D : State → State → Prop} (hCD : ∀ s t, C s t → D s t) {s : State} {o : Out}
    (h : Reaches C s o) : Reaches D s o := fun t ht => (h t ht).widen hCD

section
variable {C : State → State → Prop}

theorem Reaches.next {s t : State} (h : Chain C s t) : Reaches C s (.next t) := by
  rintro u ⟨⟩
  exact h

theorem Reaches.mapNext {s : State} {o : Out} {f : State → State} (h : Reaches C s o)
    (hf : ∀ t, Chain C t (f t)) : Reaches C s (mapNext o f) := by
  intro u hu
  cases o with
  | next t => cases hu; exact (h t rfl).trans (hf t)
  | fault r => cases hu
  | refused r => cases hu

theorem Reaches.andThen {s : State} {o : Out} {f : State → Out} (h : Reaches C s o)
    (hf : ∀ t, Reaches C t (f t)) : Reaches C s (andThen o f) := by
  intro u hu
  cases o with
  | next t => exact (h t rfl).trans (hf t u hu)
  | fault r => cases hu
  | refused r => cases hu

/-- Go on from a state already reached. -/
theorem Reaches.after {s t : State} {o : Out} (h : Chain C s t) (ho : Reaches C t o) : Reaches C s o :=
  fun u hu => h.trans (ho u hu)

end

/-! ### Port reads -/

theorem pushCall_chain (s : State) (e : DeviceCall) : Chain ReadChange s (s.pushCall e) :=
  .single (.call s e)

theorem point_chain (s : State) : Chain ReadChange s (point s) := .single (.point s)

theorem takeReply_chain (s : State) : Chain ReadChange s (takeReply s).2 := .single (.reply s)

theorem reportOptional_chain (v : Violation) (s : State) : Chain ReadChange s (reportOptional v s) := by
  unfold reportOptional
  split
  · exact .single (.violation s v)
  · exact .refl

theorem deviceIn8_chain (d : Device) (p : Port) (s : State) : Chain ReadChange s (deviceIn8 d p s).2 := by
  cases d with
  | chip c => exact .refl
  | peripheral k => exact (pushCall_chain s _).trans (takeReply_chain _)

theorem takeReply16_chain (s : State) : Chain ReadChange s (takeReply16 s).2 :=
  (takeReply_chain s).trans (takeReply_chain _)

theorem takeReply32_chain (s : State) : Chain ReadChange s (takeReply32 s).2 :=
  (takeReply16_chain s).trans (takeReply16_chain _)

theorem deviceIn16_chain (d : Device) (p : Port) (s : State) :
    Chain ReadChange s (deviceIn16 d p s).2 := by
  unfold deviceIn16
  split
  · exact (pushCall_chain s _).trans (takeReply16_chain _)
  · exact ((deviceIn8_chain d p s).trans (point_chain _)).trans (deviceIn8_chain _ _ _)

theorem deviceIn32_chain (d : Device) (p : Port) (s : State) :
    Chain ReadChange s (deviceIn32 d p s).2 := by
  unfold deviceIn32
  split
  · exact (pushCall_chain s _).trans (takeReply32_chain _)
  · exact ((deviceIn16_chain d p s).trans (point_chain _)).trans (deviceIn16_chain _ _ _)

theorem portRead8_chain (p : Port) (s : State) : Chain ReadChange s (portRead8 p s).2 := by
  unfold portRead8
  split
  · exact deviceIn8_chain _ _ _
  · exact reportOptional_chain _ _

theorem portRead16_chain (p : Port) (s : State) : Chain ReadChange s (portRead16 p s).2 := by
  unfold portRead16
  split
  · exact deviceIn16_chain _ _ _
  · exact reportOptional_chain _ _

theorem portRead32_chain (p : Port) (s : State) : Chain ReadChange s (portRead32 p s).2 := by
  unfold portRead32
  split
  · exact deviceIn32_chain _ _ _
  · exact reportOptional_chain _ _

theorem portReadWide_chain (w : Width) (p : Port) (s : State) :
    Chain ReadChange s (portReadWide w p s).2 := by
  cases w
  · exact portRead8_chain _ _
  · exact portRead16_chain _ _
  · exact portRead32_chain _ _

/-! ### The commands of a chip -/

theorem report_reaches (v : Violation) (s : State) : Reaches BusChange s (report v s) := by
  unfold report
  split
  · rintro t ⟨⟩
  · exact .next (.single (.read (.violation s v)))

/-- Any rewriting of a chip that ends with `Recompute()` is one atomic change. -/
theorem recompute_setChip_chain (s : State) (c : Chip) (r : ChipRegs) :
    Chain BusChange s (recompute (s.setChip c r)) := by
  cases c
  · exact .single (.lines s r s.slave)
  · exact .single (.lines s s.master r)

theorem clearInService_chain (c : Chip) (i : Nat) (s : State) :
    Chain BusChange s (clearInService c i s) :=
  .single (.flags s c { s.chip c with inService := clearBit (s.chip c).inService i } rfl rfl)

theorem statusMode_chain (c : Chip) (esmm smm rr ris : Bool) (s : State) :
    Chain BusChange s (statusMode c esmm smm rr ris s) := by
  unfold statusMode
  exact .single (.flags s c { s.chip c with readIsr := _, specialMask := _ } rfl rfl)

theorem vectorBaseByte_chain (c : Chip) (v : Byte) (s : State) :
    Chain BusChange s (vectorBaseByte c v s) := by
  unfold vectorBaseByte
  exact .single (.flags s c { s.chip c with vectorBase := _, awaitIcw2 := _ } rfl rfl)

theorem fourthByte_chain (c : Chip) (s : State) : Chain BusChange s (fourthByte c s) := by
  unfold fourthByte
  exact .single (.flags s c { s.chip c with awaitIcw4 := _ } rfl rfl)

theorem endNonSpecific_reaches (c : Chip) (s : State) : Reaches BusChange s (endNonSpecific c s) := by
  unfold endNonSpecific
  split
  · exact report_reaches _ _
  · exact .next (clearInService_chain _ _ _)

theorem writeCommandByte0_reaches (c : Chip) (v : Byte) (s : State) :
    Reaches BusChange s (writeCommandByte0 c v s) := by
  unfold writeCommandByte0
  split
  · exact .next (recompute_setChip_chain _ _ _)
  split
  · split
    · exact report_reaches _ _
    split
    · exact report_reaches _ _
    · exact .next (statusMode_chain _ _ _ _ _ _)
  split
  · exact endNonSpecific_reaches _ _
  split
  · exact .next (clearInService_chain _ _ _)
  · exact report_reaches _ _

theorem writeCommandByte1_chain (c : Chip) (v : Byte) (s : State) :
    Chain BusChange s (writeCommandByte1 c v s) := by
  unfold writeCommandByte1
  split
  · exact vectorBaseByte_chain _ _ _
  split
  · exact fourthByte_chain _ _
  · exact recompute_setChip_chain _ _ _

theorem chipOut8_reaches (c : Chip) (p : Port) (v : Byte) (s : State) :
    Reaches BusChange s (chipOut8 c p v s) := by
  unfold chipOut8
  split
  · exact .next (writeCommandByte1_chain _ _ _)
  · exact writeCommandByte0_reaches _ _ _

/-! ### Port writes -/

theorem deviceOut8_reaches (d : Device) (p : Port) (v : Byte) (s : State) :
    Reaches BusChange s (deviceOut8 d p v s) := by
  cases d with
  | chip c => exact chipOut8_reaches _ _ _ _
  | peripheral k => exact .next (pushCall_chain s _).toBus

theorem deviceOut16_reaches (d : Device) (p : Port) (v : BitVec 16) (s : State) :
    Reaches BusChange s (deviceOut16 d p v s) := by
  unfold deviceOut16
  split
  · exact .next (pushCall_chain s _).toBus
  · exact (deviceOut8_reaches _ _ _ _).andThen
      fun t => .after (point_chain t).toBus (deviceOut8_reaches _ _ _ _)

theorem deviceOut32_reaches (d : Device) (p : Port) (v : BitVec 32) (s : State) :
    Reaches BusChange s (deviceOut32 d p v s) := by
  unfold deviceOut32
  split
  · exact .next (pushCall_chain s _).toBus
  · exact (deviceOut16_reaches _ _ _ _).andThen
      fun t => .after (point_chain t).toBus (deviceOut16_reaches _ _ _ _)

theorem portWrite8_reaches (p : Port) (v : Byte) (s : State) :
    Reaches BusChange s (portWrite8 p v s) := by
  unfold portWrite8
  split
  · exact deviceOut8_reaches _ _ _ _
  · exact .next (reportOptional_chain _ _).toBus

theorem portWrite16_reaches (p : Port) (v : BitVec 16) (s : State) :
    Reaches BusChange s (portWrite16 p v s) := by
  unfold portWrite16
  split
  · exact deviceOut16_reaches _ _ _ _
  · exact .next (reportOptional_chain _ _).toBus

theorem portWrite32_reaches (p : Port) (v : BitVec 32) (s : State) :
    Reaches BusChange s (portWrite32 p v s) := by
  unfold portWrite32
  split
  · exact deviceOut32_reaches _ _ _ _
  · exact .next (reportOptional_chain _ _).toBus

theorem portWriteWide_reaches (w : Width) (p : Port) (v : BitVec 32) (s : State) :
    Reaches BusChange s (portWriteWide w p v s) := by
  cases w
  · exact portWrite8_reaches _ _ _
  · exact portWrite16_reaches _ _ _
  · exact portWrite32_reaches _ _ _

/-! ### Delivery -/

theorem setCore_chain (s : State) (u : CoreSignals) : Chain GuestChange s (s.setCore u) :=
  .single (.core s u)

theorem setResult_chain (s : State) (r : Result) : Chain GuestChange s (s.setResult r) :=
  .single (.result s r)

theorem pushEvent_chain (s : State) (e : CoreEvent) : Chain GuestChange s (s.pushEvent e) :=
  .single (.event s e)

theorem takeBody_chain (s : State) : Chain GuestChange s (takeBody s).2 := .single (.body s)

/-- Passing an instruction takes its next address and writes `ip`. -/
theorem passInstruction_chain (i : Instr) (s : State) : Chain GuestChange s (passInstruction i s) := by
  unfold passInstruction
  split
  · exact .refl
  · exact .trans (.single (.nextIp s)) (setCore_chain _ _)

theorem callCore_chain (vec : Byte) (s : State) : Chain GuestChange s (callCore vec s) :=
  ((pushEvent_chain s _).trans (pushEvent_chain _ _)).trans (setCore_chain _ _)

theorem deliver_chain (n : Nat) (s : State) : Chain GuestChange s (deliver n s).2 := by
  unfold deliver
  split
  · exact .trans (.single (.bus (.lines s { s.master with
        request := clearBit s.master.request n, inService := setBit s.master.inService n }
        s.slave))) (callCore_chain _ _)
  · exact .trans (.single (.bus (.lines s { s.master with
        inService := setBit s.master.inService Config.cascadeLine }
        { s.slave with
          request := clearBit s.slave.request (n - 8)
          inService := setBit s.slave.inService (n - 8) }))) (callCore_chain _ _)

theorem serviceStep_chain (s : State) : Chain GuestChange s (serviceStep s).2 := by
  unfold serviceStep
  split
  · exact .refl
  · split
    · exact .refl
    · exact deliver_chain _ _

theorem boundary_chain (s : State) : Chain GuestChange s (boundary s) := by
  simp only [boundary]
  split
  · exact (Chain.toGuest (Chain.toBus ((point_chain s).trans (point_chain _)))).trans (serviceStep_chain _)
  · exact (point_chain s).toBus.toGuest

/-! ### The repeat driver -/

theorem body_reaches (j : RepInputs) (s : State) : Reaches GuestChange s (body j s) := by
  unfold body
  refine .after (pushEvent_chain s (.body j.kind j.width j.addrSize s.core.srcIndex s.core.dstIndex)) ?_
  cases j.kind
  case portIn => exact .next ((portReadWide_chain _ _ _).toBus.toGuest.trans (pushEvent_chain _ _))
  case portOut =>
    exact .after (takeBody_chain _) ((portWriteWide_reaches _ _ _ _).widen fun _ _ => .bus)
  case compare => exact .next ((takeBody_chain _).trans (setCore_chain _ _))
  case scan => exact .next ((takeBody_chain _).trans (setCore_chain _ _))
  all_goals exact .next .refl

theorem element_reaches (j : RepInputs) (counted : Bool) (s : State) :
    Reaches GuestChange s (element j counted s) :=
  (body_reaches j s).mapNext fun _ => (setCore_chain _ _).trans (setCore_chain _ _)

theorem finishDriver_chain (j : RepInputs) (r : DriverResult) (s : State) :
    Chain GuestChange s (finishDriver j r s) :=
  (setCore_chain s _).trans (setResult_chain _ _)

theorem driverLoop_reaches (j : RepInputs) (n : Nat) (s : State) :
    Reaches GuestChange s (driverLoop j n s) := by
  induction n generalizing s with
  | zero => exact .next (finishDriver_chain _ _ _)
  | succ n ih =>
    simp only [driverLoop]
    split
    · exact .next ((point_chain s).toBus.toGuest.trans (finishDriver_chain _ _ _))
    · refine .after (Chain.toGuest (Chain.toBus ((point_chain s).trans (point_chain _))))
        ((element_reaches _ _ _).andThen fun t => ?_)
      split
      · exact .next (finishDriver_chain _ _ _)
      · exact ih t

theorem repeatDrive_reaches (j : RepInputs) (s : State) :
    Reaches GuestChange s (repeatDrive j s) := by
  unfold repeatDrive
  split
  · exact (element_reaches _ _ _).mapNext fun t => finishDriver_chain _ _ _
  · exact driverLoop_reaches _ _ _
  · exact driverLoop_reaches _ _ _

/-! ### The instructions -/

/-- Whatever an instruction of the guest does, it does by the changes of the guest. -/
theorem exec_guest_reaches (i : Instr) (hi : i.isGuest = true) (s : State) :
    Reaches GuestChange s (exec i s) := by
  have res : ∀ t : State, Chain GuestChange t (t.setResult .none) := fun t => setResult_chain t _
  have bus : ∀ {t u : State}, Chain BusChange t u → Reaches GuestChange t (.next (u.setResult .none)) :=
    fun h => .next (h.toGuest.trans (res _))
  have rep : ∀ {t : State} {o : Out}, Reaches BusChange t o → Reaches GuestChange t (doneNone o) :=
    fun h => (h.widen fun _ _ => .bus).mapNext fun t => res t
  have red : ∀ {t u : State} (r : Result), Chain ReadChange t u →
      Reaches GuestChange t (.next (u.setResult r)) :=
    fun r h => .next (h.toBus.toGuest.trans (setResult_chain _ r))
  cases i with
  | icw1 c v => exact bus (recompute_setChip_chain _ _ _)
  | ocw3Poll c v => exact rep (report_reaches _ _)
  | ocw3Bit7 c v => exact rep (report_reaches _ _)
  | ocw3 c a b d e => exact bus (statusMode_chain _ _ _ _ _ _)
  | eoi c => exact rep (endNonSpecific_reaches _ _)
  | seoi c l => exact bus (clearInService_chain _ _ _)
  | ocw2Unrecognized c v => exact rep (report_reaches _ _)
  | icw2 c b d => exact bus (vectorBaseByte_chain _ _ _)
  | icw4 c v => exact bus (fourthByte_chain _ _)
  | ocw1 c m => exact bus (recompute_setChip_chain _ _ _)
  | readStatus c => exact red _ .refl
  | readMask c => exact red _ .refl
  | in8 p => exact red _ (portRead8_chain _ _)
  | in16 p => exact red _ (portRead16_chain _ _)
  | in32 p => exact red _ (portRead32_chain _ _)
  | out8 p v => exact rep (portWrite8_reaches _ _ _)
  | out16 p v => exact rep (portWrite16_reaches _ _ _)
  | out32 p v => exact rep (portWrite32_reaches _ _ _)
  | rep j => exact repeatDrive_reaches j s
  | _ => cases hi

theorem raiseLine_chain (n : Nat) (s : State) : Chain BusChange s (raiseLine n s) := by
  unfold raiseLine
  split
  · exact recompute_setChip_chain _ _ _
  · exact .single (.lines s { s.master with request := setBit s.master.request Config.cascadeLine }
      { s.slave with request := setBit s.slave.request (n - 8) })

theorem lowerLine_chain (n : Nat) (s : State) : Chain BusChange s (lowerLine n s) := by
  unfold lowerLine
  split
  · exact recompute_setChip_chain _ _ _
  · unfold lowerCascade
    split
    · exact .single (.lines s { s.master with request := clearBit s.master.request Config.cascadeLine }
        { s.slave with request := clearBit s.slave.request (n - 8) })
    · exact recompute_setChip_chain _ _ _

theorem registerPort_chain (p : Port) (d : Device) (dir : Dir) (s : State) :
    Chain Change s (registerPort p d dir s) := by
  unfold registerPort
  split
  · exact .trans (.single (.guest (.bus (.read (.violation s _))))) (setResult_chain _ _).toStep
  · exact .trans (.single (.register s p d dir)) (setResult_chain _ _).toStep

theorem resetDevice_chain (d : Device) (s : State) : Chain BusChange s (resetDevice d s) := by
  cases d with
  | chip c => exact recompute_setChip_chain _ _ _
  | peripheral k => exact (pushCall_chain s _).toBus

theorem resetMachine_chain (s : State) : Chain BusChange s (resetMachine s) := by
  unfold resetMachine
  have h : ∀ (l : List DeviceRecord) (t : State),
      Chain BusChange t (l.foldl (fun t d => resetDevice (.peripheral d.handle) t) t) := by
    intro l
    induction l with
    | nil => exact fun t => .refl
    | cons r rest ih => exact fun t => (resetDevice_chain _ t).trans (ih _)
  exact ((resetDevice_chain (.chip .M) s).trans (resetDevice_chain (.chip .S) _)).trans (h _ _)

/-- Whatever an instruction does, it does by atomic changes. -/
theorem exec_reaches (i : Instr) (s : State) : Reaches Change s (exec i s) := by
  have res : ∀ (t : State) (r : Result), Chain Change t (t.setResult r) :=
    fun t r => (setResult_chain t r).toStep
  have rep : ∀ (n : Byte) (r : Result),
      Reaches Change s (mapNext (report (.lineOutOfRange n) s) (·.setResult r)) := fun n r =>
    ((report_reaches _ _).widen fun _ _ h => .guest (.bus h)).mapNext fun t => res t r
  by_cases hi : i.isGuest = true
  · exact (exec_guest_reaches i hi s).widen fun _ _ => .guest
  cases i with
  | raise n =>
    simp only [exec, execRaise]
    split
    · exact rep _ _
    · exact .next ((raiseLine_chain _ _).toGuest.toStep.trans (res _ _))
  | lower n =>
    simp only [exec, execLower]
    split
    · exact rep _ _
    · exact .next ((lowerLine_chain _ _).toGuest.toStep.trans (res _ _))
  | query n =>
    simp only [exec, execQuery]
    split
    · exact rep _ _
    · exact .next (res _ _)
  | anyPending => exact .next (res _ _)
  | deliverable => exact .next (res _ _)
  | recompute =>
    exact .next (.trans (.single (.guest (.bus (.lines s s.master s.slave)))) (res _ _))
  | service => exact .next ((serviceStep_chain s).toStep.trans (res _ _))
  | encode w => exact .next (res _ _)
  | ignore b => exact .next (.trans (.single (.ignore s b)) (res _ _))
  | register p d dir => exact .next (registerPort_chain _ _ _ _)
  | unregister d => exact .next (.trans (.single (.unregister s d)) (res _ _))
  | lookupInput p => exact .next (res _ _)
  | lookupOutput p => exact .next (res _ _)
  | reset t =>
    cases t with
    | machine => exact .next ((resetMachine_chain s).toGuest.toStep.trans (res _ _))
    | device d => exact .next ((resetDevice_chain d s).toGuest.toStep.trans (res _ _))
  | _ => exact absurd rfl hi

/-- Whatever a step does, it does by atomic changes. -/
theorem step_reaches (s : State) : Reaches Change s (step s) := by
  have drop : Chain Change s (dropInput s) := .single (.input s)
  unfold step
  split
  · exact .next (boundary_chain s).toStep
  · unfold stepFrame
    split
    · rintro t ⟨⟩
    · split
      · exact .next (boundary_chain s).toStep
      · unfold finishStep
        split
        · exact .after drop ((exec_reaches _ _).mapNext fun t =>
            Chain.toStep ((passInstruction_chain _ t).trans (boundary_chain _)))
        · exact .after drop (exec_reaches _ _)
  · exact .next (drop.trans (Chain.toStep ((setCore_chain _ _).trans (boundary_chain _))))
  · exact .next (drop.trans (Chain.toStep ((pushEvent_chain _ _).trans (boundary_chain _))))

end Sys2Proof.Machine
end

