-- ==== Sys2Proof/Laws/Repeat.lean ====
section
/-! SUPPORT. The repeat driver, said once: what one element does to the core's signals and to the calls on
the core, and which runs of elements an answer of the driver stands for. -/

namespace Sys2Proof.Machine

/-- A call of the element body. -/
def CoreEvent.isBody : CoreEvent → Bool
  | .body .. => true
  | _ => false

/-- No access to a chip or peripheral writes a signal of the core or makes a call on it. -/
theorem bus_core {s t : State} (h : Chain BusChange s t) : t.core = s.core ∧ t.events = s.events := by
  refine h.relates (R := fun a b => b.core = a.core ∧ b.events = a.events) (fun _ => ⟨rfl, rfl⟩)
    (fun _ _ _ h h' => ⟨h'.1.trans h.1, h'.2.trans h.2⟩) ?_
  intro a b hc
  cases hc with
  | read h =>
    cases h with
    | violation v => exact ⟨rfl, rfl⟩
    | call e => exact ⟨rfl, rfl⟩
    | reply => unfold takeReply; split <;> exact ⟨rfl, rfl⟩
    | point => exact ⟨point_core a, point_events a⟩
  | flags c r hq hm => exact ⟨setChip_core a c r, setChip_events a c r⟩
  | lines m sl => exact ⟨rfl, rfl⟩

/-- The next answer of the body comes from the inputs or is free, and nothing else changes. -/
theorem takeBody_core (s : State) : (takeBody s).2.core = s.core ∧ (takeBody s).2.events = s.events := by
  unfold takeBody
  split <;> exact ⟨rfl, rfl⟩

/-- No access to a chip or peripheral writes the result. -/
theorem bus_result {s t : State} (h : Chain BusChange s t) : t.result = s.result := by
  refine h.relates (R := fun a b => b.result = a.result) (fun _ => rfl) (fun _ _ _ h h' => h'.trans h) ?_
  intro a b hc
  cases hc with
  | read h =>
    cases h with
    | violation v => rfl
    | call e => rfl
    | reply => unfold takeReply; split <;> rfl
    | point => exact point_result a
  | flags c r hq hm => cases c <;> rfl
  | lines m sl => rfl

/-- The body writes no result. -/
theorem body_result {j : RepInputs} {s t : State} (h : body j s = .next t) : t.result = s.result := by
  have taken (u : State) : (takeBody u).2.result = u.result := by unfold takeBody; split <;> rfl
  unfold body at h
  cases hk : j.kind <;> simp only [hk] at h
  case portIn =>
    cases h
    have := bus_result (portReadWide_chain j.width s.core.portReg
      (s.pushEvent (.body .portIn j.width j.addrSize s.core.srcIndex s.core.dstIndex))).toBus
    exact this
  case portOut => exact (bus_result (portWriteWide_reaches _ _ _ _ t h)).trans (taken _)
  case compare => cases h; exact taken _
  case scan => cases h; exact taken _
  all_goals cases h; rfl

/-- Signals that are equal differ at most in the zero flag. -/
theorem zf_only {u v : CoreSignals} {b : Bool} (h : v = u) :
    v = { u with zf := v.zf } ∧ (b = false → v.zf = u.zf) := by
  subst h
  exact ⟨rfl, fun _ => rfl⟩

/-- The body writes no signal of the core but the zero flag, and that only in a compare or scan. -/
theorem body_core {j : RepInputs} {s t : State} (h : body j s = .next t) :
    t.core = { s.core with zf := t.core.zf } ∧ (affectsZf j.kind = false → t.core.zf = s.core.zf) := by
  unfold body at h
  cases hk : j.kind <;> simp only [hk] at h
  case portIn =>
    cases h
    exact zf_only (bus_core (portReadWide_chain _ _ _).toBus).1
  case portOut =>
    exact zf_only ((bus_core (portWriteWide_reaches _ _ _ _ t h)).1.trans (takeBody_core _).1)
  case compare =>
    cases h
    exact ⟨by rw [setCore_core, (takeBody_core _).1]; rfl, fun h => by cases h⟩
  case scan =>
    cases h
    exact ⟨by rw [setCore_core, (takeBody_core _).1]; rfl, fun h => by cases h⟩
  all_goals (cases h; exact ⟨rfl, fun _ => rfl⟩)

/-- The body is called once. -/
theorem body_calls {j : RepInputs} {s t : State} (h : body j s = .next t) :
    t.events.countP CoreEvent.isBody = s.events.countP CoreEvent.isBody + 1 := by
  unfold body at h
  cases hk : j.kind <;> simp only [hk] at h
  case portIn =>
    cases h
    rw [pushEvent_events, (bus_core (portReadWide_chain _ _ _).toBus).2]
    simp [List.countP_cons, CoreEvent.isBody]
  case portOut =>
    have hb := (bus_core (portWriteWide_reaches _ _ _ _ t h)).2.trans (takeBody_core _).2
    rw [hb]
    simp [List.countP_cons, CoreEvent.isBody]
  case compare => cases h; rw [setCore_events, (takeBody_core _).2]; simp [List.countP_cons, CoreEvent.isBody]
  case scan => cases h; rw [setCore_events, (takeBody_core _).2]; simp [List.countP_cons, CoreEvent.isBody]
  all_goals (cases h; simp [List.countP_cons, CoreEvent.isBody])

/-- The signals of the core after one element. -/
def afterElement (j : RepInputs) (counted : Bool) (zf : Bool) (u : CoreSignals) : CoreSignals :=
  { u with
    zf := zf
    cycles := u.cycles + 1
    count := if counted then decrement j.addrSize u.count else u.count
    srcIndex := if usesSource j.kind then advance j.addrSize j.dir j.width u.srcIndex else u.srcIndex
    dstIndex := if usesDest j.kind then advance j.addrSize j.dir j.width u.dstIndex else u.dstIndex }

/-- What one element does. -/
theorem element_core {j : RepInputs} {counted : Bool} {s t : State} (h : element j counted s = .next t) :
    t.core = afterElement j counted t.core.zf s.core
      ∧ (affectsZf j.kind = false → t.core.zf = s.core.zf)
      ∧ t.events.countP CoreEvent.isBody = s.events.countP CoreEvent.isBody + 1 := by
  unfold element at h
  cases hb : body j s with
  | next u =>
    have hc := body_core hb
    have hn := body_calls hb
    rw [hb] at h
    cases h
    refine ⟨?_, hc.2, hn⟩
    simp only [advanceIndex, countElement, setCore_core]
    rw [hc.1]
    rfl
  | fault r => rw [hb] at h; cases h
  | refused r => rw [hb] at h; cases h

/-- `k` whole elements, each found not to be preceded by an abort and, but for the last, not to end the
repeat; other agents acted before and after each abort test. -/
inductive Runs (j : RepInputs) : Nat → State → State → Prop where
  | none (s : State) : Runs j 0 s s
  | more {k : Nat} {s u v t : State} (hu : u = point s) (he : eligible u = false)
      (hv : element j true (point u) = .next v) (h : Runs j k v t)
      (hs : k ≠ 0 → stopsRepeat j.rep j.kind v.core.zf = false) : Runs j (k + 1) s t

/-- An answer of the loop stands for a run of elements that an eligible line ended, or that ended by the
count or by the zero flag. -/
theorem driverLoop_runs {j : RepInputs} {n : Nat} {s t : State} (h : driverLoop j n s = .next t) :
    (∃ k u, k < n ∧ Runs j k s u ∧ eligible (point u) = true
        ∧ t = finishDriver j .abortedForInterrupt (point u))
    ∨ ∃ k u, k ≤ n ∧ Runs j k s u ∧ t = finishDriver j .completed u
        ∧ (k = n ∨ (k ≠ 0 ∧ stopsRepeat j.rep j.kind u.core.zf = true)) := by
  induction n generalizing s with
  | zero => cases h; exact .inr ⟨0, s, Nat.le_refl 0, .none s, rfl, .inl rfl⟩
  | succ n ih =>
    simp only [driverLoop] at h
    split at h
    case isTrue he => cases h; exact .inl ⟨0, s, Nat.succ_pos n, .none s, he, rfl⟩
    case isFalse he =>
      rw [Bool.not_eq_true] at he
      cases hv : element j true (point (point s)) with
      | fault r => rw [hv] at h; cases h
      | refused r => rw [hv] at h; cases h
      | next v =>
        rw [hv] at h
        simp only [andThen] at h
        split at h
        case isTrue hz =>
          cases h
          exact .inr ⟨1, v, Nat.succ_le_succ (Nat.zero_le n), .more rfl he hv (.none v) (absurd rfl), rfl,
            .inr ⟨Nat.one_ne_zero, hz⟩⟩
        case isFalse hz =>
          rw [Bool.not_eq_true] at hz
          rcases ih h with ⟨k, u, hk, hr, hu, ht⟩ | ⟨k, u, hk, hr, ht, hz'⟩
          · exact .inl ⟨k + 1, u, Nat.succ_lt_succ hk, .more rfl he hv hr fun _ => hz, hu, ht⟩
          · exact .inr ⟨k + 1, u, Nat.succ_le_succ hk, .more rfl he hv hr fun _ => hz, ht,
              hz'.imp (congrArg _) fun h => ⟨Nat.succ_ne_zero k, h.2⟩⟩

/-- What every element of a run keeps relates the two ends of the run. -/
theorem Runs.relates {j : RepInputs} {R : Nat → CoreSignals → CoreSignals → Prop}
    (h0 : ∀ u, R 0 u u)
    (hstep : ∀ k u v w, (∃ zf, v = afterElement j true zf u) → R k v w → R (k + 1) u w)
    {k : Nat} {s t : State} (h : Runs j k s t) : R k s.core t.core := by
  induction h with
  | none s => exact h0 _
  | more hu he hv h hs ih =>
    have hc := (element_core hv).1
    rw [hu, point_core, point_core] at hc
    exact hstep _ _ _ _ ⟨_, hc⟩ ih

/-- A run of `k` elements calls the body `k` times. -/
theorem Runs.calls {j : RepInputs} {k : Nat} {s t : State} (h : Runs j k s t) :
    t.events.countP CoreEvent.isBody = s.events.countP CoreEvent.isBody + k := by
  induction h with
  | none s => rfl
  | more hu he hv h hs ih =>
    rw [ih, (element_core hv).2.2, hu, point_events, point_events]
    omega

/-! ### The registers at width `addr_size` -/

theorem writeAt_low (r v : BitVec 32) : (writeAt .a16 r v).extractLsb' 0 16 = v.extractLsb' 0 16 := by
  ext i h
  have h1 : (0xFFFF0000 : BitVec 32).getLsbD i = false := by revert i; decide
  have h2 : (0x0000FFFF : BitVec 32).getLsbD i = true := by revert i; decide
  simp only [writeAt, BitVec.getElem_extractLsb', Nat.zero_add, BitVec.getLsbD_or, BitVec.getLsbD_and,
    h1, h2, Bool.and_false, Bool.and_true, Bool.false_or]

theorem writeAt_high (r v : BitVec 32) : (writeAt .a16 r v).extractLsb' 16 16 = r.extractLsb' 16 16 := by
  ext i h
  have h1 : (0xFFFF0000 : BitVec 32).getLsbD (16 + i) = true := by revert i; decide
  have h2 : (0x0000FFFF : BitVec 32).getLsbD (16 + i) = false := by revert i; decide
  simp only [writeAt, BitVec.getElem_extractLsb', BitVec.getLsbD_or, BitVec.getLsbD_and,
    h1, h2, Bool.and_false, Bool.and_true, Bool.or_false]

/-- The low half of a sum is the sum of the low halves. -/
theorem low_add (a b : BitVec 32) :
    (a + b).extractLsb' 0 16 = a.extractLsb' 0 16 + b.extractLsb' 0 16 := by
  apply BitVec.eq_of_toNat_eq
  simp only [BitVec.extractLsb'_toNat, BitVec.toNat_add, Nat.shiftRight_zero]
  omega

/-- The count register read at 16 bits. -/
theorem readAt_toNat (r : BitVec 32) : (readAt .a16 r).toNat = r.toNat % 65536 := by
  have : (readAt .a16 r).toNat = r.toNat &&& (2 ^ 16 - 1) := by simp [readAt]
  rw [this, Nat.and_two_pow_sub_one_eq_mod]

end Sys2Proof.Machine
end

