-- ==== Sys2Proof/Laws/Requests.lean ====
section
/-! SUPPORT. What keeps a pending request: said once for each access to a chip or peripheral and for the
repeat driver, with no other agent acting. -/

namespace Sys2Proof.Machine

/-- Line `n` is pending. -/
def Requested (n : Nat) (s : State) : Prop := (s.chip (lineChip n)).request.getLsbD (lineIndex n) = true

/-- A pending line `n` stays pending; what decides where the next access goes stays too. -/
def KeepsRequest (n : Nat) (s t : State) : Prop :=
  (Requested n s → Requested n t) ∧ t.agentOps = s.agentOps ∧ t.outMap = s.outMap

/-- If the outcome is a next state, it keeps a pending line `n`. -/
def OutKeepsRequest (n : Nat) (s : State) (o : Out) : Prop := ∀ t, o = .next t → KeepsRequest n s t

/-- A byte written to the device is no initialization byte to the chip of line `n`. -/
def SparesRequest (n : Nat) (d : Device) (p : Port) (v : Byte) : Prop :=
  ¬(d = .chip (lineChip n) ∧ isDataPort p = false ∧ v.getLsbD 4 = true)

variable {n : Nat} {s t : State}

theorem KeepsRequest.refl : KeepsRequest n s s := ⟨id, rfl, rfl⟩

theorem KeepsRequest.trans {a b c : State} (h : KeepsRequest n a b) (h' : KeepsRequest n b c) :
    KeepsRequest n a c :=
  ⟨fun x => h'.1 (h.1 x), h'.2.1.trans h.2.1, h'.2.2.trans h.2.2⟩

/-- A change that leaves the request register of the line's chip alone. -/
theorem KeepsRequest.of_chip (hr : (t.chip (lineChip n)).request = (s.chip (lineChip n)).request)
    (ha : t.agentOps = s.agentOps) (ho : t.outMap = s.outMap) : KeepsRequest n s t := by
  refine ⟨?_, ha, ho⟩
  unfold Requested
  rw [hr]
  exact id

/-- A change that leaves both request registers alone. -/
theorem KeepsRequest.of_same (hm : t.master.request = s.master.request)
    (hs : t.slave.request = s.slave.request) (ha : t.agentOps = s.agentOps) (ho : t.outMap = s.outMap) :
    KeepsRequest n s t :=
  .of_chip (by cases lineChip n <;> assumption) ha ho

theorem OutKeepsRequest.next (h : KeepsRequest n s t) : OutKeepsRequest n s (.next t) := by
  rintro u ⟨⟩
  exact h

theorem OutKeepsRequest.mapNext {o : Out} {f : State → State} (h : OutKeepsRequest n s o)
    (hf : ∀ t, KeepsRequest n t (f t)) : OutKeepsRequest n s (mapNext o f) := by
  intro u hu
  cases o with
  | next t => cases hu; exact (h t rfl).trans (hf t)
  | fault r => cases hu
  | refused r => cases hu

theorem OutKeepsRequest.andThen {o : Out} {f : State → Out} (ha : s.agentOps = [])
    (h : OutKeepsRequest n s o) (hf : ∀ t, t.agentOps = [] → OutKeepsRequest n t (f t)) :
    OutKeepsRequest n s (andThen o f) := by
  intro u hu
  cases o with
  | next t => exact (h t rfl).trans (hf t ((h t rfl).2.1.trans ha) u hu)
  | fault r => cases hu
  | refused r => cases hu

/-! ### The accesses -/

theorem report_keepsRequest (v : Violation) : OutKeepsRequest n s (report v s) := by
  unfold report
  split
  · rintro t ⟨⟩
  · exact .next (.of_same rfl rfl rfl rfl)

theorem reportOptional_keepsRequest (v : Violation) : KeepsRequest n s (reportOptional v s) := by
  unfold reportOptional
  split <;> exact .of_same rfl rfl rfl rfl

theorem clearInService_keepsRequest (c : Chip) (i : Nat) : KeepsRequest n s (clearInService c i s) := by
  cases c <;> exact .of_same rfl rfl rfl rfl

/-- An initialization byte to the other chip. -/
theorem initChip_keepsRequest {c : Chip} (v : Byte) (hc : c ≠ lineChip n) :
    KeepsRequest n s (initChip c v s) := by
  cases c <;> (refine .of_chip ?_ rfl rfl; cases hl : lineChip n) <;>
    first | exact absurd hl.symm hc | rfl

/-- A raise of any line. -/
theorem raiseLine_keepsRequest (k : Nat) : KeepsRequest n s (raiseLine k s) := by
  refine ⟨?_, ?_, ?_⟩
  · unfold Requested raiseLine
    split <;> cases lineChip n <;> simp [setRequest, recompute, setBit_getLsbD] <;> exact fun h => .inl h
  all_goals unfold raiseLine; split <;> rfl

theorem chipOut8_keepsRequest {c : Chip} {p : Port} {v : Byte} (h : SparesRequest n (.chip c) p v) :
    OutKeepsRequest n s (chipOut8 c p v s) := by
  unfold chipOut8 writeCommandByte0 writeCommandByte1 endNonSpecific endSpecific
  split
  · split
    · cases c <;> exact .next (.of_same rfl rfl rfl rfl)
    split
    · cases c <;> exact .next (.of_same rfl rfl rfl rfl)
    · cases c <;> exact .next (.of_same rfl rfl rfl rfl)
  rename_i hd
  split
  · rename_i hv
    exact .next (initChip_keepsRequest v fun e => h ⟨by rw [e], by simpa using hd, hv⟩)
  split
  · split
    · exact report_keepsRequest _
    split
    · exact report_keepsRequest _
    · cases c <;> exact .next (.of_same rfl rfl rfl rfl)
  split
  · split
    · exact report_keepsRequest _
    · exact .next (clearInService_keepsRequest _ _)
  split
  · exact .next (clearInService_keepsRequest _ _)
  · exact report_keepsRequest _

theorem deviceOut8_keepsRequest {d : Device} {p : Port} {v : Byte} (h : SparesRequest n d p v) :
    OutKeepsRequest n s (deviceOut8 d p v s) := by
  cases d with
  | chip c => exact chipOut8_keepsRequest h
  | peripheral k => exact .next (.of_same rfl rfl rfl rfl)

theorem deviceOut16_keepsRequest {d : Device} {p : Port} {v : BitVec 16} (ha : s.agentOps = [])
    (h0 : SparesRequest n d p (lowByte v)) (h1 : SparesRequest n d (nextPort p) (highByte v)) :
    OutKeepsRequest n s (deviceOut16 d p v s) := by
  unfold deviceOut16
  split
  · exact .next (.of_same rfl rfl rfl rfl)
  · refine (deviceOut8_keepsRequest h0).andThen ha fun t ht => ?_
    rw [point_of_nil ht]
    exact deviceOut8_keepsRequest h1

theorem deviceOut32_keepsRequest {d : Device} {p : Port} {v : BitVec 32} (ha : s.agentOps = [])
    (h0 : SparesRequest n d p (lowByte (lowHalf v)))
    (h1 : SparesRequest n d (nextPort p) (highByte (lowHalf v)))
    (h2 : SparesRequest n d (nextWordPort p) (lowByte (highHalf v)))
    (h3 : SparesRequest n d (nextPort (nextWordPort p)) (highByte (highHalf v))) :
    OutKeepsRequest n s (deviceOut32 d p v s) := by
  unfold deviceOut32
  split
  · exact .next (.of_same rfl rfl rfl rfl)
  · refine (deviceOut16_keepsRequest ha h0 h1).andThen ha fun t ht => ?_
    rw [point_of_nil ht]
    exact deviceOut16_keepsRequest ht h2 h3

/-- Whatever a port read does. -/
theorem reads_keepRequest (ha : s.agentOps = []) (h : Chain ReadChange s t) : KeepsRequest n s t := by
  refine h.relates (R := fun a b => a.agentOps = [] → KeepsRequest n a b) (fun _ _ => .refl)
    (fun a b c h h' ha => (h ha).trans (h' ((h ha).2.1.trans ha))) ?_ ha
  intro a b hc ha
  cases hc with
  | violation v => exact .of_same rfl rfl rfl rfl
  | call e => exact .of_same rfl rfl rfl rfl
  | reply => unfold takeReply; split <;> exact .of_same rfl rfl rfl rfl
  | point => rw [point_of_nil ha]; exact .refl

/-- A write to a port that the chip of the line does not own. -/
theorem portWriteWide_keepsRequest {w : Width} {p : Port} {v : BitVec 32} (ha : s.agentOps = [])
    (h : s.outMap.lookup p ≠ some (.chip (lineChip n))) : OutKeepsRequest n s (portWriteWide w p v s) := by
  have spare : ∀ {d : Device} {q : Port} {b : Byte}, s.outMap.lookup p = some d → SparesRequest n d q b :=
    fun hd h' => h (by rw [hd, h'.1])
  cases w
  all_goals
    simp only [portWriteWide, portWrite8, portWrite16, portWrite32]
    split
  · exact deviceOut8_keepsRequest (spare ‹_›)
  · exact .next (reportOptional_keepsRequest _)
  · exact deviceOut16_keepsRequest ha (spare ‹_›) (spare ‹_›)
  · exact .next (reportOptional_keepsRequest _)
  · exact deviceOut32_keepsRequest ha (spare ‹_›) (spare ‹_›) (spare ‹_›) (spare ‹_›)
  · exact .next (reportOptional_keepsRequest _)

/-! ### The repeat driver -/

/-- The driver writes to no port of the chip of line `n`. -/
def DriverSpares (n : Nat) (j : RepInputs) (s : State) : Prop :=
  ¬(j.kind = .portOut ∧ s.outMap.lookup s.core.portReg = some (.chip (lineChip n)))

theorem takeBody_keepsRequest : KeepsRequest n s (takeBody s).2 := by
  unfold takeBody
  split <;> exact .of_same rfl rfl rfl rfl

theorem body_keepsRequest {j : RepInputs} (ha : s.agentOps = []) (h : DriverSpares n j s) :
    OutKeepsRequest n s (body j s) := by
  have called : ∀ e, KeepsRequest n s (s.pushEvent e) := fun e => .of_same rfl rfl rfl rfl
  unfold body
  cases hk : j.kind
  case portIn =>
    rintro t ⟨⟩
    exact ((called _).trans (reads_keepRequest ha (portReadWide_chain j.width s.core.portReg
      (s.pushEvent (.body .portIn j.width j.addrSize s.core.srcIndex s.core.dstIndex))))).trans
      (.of_same rfl rfl rfl rfl)
  case portOut =>
    intro t ht
    have hb := (called (.body .portOut j.width j.addrSize s.core.srcIndex s.core.dstIndex)).trans
      takeBody_keepsRequest
    refine hb.trans (portWriteWide_keepsRequest (hb.2.1.trans ha) ?_ t ht)
    rw [hb.2.2]
    exact fun e => h ⟨hk, e⟩
  case compare => exact .next ((called _).trans (takeBody_keepsRequest.trans (.of_same rfl rfl rfl rfl)))
  case scan => exact .next ((called _).trans (takeBody_keepsRequest.trans (.of_same rfl rfl rfl rfl)))
  all_goals exact .next (called _)

theorem element_keepsRequest {j : RepInputs} {b : Bool} (ha : s.agentOps = []) (h : DriverSpares n j s) :
    OutKeepsRequest n s (element j b s) :=
  (body_keepsRequest ha h).mapNext fun _ => .of_same rfl rfl rfl rfl

theorem driverLoop_keepsRequest {j : RepInputs} {k : Nat} (ha : s.agentOps = []) (h : DriverSpares n j s) :
    OutKeepsRequest n s (driverLoop j k s) := by
  induction k generalizing s with
  | zero => exact .next (.of_same rfl rfl rfl rfl)
  | succ k ih =>
    simp only [driverLoop, point_of_nil ha]
    split
    · exact .next (.of_same rfl rfl rfl rfl)
    · intro t ht
      cases he : element j true s with
      | fault r => rw [he] at ht; cases ht
      | refused r => rw [he] at ht; cases ht
      | next u =>
        have hu := element_keepsRequest ha h u he
        rw [he] at ht
        simp only [Machine.andThen] at ht
        split at ht
        · cases ht; exact hu.trans (.of_same rfl rfl rfl rfl)
        · refine hu.trans (ih (hu.2.1.trans ha) ?_ t ht)
          unfold DriverSpares
          rw [hu.2.2, (element_core he).1]
          exact h

end Sys2Proof.Machine
end

