-- ==== Sys2Proof/Laws/Returns.lean ====
section
/-! SUPPORT. Under the default policy no operation stops, and none writes the configuration. -/

namespace Sys2Proof.Machine

/-- The operation answers a next state with the same configuration. -/
def Returns (s : State) (o : Out) : Prop := ∃ t, o = .next t ∧ t.cfg = s.cfg

/-- The default policy (60_exceptions.md R171). -/
def Lenient (s : State) : Prop := s.cfg.policy = .reportAndContinue

theorem Returns.mapNext {s : State} {o : Out} {f : State → State} (h : Returns s o)
    (hf : ∀ t, (f t).cfg = t.cfg) : Returns s (mapNext o f) := by
  obtain ⟨t, rfl, h⟩ := h
  exact ⟨f t, rfl, (hf t).trans h⟩

theorem Returns.andThen {s : State} {o : Out} {f : State → Out} (h : Returns s o)
    (hf : ∀ t, t.cfg = s.cfg → Returns t (f t)) : Returns s (andThen o f) := by
  obtain ⟨t, rfl, h⟩ := h
  obtain ⟨u, h1, h2⟩ := hf t h
  exact ⟨u, h1, h2.trans h⟩

/-- No instruction of the guest writes the configuration. -/
theorem guest_cfg {s t : State} (h : Chain GuestChange s t) : t.cfg = s.cfg := by
  refine h.relates (R := fun a b => b.cfg = a.cfg) (fun _ => rfl) (fun _ _ _ h h' => h'.trans h) ?_
  intro a b hc
  cases hc with
  | bus h =>
    cases h with
    | read h =>
      cases h with
      | violation v => rfl
      | call e => rfl
      | reply => unfold takeReply; split <;> rfl
      | point => exact point_cfg a
    | flags c r hq hm => exact setChip_cfg a c r
    | lines m sl => rfl
  | result r => rfl
  | event e => rfl
  | core u => rfl
  | body => unfold takeBody; split <;> rfl
  | nextIp => unfold takeNextIp; split <;> rfl

theorem Returns.next {s t : State} (h : Chain BusChange s t) : Returns s (.next t) :=
  ⟨t, rfl, guest_cfg h.toGuest⟩

theorem report_returns {s : State} (hp : Lenient s) (v : Violation) :
    report v s = .next (s.pushViolation v) := by
  unfold Lenient at hp
  simp [report, hp]

theorem report_ok {s : State} (hp : Lenient s) (v : Violation) : Returns s (report v s) :=
  ⟨_, report_returns hp v, rfl⟩

theorem endNonSpecific_ok {s : State} (hp : Lenient s) (c : Chip) : Returns s (endNonSpecific c s) := by
  unfold endNonSpecific
  split
  · exact report_ok hp _
  · exact .next (clearInService_chain _ _ _)

theorem chipOut8_ok {s : State} (hp : Lenient s) (c : Chip) (p : Port) (v : Byte) :
    Returns s (chipOut8 c p v s) := by
  unfold chipOut8 writeCommandByte0
  split
  · exact .next (writeCommandByte1_chain _ _ _)
  split
  · exact .next (recompute_setChip_chain _ _ _)
  split
  · split
    · exact report_ok hp _
    split
    · exact report_ok hp _
    · exact .next (statusMode_chain _ _ _ _ _ _)
  split
  · exact endNonSpecific_ok hp c
  split
  · exact .next (clearInService_chain _ _ _)
  · exact report_ok hp _

theorem deviceOut8_ok {s : State} (hp : Lenient s) (d : Device) (p : Port) (v : Byte) :
    Returns s (deviceOut8 d p v s) := by
  cases d with
  | chip c => exact chipOut8_ok hp c p v
  | peripheral k => exact ⟨_, rfl, rfl⟩

/-- The second half of a composed write, after other agents have acted. -/
theorem Returns.after_point {t : State} {f : State → Out} (hp : Lenient t)
    (hf : ∀ u, Lenient u → Returns u (f u)) : Returns t (f (point t)) := by
  obtain ⟨u, h1, h2⟩ := hf (point t) (by unfold Lenient; rw [point_cfg]; exact hp)
  exact ⟨u, h1, h2.trans (point_cfg t)⟩

theorem Lenient.of_cfg {s t : State} (hp : Lenient s) (h : t.cfg = s.cfg) : Lenient t := by
  unfold Lenient
  rw [h]
  exact hp

theorem deviceOut16_ok {s : State} (hp : Lenient s) (d : Device) (p : Port) (v : BitVec 16) :
    Returns s (deviceOut16 d p v s) := by
  unfold deviceOut16
  split
  · exact ⟨_, rfl, rfl⟩
  · exact (deviceOut8_ok hp _ _ _).andThen fun t ht =>
      .after_point (hp.of_cfg ht) fun u hu => deviceOut8_ok hu _ _ _

theorem deviceOut32_ok {s : State} (hp : Lenient s) (d : Device) (p : Port) (v : BitVec 32) :
    Returns s (deviceOut32 d p v s) := by
  unfold deviceOut32
  split
  · exact ⟨_, rfl, rfl⟩
  · exact (deviceOut16_ok hp _ _ _).andThen fun t ht =>
      .after_point (hp.of_cfg ht) fun u hu => deviceOut16_ok hu _ _ _

theorem portWrite8_ok {s : State} (hp : Lenient s) (p : Port) (v : Byte) :
    Returns s (portWrite8 p v s) := by
  unfold portWrite8
  split
  · exact deviceOut8_ok hp _ _ _
  · exact .next (reportOptional_chain _ _).toBus

theorem portWrite16_ok {s : State} (hp : Lenient s) (p : Port) (v : BitVec 16) :
    Returns s (portWrite16 p v s) := by
  unfold portWrite16
  split
  · exact deviceOut16_ok hp _ _ _
  · exact .next (reportOptional_chain _ _).toBus

theorem portWrite32_ok {s : State} (hp : Lenient s) (p : Port) (v : BitVec 32) :
    Returns s (portWrite32 p v s) := by
  unfold portWrite32
  split
  · exact deviceOut32_ok hp _ _ _
  · exact .next (reportOptional_chain _ _).toBus

theorem portWriteWide_ok {s : State} (hp : Lenient s) (w : Width) (p : Port) (v : BitVec 32) :
    Returns s (portWriteWide w p v s) := by
  cases w
  · exact portWrite8_ok hp _ _
  · exact portWrite16_ok hp _ _
  · exact portWrite32_ok hp _ _

theorem body_ok {s : State} (hp : Lenient s) (j : RepInputs) : Returns s (body j s) := by
  have key : ∃ t, body j s = .next t := by
    unfold body
    cases j.kind
    case portOut =>
      have hc := guest_cfg ((pushEvent_chain s
        (.body .portOut j.width j.addrSize s.core.srcIndex s.core.dstIndex)).trans (takeBody_chain _))
      obtain ⟨t, h, _⟩ := portWriteWide_ok (hp.of_cfg hc) j.width _ _
      exact ⟨t, h⟩
    all_goals exact ⟨_, rfl⟩
  obtain ⟨t, h⟩ := key
  exact ⟨t, h, guest_cfg (body_reaches j s t h)⟩

theorem element_ok {s : State} (hp : Lenient s) (j : RepInputs) (counted : Bool) :
    Returns s (element j counted s) := (body_ok hp j).mapNext fun _ => rfl

end Sys2Proof.Machine
end

