-- ==== Sys2Proof/Tests/Slice0.lean ====
section
/-! SUPPORT. The model's own tests: ill-formed terms refused, command words written out from the spec's
encodings, and single steps with the results of 95_test_vectors.md (the vector is named in each docstring). -/

namespace Sys2Proof.Tests

open Sys2Proof.Machine Sys2Proof.Statements

/-- The next state satisfies a check. -/
def nextIs (o : Out) (p : State → Bool) : Bool :=
  match o with
  | .next t => p t
  | _ => false

/-- The next state that a check accepted. -/
theorem next_of {o : Out} {p : State → Bool} (h : nextIs o p = true) : ∃ t, o = .next t ∧ p t = true := by
  cases o with
  | next t => exact ⟨t, rfl, h⟩
  | fault r => cases h
  | refused r => cases h

/-- A machine with known vector bases, everything else as after reset. -/
def start : State :=
  { State.reset with
    master := ChipRegs.reset 0x08
    slave := ChipRegs.reset 0x70 }

/-- `start` with given registers, the summary recomputed. -/
def withLines (mRequest mMask mInService sRequest sMask sInService : Byte) : State :=
  recompute { start with
    master := { start.master with request := mRequest, mask := mMask, inService := mInService }
    slave := { start.slave with request := sRequest, mask := sMask, inService := sInService } }

/-- The strict policy. -/
def strict (s : State) : State := { s with cfg := { s.cfg with policy := .fault } }

/-- A state whose next transaction is a frame. -/
def presenting (s : State) (bytes : List Byte) : State := { s with inbox := [.frame bytes] }

/-- Every field but the free vector bases, the result and the log. -/
def lines (s : State) : List Nat :=
  [s.master.request.toNat, s.master.mask.toNat, s.slave.request.toNat, s.slave.mask.toNat, s.summary.toNat]

/-! ### Well-formedness refuses ill-formed terms -/

/-- Bit 4 clear is no initialization byte (R62). -/
theorem test_wf_icw1 : (Instr.icw1 .M 0x0F).wf = false := by decide

/-- 0x0B has bit 2 clear: no polling request (R64). -/
theorem test_wf_ocw3Poll : (Instr.ocw3Poll .M 0x0B).wf = false := by decide

/-- 0x8C has bit 2 set: a polling request, not the bit-7 row (R64). -/
theorem test_wf_ocw3Bit7 : (Instr.ocw3Bit7 .S 0x8C).wf = false := by decide

/-- 0x20 is the non-specific end-of-interrupt (R63). -/
theorem test_wf_ocw2_sentinel : (Instr.ocw2Unrecognized .M 0x20).wf = false := by decide

/-- 0x63 is a specific end-of-interrupt (R63). -/
theorem test_wf_ocw2_specific : (Instr.ocw2Unrecognized .M 0x63).wf = false := by decide

/-- A well-formed term of each checked row is accepted. -/
theorem test_wf_accepts :
    (Instr.icw1 .M 0x13).wf && (Instr.ocw3Poll .M 0x8C).wf && (Instr.ocw3Bit7 .M 0xE8).wf
      && (Instr.ocw2Unrecognized .M 0x21).wf = true := by decide

/-! ### Words of the spec's encodings -/

/-- `0001 0011`: R62, S6. -/
theorem test_word_icw1 : decodeTableWord 8 0b00010011 = some (.icw1 .M 0x13) := by decide

/-- `0001 1111`: bit 4 outranks bits 3 and 2 (95 §2.1). -/
theorem test_word_icw1_outranks : decodeTableWord 8 0b00011111 = some (.icw1 .M 0x1F) := by decide

/-- `1000 1100`: bit 2 is tested before bit 7 (95 §2.1). -/
theorem test_word_ocw3Poll : decodeTableWord 8 0b10001100 = some (.ocw3Poll .M 0x8C) := by decide

/-- `1110 1000` (95 §2.1). -/
theorem test_word_ocw3Bit7 : decodeTableWord 8 0b11101000 = some (.ocw3Bit7 .M 0xE8) := by decide

/-- `0100 1011`: special mask off, read `in_service` (95 §2.1). -/
theorem test_word_ocw3 : decodeTableWord 8 0b01001011 = some (.ocw3 .M true false true true) := by decide

/-- `0010 1000`: SMM without ESMM (95 §2.1). -/
theorem test_word_ocw3_smm : decodeTableWord 8 0b00101000 = some (.ocw3 .M false true false false) := by
  decide

/-- `0010 0000` (R63). -/
theorem test_word_eoi : decodeTableWord 8 0b00100000 = some (.eoi .M) := by decide

/-- `0110 0101`: index 5 (R63, K12). -/
theorem test_word_seoi : decodeTableWord 8 0b01100101 = some (.seoi .M 5) := by decide

/-- `0010 0001` is not the sentinel (R63). -/
theorem test_word_ocw2Unrecognized : decodeTableWord 8 0b00100001 = some (.ocw2Unrecognized .M 0x21) := by
  decide

/-- The slave's data port in the vector-base phase: `0111 0111` gives the base `01110` (R65, K4). -/
theorem test_word_icw2 : decode ⟨.mask, .vectorBase⟩ [3, 0b01110111] = .ok (.icw2 .S 0b01110 0b111) := by
  rfl

/-- The same byte in the two other phases (R65). -/
theorem test_word_icw4_ocw1 :
    decode ⟨.mask, .fourthByte⟩ [3, 0b01110111] = .ok (.icw4 .S 0x77)
      ∧ decode ⟨.mask, .fourthByte⟩ [1, 0b01110111] = .ok (.ocw1 .M 0x77) := ⟨rfl, rfl⟩

/-- The one port bit of a chip read (R60, R66). -/
theorem test_word_reads :
    decode ⟨.mask, .mask⟩ [4, 0] = .ok (.readStatus .M)
      ∧ decode ⟨.mask, .mask⟩ [5, 1] = .ok (.readMask .S) := ⟨rfl, rfl⟩

/-- Lines, queries and delivery. -/
theorem test_word_lines :
    decode ⟨.mask, .mask⟩ [6, 10] = .ok (.raise 10) ∧ decode ⟨.mask, .mask⟩ [7, 12] = .ok (.lower 12)
      ∧ decode ⟨.mask, .mask⟩ [8, 15] = .ok (.query 15) ∧ decode ⟨.mask, .mask⟩ [12, 1] = .ok .service
      ∧ decode ⟨.mask, .mask⟩ [13, 0x04, 0x01] = .ok (.encode 0x0104)
      ∧ decode ⟨.mask, .mask⟩ [14, 1] = .ok (.ignore true) := ⟨rfl, rfl, rfl, rfl, rfl, rfl⟩

/-- `pppppppppppppppp` then `vvvvvvvv`, the port in the high bits (opcode_table.json). -/
theorem test_word_out8 : decodeTableWord 24 0b000000000010000000010001 = some (.out8 0x0020 0x11) := by
  decide

/-- OUT16 0x0020, 0x0811 (B20). -/
theorem test_word_out16 : decodeTableWord 32 0x00200811 = some (.out16 0x0020 0x0811) := by decide

/-- OUT32 0x1234, 0xDEADBEEF (R89). -/
theorem test_word_out32 : decodeTableWord 48 0x1234DEADBEEF = some (.out32 0x1234 0xDEADBEEF) := by decide

/-- IN8 0x0021. -/
theorem test_word_in8 : decodeTableWord 16 0x0021 = some (.in8 0x0021) := by decide

/-- `p…p dd` with direction `10`, and the two handle bytes. -/
theorem test_word_register :
    decode ⟨.mask, .mask⟩ [15, 0b01000010, 0b00001100, 0, 0, 7]
      = .ok (.register 0x0310 (.peripheral 7) .readWrite) := by rfl

/-- The operand word `1` of UNREGISTER and RESET, with the model's own handle bytes; a lookup's port. -/
theorem test_word_bus :
    decode ⟨.mask, .mask⟩ [16, 1, 1, 0] = .ok (.unregister (.chip .M))
      ∧ decode ⟨.mask, .mask⟩ [25, 1, 2, 0] = .ok (.reset .machine)
      ∧ decode ⟨.mask, .mask⟩ [17, 0x34, 0x12] = .ok (.lookupInput 0x1234)
      ∧ decode ⟨.mask, .mask⟩ [21, 0x34, 0x12] = .ok (.in32 0x1234) := ⟨rfl, rfl, rfl, rfl⟩

/-- `rrkkkwwad` = `01 100 01 0 0`: rep_nz, scan, width 2, 16 bits, up (R150, RV4). -/
theorem test_word_rep :
    decode ⟨.mask, .mask⟩ [26, 0b11000100, 0b0, 0, 0x10, 0, 0, 2, 0x10, 0, 0]
      = .ok (.rep ⟨.repNz, .scan, .w16, .a16, .up, 0x1000, 0x1002⟩) := by rfl

/-- A frame with a byte too many, an unknown selector and a reserved direction are refused by name. -/
theorem test_word_refused :
    decode ⟨.mask, .mask⟩ [0, 0x13, 0] = .error (.wrongLength .mcmd)
      ∧ decode ⟨.mask, .mask⟩ [27, 0] = .error (.unknownSelector 27)
      ∧ decode ⟨.mask, .mask⟩ [15, 0b00000011, 0, 0, 0, 7] = .error .reservedDirection := ⟨rfl, rfl, rfl⟩

/-! ### The command protocol -/

/-- K1: everything cleared but `vector_base`; bit 0 asks for a fourth byte. -/
theorem test_icw1 :
    nextIs (exec (.icw1 .M 0x11) { withLines 0xFF 0xAA 0x0F 0 0 0 with
        master := ⟨0xFF, 0xAA, 0x0F, 0x40, false, false, true, true⟩ })
      (fun t => t.master == ⟨0x00, 0x00, 0x00, 0x40, true, true, false, false⟩ && t.summary == 0) = true := by
  decide

/-- K23: line 9 stays pending when the master is initialized. -/
theorem test_icw1_other_chip :
    nextIs (exec (.icw1 .M 0x10) (withLines 0x04 0 0 0x02 0 0))
      (fun t => lines t == [0, 0, 2, 0, 0x0200] && !t.master.awaitIcw4) = true := by decide

/-- K21: V2 and nothing else. -/
theorem test_ocw3Poll :
    nextIs (exec (.ocw3Poll .M 0x0C) start)
      (fun t => t.violLog == [.pollUnsupported .M 0x0C] && t.master == start.master) = true := by decide

/-- 95 §2.1: 0x8A is V1 and does not select a register. -/
theorem test_ocw3Bit7 :
    nextIs (exec (.ocw3Bit7 .M 0x8A) start)
      (fun t => t.violLog == [.unrecognizedCommand .M 0x8A] && t.master == start.master) = true := by decide

/-- 0x6B sets the special mask and selects `in_service` (R113). -/
theorem test_ocw3 :
    nextIs (exec (.ocw3 .M true true true true) start)
      (fun t => t.master.specialMask && t.master.readIsr) = true := by decide

/-- K19: without RR the selection stays. -/
theorem test_ocw3_keeps :
    nextIs (exec (.ocw3 .M false false false false)
        { start with master := { start.master with readIsr := true } }) (·.master.readIsr) = true := by decide

/-- K11: bit 0 goes, the cascade bit stays. -/
theorem test_eoi :
    nextIs (exec (.eoi .M) (withLines 0 0 0x05 0 0 0)) (·.master.inService == 0x04) = true := by decide

/-- K10: nothing in service is V3. -/
theorem test_eoi_nothing :
    nextIs (exec (.eoi .S) start) (·.violLog == [.eoiNothingInService .S]) = true := by decide

/-- K12. -/
theorem test_seoi :
    nextIs (exec (.seoi .M 5) (withLines 0 0 0x28 0 0 0)) (·.master.inService == 0x08) = true := by decide

/-- K13: a clear bit, no report. -/
theorem test_seoi_clear :
    nextIs (exec (.seoi .M 1) (withLines 0 0 0x28 0 0 0))
      (fun t => t.master.inService == 0x28 && t.violLog == []) = true := by decide

/-- K22. -/
theorem test_ocw2Unrecognized :
    nextIs (exec (.ocw2Unrecognized .M 0xA0) (withLines 0 0 0x28 0 0 0))
      (fun t => t.violLog == [.unrecognizedCommand .M 0xA0] && t.master.inService == 0x28) = true := by decide

/-- X7: the same byte stops the run under the strict policy. -/
theorem test_strict_policy :
    exec (.ocw2Unrecognized .M 0x00) (strict start)
      = .fault (.violation (.unrecognizedCommand .M 0x00)) := by rfl

/-- K3: 0x0F gives the base 0x08. -/
theorem test_icw2 :
    nextIs (exec (.icw2 .M 0b00001 0b111) { start with master := { start.master with awaitIcw2 := true } })
      (fun t => t.master.vectorBase == 0x08 && !t.master.awaitIcw2) = true := by decide

/-- K5: the byte is consumed. -/
theorem test_icw4 :
    nextIs (exec (.icw4 .M 0xFF) { start with master := { start.master with awaitIcw4 := true } })
      (fun t => t.master.mask == 0 && !t.master.awaitIcw4) = true := by decide

/-- S8: masking line 3 takes it out of the summary and keeps the request. -/
theorem test_ocw1 :
    nextIs (exec (.ocw1 .M 0x08) (withLines 0x08 0 0 0 0 0)) (lines · == [8, 8, 0, 0, 0]) = true := by decide

/-- K16. -/
theorem test_readStatus :
    nextIs (exec (.readStatus .M) (withLines 0x01 0 0x08 0 0 0)) (·.result == .byte 0x01) = true := by decide

/-- Z2: the mask of the slave after reset. -/
theorem test_readMask :
    nextIs (exec (.readMask .S) State.reset) (·.result == .byte 0x00) = true := by decide

/-! ### Lines and queries -/

/-- L3. -/
theorem test_raise :
    nextIs (exec (.raise 10) (withLines 0x01 0 0 0 0 0)) (lines · == [0x05, 0, 0x04, 0, 0x0405]) = true := by
  decide

/-- L9: V4. -/
theorem test_raise_out_of_range :
    nextIs (exec (.raise 16) start)
      (fun t => t.violLog == [.lineOutOfRange 16] && lines t == [0, 0, 0, 0, 0]) = true := by decide

/-- L5: one of several slave lines. -/
theorem test_lower :
    nextIs (exec (.lower 10) (withLines 0x05 0 0 0x14 0 0)) (lines · == [0x05, 0, 0x10, 0, 0x1005]) = true := by
  decide

/-- L12: a stale cascade bit goes. -/
theorem test_lower_last :
    nextIs (exec (.lower 9) (withLines 0x04 0 0 0 0 0)) (lines · == [0, 0, 0, 0, 0]) = true := by decide

/-- L14: the mask is not consulted. -/
theorem test_query :
    nextIs (exec (.query 15) (withLines 0x80 0x80 0 0x80 0x80 0)) (·.result == .bit true) = true := by decide

/-- L14. -/
theorem test_query_clear :
    nextIs (exec (.query 3) (withLines 0x80 0x80 0 0x80 0x80 0)) (·.result == .bit false) = true := by decide

/-- L11: only the cascade bit is pending. -/
theorem test_anyPending :
    nextIs (exec .anyPending (withLines 0x04 0 0 0x02 0xFF 0)) (·.result == .bit true) = true := by decide

/-- L11. -/
theorem test_deliverable :
    nextIs (exec .deliverable (withLines 0x04 0 0 0x02 0xFF 0)) (·.result == .bit false) = true := by decide

/-- L15. -/
theorem test_recompute :
    nextIs (exec .recompute { withLines 0x09 0x08 0 0x40 0 0 with summary := 0xFFFF })
      (·.summary == 0x4001) = true := by decide

/-! ### Delivery -/

/-- SV2: the slave's last line; the cascade request stays. -/
theorem test_service :
    nextIs (exec .service (withLines 0x04 0 0 0x40 0 0))
      (fun t => t.result == .vector (some 0x76) && lines t == [0x04, 0, 0, 0, 0x0004]
        && t.slave.inService == 0x40 && t.master.inService == 0x04
        && t.events == [.interrupt 0x76 .external start.core.ip, .setRunning]) = true := by decide

/-- SV3: the cascade line is never delivered. -/
theorem test_service_cascade :
    nextIs (exec .service (withLines 0x04 0 0 0 0 0))
      (fun t => t.result == .vector none && t.events == [] && lines t == [0x04, 0, 0, 0, 0x0004]) = true := by
  decide

/-- E4 to E6 and E9. -/
theorem test_encode :
    encodeLine 0x000C = some 3 ∧ encodeLine 0x0104 = some 8 ∧ encodeLine 0x8008 = some 3
      ∧ encodeLine 0xFF80 = some 7 := by decide

/-- SV8. -/
theorem test_ignore :
    nextIs (andThen (exec (.ignore true) (withLines 0x01 0 0 0 0 0)) (exec .service))
      (fun t => t.result == .vector none && t.master.request == 0x01) = true := by decide

/-! ### The port bus -/

/-- The peripheral `dK` of 95 §2.5, its ports registered. -/
def withPeripheral : State :=
  { start with
    inMap := [(0x20, .chip .M), (0x300, .peripheral 7), (0x301, .peripheral 7), (0x310, .peripheral 7)]
    outMap := [(0x20, .chip .M), (0x300, .peripheral 7), (0x311, .peripheral 7)]
    deviceReplies := [0x00, 0x01, 0x02, 0x03] }

/-- B12: refused whole. -/
theorem test_register_refused :
    nextIs (exec (.register 0x0310 (.peripheral 9) .readWrite) withPeripheral)
      (fun t => t.result == .registered false && t.violLog == [.doubleRegistration 0x0310 .readWrite]
        && t.outMap == withPeripheral.outMap) = true := by decide

/-- B13: the other direction of the port is free. -/
theorem test_register :
    nextIs (exec (.register 0x0310 (.peripheral 9) .write) withPeripheral)
      (fun t => t.inMap.lookup 0x0310 == some (.peripheral 7)
        && t.outMap.lookup 0x0310 == some (.peripheral 9)) = true := by decide

/-- B14. -/
theorem test_unregister :
    nextIs (andThen (exec (.unregister (.peripheral 7)) withPeripheral) (exec (.in8 0x0301)))
      (fun t => t.result == .byte 0xFF && t.deviceCalls == []) = true := by decide

/-- B16. -/
theorem test_lookups :
    nextIs (exec (.lookupInput 0x0020) State.reset) (·.result == .owner (some (.chip .M)))
      && nextIs (exec (.lookupOutput 0x00A1) State.reset) (·.result == .owner (some (.chip .S)))
      && nextIs (exec (.lookupInput 0x0400) State.reset) (·.result == .owner none) = true := by decide

/-- B5: the junk value, and the optional record. -/
theorem test_in8 :
    nextIs (exec (.in8 0x0400) start)
      (fun t => t.result == .byte 0xFF && t.violLog == [.unregisteredPortRead 0x0400 .w8]) = true := by decide

/-- B17: status low, mask high. -/
theorem test_in16 :
    nextIs (exec (.in16 0x0020) (withLines 0x01 0xFB 0x08 0 0 0)) (·.result == .word 0xFB01) = true := by decide

/-- B3: bytes 0 to 3 of a peripheral, in ascending order. -/
theorem test_in32 :
    nextIs (exec (.in32 0x0300) withPeripheral)
      (fun t => t.result == .dword 0x03020100
        && t.deviceCalls == [.in8 7 0x300, .in8 7 0x301, .in8 7 0x302, .in8 7 0x303]) = true := by decide

/-- B8: a read-only port ignores a write. -/
theorem test_out8 :
    nextIs (exec (.out8 0x0310 0x55) withPeripheral)
      (fun t => t.deviceCalls == [] && t.violLog == [.unregisteredPortWrite 0x0310 .w8 0x55]) = true := by
  decide

/-- B20: an initialization byte and its vector base in one access. -/
theorem test_out16 :
    nextIs (exec (.out16 0x0020 0x0811) start)
      (fun t => t.master == ⟨0, 0, 0, 0x08, false, true, false, false⟩) = true := by decide

/-- B10: four bytes in ascending order. -/
theorem test_out32 :
    nextIs (exec (.out32 0x0300 0x11223344) withPeripheral)
      (·.deviceCalls == [.out8 7 0x300 0x44, .out8 7 0x301 0x33, .out8 7 0x302 0x22, .out8 7 0x303 0x11])
      = true := by decide

/-- R49: a raise between the two bytes of a composed read is seen by the second byte. -/
theorem test_in16_interleaved :
    nextIs (exec (.in16 0x0021) { start with agentOps := [[.raise 3]] }) (·.result == .word 0x0800) = true := by
  decide

/-! ### Reset -/

/-- Z1: the switch, the log and the maps stay. -/
theorem test_reset :
    nextIs (exec (.reset .machine) { start with
        cfg := { start.cfg with vbResetM := 0x11, vbResetS := 0x22 }
        master := ⟨0xFF, 0xFF, 0xFF, 0x08, true, true, true, true⟩
        ignoreAll := true, violLog := [.cascadeDesync, .cascadeDesync], summary := 0xFFFF })
      (fun t => t.master == ChipRegs.reset 0x11 && t.slave == ChipRegs.reset 0x22 && t.summary == 0
        && t.ignoreAll && t.violLog.length == 2 && t.inMap == PortMap.chipPorts) = true := by decide

/-- The default machine is the reset state (95 conventions, `Z`). -/
theorem test_build : State.build Config.default = some State.reset := by rfl

/-- R23, R216: two records of one peripheral, and a device on line 2, are refused; two peripherals on one line
(D32) are not. -/
theorem test_build_records :
    State.build { Config.default with devices := [⟨7, [], none, false, false⟩, ⟨7, [], some 3, false, false⟩] } = none
      ∧ State.build { Config.default with devices := [⟨7, [], some 2, false, false⟩] } = none
      ∧ (State.build { Config.default with
          devices := [⟨7, [], some 3, false, false⟩, ⟨8, [], some 3, false, false⟩] }).isSome = true :=
  ⟨rfl, rfl, rfl⟩

/-! ### The repeat driver -/

/-- The driver's registers. -/
def coreAt (count src dst : BitVec 32) (intEnable : Bool) : CoreSignals :=
  { CoreSignals.reset with
    count := count, srcIndex := src, dstIndex := dst, intEnable := intEnable, ip := 0x1000 }

/-- RV3 and P3: an interrupt before iteration 3. -/
theorem test_rep_abort :
    nextIs (exec (.rep ⟨.repNz, .move, .w16, .a16, .up, 0x1000, 0x1002⟩)
        { start with core := coreAt 5 0x100 0x200 true, agentOps := [[], [], [], [], [.raise 0]] })
      (fun t => t.result == .driver .abortedForInterrupt
        && t.core == { coreAt 3 0x104 0x204 true with cycles := 2, ip := 0x1000 }) = true := by decide

/-- RV4: the element that ends the repeat is counted. -/
theorem test_rep_scan :
    nextIs (exec (.rep ⟨.repNz, .scan, .w16, .a16, .up, 0x1000, 0x1002⟩)
        { start with core := coreAt 10 0 0x100 true
                     bodyResults := [⟨false, 0⟩, ⟨false, 0⟩, ⟨true, 0⟩, ⟨false, 0⟩] })
      (fun t => t.result == .driver .completed
        && t.core == { coreAt 7 0 0x106 true with cycles := 3, ip := 0x1002, zf := true }) = true := by decide

/-- RV1: without a modifier the count is not used; the index wraps at 16 bits. -/
theorem test_rep_none :
    nextIs (exec (.rep ⟨.none, .store, .w8, .a16, .up, 0x1000, 0x1002⟩)
        { start with core := coreAt 0 0 0xFFFF true })
      (fun t => t.core == { coreAt 0 0 0 true with cycles := 1, ip := 0x1002 }) = true := by decide

/-- RV11: only the low 16 bits of the registers change. -/
theorem test_rep_down :
    nextIs (exec (.rep ⟨.repNz, .load, .w32, .a16, .down, 0x1000, 0x1002⟩)
        { start with core := coreAt 0x00010002 0xAAAA0004 0 false })
      (fun t => t.core == { coreAt 0x00010000 0xAAAAFFFC 0 false with cycles := 2, ip := 0x1002 }) = true := by
  decide

/-- RV15: the words of a port-block transfer. -/
theorem test_rep_portOut :
    nextIs (exec (.rep ⟨.repNz, .portOut, .w16, .a16, .up, 0x1000, 0x1002⟩)
        { withPeripheral with core := { coreAt 2 0x10 0 false with portReg := 0x300 }
                              bodyResults := [⟨false, 0x1234⟩, ⟨false, 0x5678⟩] })
      (fun t => t.core.srcIndex == 0x14
        && t.deviceCalls == [.out8 7 0x300 0x34, .out8 7 0x301 0x12, .out8 7 0x300 0x78, .out8 7 0x301 0x56])
      = true := by decide

/-! ### The step -/

/-- A table word runs as the first instruction after reset. -/
theorem test_step_word :
    nextIs (step (State.reset.withFetchWord 8 0x13)) (fun t => t.master.awaitIcw2 && t.inbox == []) = true := by
  decide

/-- P3 steps 4 and 5: the abort, then the poll and the delivery at the boundary. -/
theorem test_step_poll :
    nextIs (step { start with
        core := coreAt 5 0x100 0x200 true, agentOps := [[.raise 0]]
        inbox := [.frame (encode (.rep ⟨.repNz, .move, .w16, .a16, .up, 0x1000, 0x1002⟩))] })
      (fun t => t.events == [.interrupt 0x08 .external 0x1000, .setRunning] && t.core.ip == 0x1000
        && t.master.inService == 0x01) = true := by decide

/-- R177: the delivery after a port read saves the address of the next instruction. -/
theorem test_step_next_ip :
    nextIs (step { withLines 0x02 0 0 0 0 0 with
        core := coreAt 0 0 0 true, nextIps := [0x1002, 0x1004], inbox := [.frame (encode (.in8 0x21))] })
      (fun t => t.events == [.interrupt 0x09 .external 0x1002, .setRunning] && t.core.ip == 0x1002
        && t.nextIps == [0x1004] && t.result == .byte 0) = true := by decide

/-- R56: the line is lowered between the poll and the call of `service()`, which then finds nothing. -/
theorem test_step_race :
    nextIs (step { withLines 0x02 0 0 0 0 0 with
        core := coreAt 0 0 0 true, agentOps := [[], [.lower 1]], inbox := [.frame (encode (.readMask .M))] })
      (fun t => t.events == [] && t.master.request == 0) = true := by decide

/-- R147, R186: a halted core is woken by an eligible line and runs its instruction only afterwards. -/
theorem test_step_halted :
    nextIs (step { withLines 0x02 0 0 0 0 0 with
        core := { coreAt 0 0 0 true with runState := .halted }, inbox := [.frame (encode (.readMask .M))] })
      (fun t => t.core.runState == .running && t.inbox.length == 1 && t.result == .none) = true := by decide

/-- R180: an internal cause touches nothing of the block. -/
theorem test_step_internal :
    nextIs (step { start with inbox := [.internalInterrupt 0x08] })
      (fun t => t.events == [.interrupt 0x08 .internal start.core.ip] && t.master == start.master) = true := by decide

/-! ### States and operands that meet the hypotheses of the statements -/

theorem witness_NonSpecificEoiClearsLowestBit :
    ((withLines 0 0 0x80 0 0 0).chip .M).inService ≠ 0 ∧ (start.chip .S).inService = 0
      ∧ start.cfg.policy = .reportAndContinue := by decide

theorem witness_ViolationsOnlyReport :
    start.cfg.policy = .reportAndContinue ∧ 15 < (16 : Byte).toNat := by decide

theorem witness_StrictPolicyStopsAtViolation :
    (strict start).cfg.policy = .fault ∧ 15 < (16 : Byte).toNat
      ∧ ((strict start).chip .M).inService = 0 := by decide

/-- The lines at both ends of both chips; also the hypothesis of `LowerClearsRequestAndCascade` and
`QueryReturnsRequestBit`. -/
theorem witness_RaiseSetsRequestAndCascade :
    (0 : Byte).toNat < 16 ∧ (7 : Byte).toNat < 16 ∧ (8 : Byte).toNat < 16 ∧ (15 : Byte).toNat < 16 := by
  decide

/-- The first and the last slave line, and the cascade line. -/
theorem witness_LowerClearsRequestAndCascade :
    (8 : Byte).toNat < 16 ∧ (15 : Byte).toNat < 16 ∧ (2 : Byte).toNat < 16 := by decide

theorem witness_QueryReturnsRequestBit : (7 : Byte).toNat < 16 ∧ (8 : Byte).toNat < 16 := by decide

/-- Line 15, unmasked; line 8, pending and masked until a mask write; line 8, pending, over an initialization
byte to the other chip, a wide write to its own chip whose even-port byte has bit 4 clear, and a lower of line
9; and line 15 in the summary with the switch off. -/
theorem witness_RaiseIsVisibleToNextService :
    ((start.chip (lineChip (15 : Byte).toNat)).mask.getLsbD (lineIndex (15 : Byte).toNat) = false
      ∧ (0x0E : Byte).getLsbD (lineIndex 8) = false
      ∧ ((withLines 0x04 0 0 0x01 0xFF 0).chip (lineChip 8)).request.getLsbD (lineIndex 8) = true)
    ∧ (SummaryExact (withLines 0x04 0 0 0x03 0 0) ∧ (withLines 0x04 0 0 0x03 0 0).agentOps = []
      ∧ ((withLines 0x04 0 0 0x03 0 0).chip (lineChip 8)).request.getLsbD (lineIndex 8) = true
      ∧ ¬MayDropRequest (withLines 0x04 0 0 0x03 0 0) 8 (.icw1 .M 0x11)
      ∧ ¬MayDropRequest (withLines 0x04 0 0 0x03 0 0) 8 (.out16 0xA0 0x100B)
      ∧ ¬MayDropRequest (withLines 0x04 0 0 0x03 0 0) 8 (.lower 9)
      ∧ (∃ t, exec (.icw1 .M 0x11) (withLines 0x04 0 0 0x03 0 0) = .next t ∧ (t.summary == 0x0300) = true)
      ∧ (∃ t, exec (.out16 0xA0 0x100B) (withLines 0x04 0 0 0x03 0 0) = .next t ∧ (t.slave.mask == 0x10) = true)
      ∧ ∃ t, exec (.lower 9) (withLines 0x04 0 0 0x03 0 0) = .next t ∧ (t.slave.request == 0x01) = true)
    ∧ (withLines 0 0 0 0x80 0 0).ignoreAll = false ∧ (withLines 0 0 0 0x80 0 0).summary.getLsbD 15 = true := by
  refine ⟨by decide, ⟨rfl, rfl, rfl, ?_, ?_, ?_, next_of (by decide), next_of (by decide), next_of (by decide)⟩,
    by decide⟩
  · unfold MayDropRequest; decide
  · unfold MayDropRequest; decide
  · unfold MayDropRequest; decide

/-- The last master line, the first slave line and the last, each with the cascade line pending below it; the
switch; and no line but the cascade. -/
theorem witness_ServiceDeliversSelectedLine :
    (withLines 0x84 0 0 0 0 0).ignoreAll = false ∧ Selects (withLines 0x84 0 0 0 0 0).summary 7
      ∧ Selects (withLines 0x04 0 0 0x01 0 0).summary 8 ∧ Selects (withLines 0x04 0 0 0x80 0 0).summary 15
      ∧ ({ withLines 0x01 0 0 0 0 0 with ignoreAll := true }).ignoreAll = true
      ∧ ¬∃ n, Selects (withLines 0x04 0 0 0 0 0).summary n := by
  refine ⟨rfl, ?_, ?_, ?_, rfl, ?_⟩
  · unfold Selects; decide
  · unfold Selects; decide
  · unfold Selects; decide
  · rintro ⟨n, h16, h2, hb, -⟩
    have : ∀ n < 16, n ≠ 2 → (withLines 0x04 0 0 0 0 0).summary.getLsbD n = false := by decide
    rw [this n h16 h2] at hb
    cases hb

theorem witness_IgnoreSwitchSuppressesDelivery :
    ({ withLines 0x01 0 0 0 0 0 with ignoreAll := true }).ignoreAll = true
      ∧ ({ withLines 0x01 0 0 0 0 0 with ignoreAll := true }).agentOps = [] := by decide

/-- A pending slave line with its cascade request, and lines on both sides of the cascade. -/
theorem witness_LinesAndServiceKeepCascade :
    CascadeAsserted (withLines 0x04 0 0 0x01 0 0) ∧ (withLines 0x04 0 0 0x01 0 0).slave.request ≠ 0
      ∧ (15 : Byte).toNat < 16 ∧ (15 : Byte) ≠ 2 ∧ (0 : Byte) ≠ 2 :=
  ⟨fun _ => by decide, by decide, by decide, by decide, by decide⟩

/-- A free port, and a port whose reading direction is taken. -/
theorem witness_RegisterEntersOrRefusesWhole :
    State.reset.inMap.lookup 0xFFFF = none ∧ State.reset.outMap.lookup 0xFFFF = none
      ∧ withPeripheral.inMap.lookup 0x310 ≠ none ∧ withPeripheral.outMap.lookup 0x310 = none := by decide

theorem witness_UnregisterRemovesOneDevice : PortMapsCanonical State.reset := ⟨by decide, by decide⟩

theorem witness_LookupsAnswerOwner : PortMapsCanonical withPeripheral := ⟨by decide, by decide⟩

/-- The last port, and the ports on both sides of the threshold of R52. -/
theorem witness_UnregisteredPortsAreInert :
    start.inMap.lookup 0xFFFF = none ∧ start.inMap.lookup 0x3FF = none ∧ start.inMap.lookup 0x400 = none
      ∧ start.outMap.lookup 0xFFFF = none ∧ start.outMap.lookup 0x0000 = none := by decide

theorem witness_ChipPortReadsComposeRegisters :
    State.reset.inMap.lookup 0x21 = some (.chip .M) ∧ State.reset.agentOps = [] := by decide

/-- `withPeripheral`, its peripheral recorded as one that overrides 16-bit accesses, 32-bit accesses, or
neither. -/
def overriding (word dword : Bool) : State :=
  { withPeripheral with cfg := { withPeripheral.cfg with devices := [⟨7, [], none, word, dword⟩] } }

theorem witness_PeripheralReadsCompose :
    (overriding true false).inMap.lookup 0x300 = some (.peripheral 7)
      ∧ (overriding true false).deviceReplies = 0x00 :: 0x01 :: 0x02 :: 0x03 :: []
      ∧ overridesWord (overriding true false) 7 = true ∧ overridesDword (overriding false true) 7 = true
      ∧ overridesWord (overriding false true) 7 = false ∧ overridesDword (overriding true false) 7 = false
      ∧ (overriding true false).agentOps = [] := by decide

theorem witness_PeripheralWritesAscend :
    (overriding true true).outMap.lookup 0x300 = some (.peripheral 7)
      ∧ overridesWord (overriding true true) 7 = true ∧ overridesDword (overriding true true) 7 = true
      ∧ (overriding false false).outMap.lookup 0x300 = some (.peripheral 7)
      ∧ (overriding false false).agentOps = []
      ∧ overridesWord (overriding false false) 7 = false
      ∧ overridesDword (overriding false false) 7 = false := by decide

theorem witness_PortWriteRunsDecodedCommand :
    State.reset.outMap.lookup 0xA0 = some (.chip .S) ∧ State.reset.outMap.lookup 0xA1 = some (.chip .S) := by
  decide

/-- Both chips' first ports. -/
theorem witness_WideChipWritesRunInOrder :
    State.reset.outMap.lookup 0x20 = some (.chip .M) ∧ State.reset.outMap.lookup 0x21 = some (.chip .M)
      ∧ (0x20 : Port).getLsbD 0 = false ∧ (0x21 : Port).getLsbD 0 = true := by
  decide

/-- The driver's inputs of the witnesses: `kind`, 16 bits wide, upwards. -/
def inputs (rep : RepMode) (kind : StringKind) : RepInputs := ⟨rep, kind, .w16, .a16, .up, 0x1000, 0x1002⟩

theorem witness_NoModifierRunsOneElement :
    start.cfg.policy = .reportAndContinue ∧ (inputs .none .portOut).rep = .none := by decide

/-- A port string element in and out; a repeat with interrupts disabled whose first element runs and whose zero
flag goes on, and one whose zero flag ends it; and, under the strict policy, an element that writes a polling
request to the master. -/
theorem witness_PortElementsDoWhatInAndOutDo :
    (inputs .none .portIn).rep = .none ∧ (inputs .none .portIn).kind = .portIn
      ∧ (inputs .none .portOut).kind = .portOut ∧ (inputs .repNz .portOut).rep ≠ .none
      ∧ countOf .a16 (coreAt 2 0 0 false).count ≠ 0
      ∧ ¬PollHolds { start with core := coreAt 2 0 0 false }
      ∧ (∃ t, exec (.rep (inputs .none .portIn)) { start with core := coreAt 2 0 0 false } = .next t
        ∧ (t.core.dstIndex == 2) = true)
      ∧ ¬FlagStops (inputs .repNz .portIn) false
      ∧ (∃ t, exec (.rep (inputs .none .scan))
            { start with core := coreAt 2 0 0 false, bodyResults := [⟨true, 0⟩] } = .next t
          ∧ t.core.zf = true)
      ∧ FlagStops (inputs .repNz .scan) true
      ∧ exec (.rep (inputs .none .portOut)) (strict { start with
            core := { coreAt 2 0 0 false with portReg := 0x20 }, bodyResults := [⟨false, 0x0C⟩] })
          = .fault (.violation (.pollUnsupported .M 0x0C)) :=
  ⟨rfl, rfl, rfl, by decide, by decide, (by intro h; cases h.1), next_of (by decide),
    (by rintro ⟨h, -⟩; revert h; decide), next_of (p := fun t => t.core.zf) (by decide),
    ⟨by decide, .inl ⟨rfl, rfl⟩⟩, rfl⟩

/-- The low 16 bits are 0, the others are not; a line is deliverable. -/
theorem witness_ZeroCountCompletesAtOnce :
    (inputs .repZ .move).rep ≠ .none ∧ countOf .a16 (coreAt 0x00010000 0 0 true).count = 0 := by decide

theorem witness_PendingInterruptAbortsBeforeFirst :
    (inputs .repNz .move).rep ≠ .none ∧ countOf .a16 (coreAt 1 0 0 true).count ≠ 0
      ∧ ({ withLines 0x08 0 0 0 0 0 with core := coreAt 1 0 0 true }).agentOps = []
      ∧ ({ withLines 0x08 0 0 0 0 0 with core := coreAt 1 0 0 true }).core.intEnable = true
      ∧ (∃ n, Selects ({ withLines 0x08 0 0 0 0 0 with core := coreAt 1 0 0 true }).summary n)
      ∧ ({ withLines 0x08 0 0 0 0 0 with core := coreAt 1 0 0 true }).ignoreAll = false :=
  ⟨by decide, by decide, rfl, rfl, ⟨3, by unfold Selects; decide⟩, rfl⟩

/-- An interrupt after two elements. -/
theorem witness_AbortedRepeatIsPrecise :
    ∃ t, exec (.rep (inputs .repNz .move)) { start with
        core := coreAt 5 0x100 0x200 true, agentOps := [[], [], [], [], [.raise 0]] } = .next t
      ∧ (t.result == .driver .abortedForInterrupt) = true := next_of (by decide)

/-- All elements, and a scan that ends early. -/
theorem witness_CompletedRepeatRanItsElements :
    (∃ t, exec (.rep (inputs .repNz .load)) { start with core := coreAt 2 0 0 true } = .next t
      ∧ (t.result == .driver .completed && t.core.count == 0) = true)
    ∧ ∃ t, exec (.rep (inputs .repNz .scan)) { start with
          core := coreAt 2 0 0 true, bodyResults := [⟨true, 0⟩] } = .next t
        ∧ (t.result == .driver .completed && t.core.count == 1) = true :=
  ⟨next_of (by decide), next_of (by decide)⟩

theorem witness_FlavourIrrelevantWithoutFlag :
    (inputs .repNz .portOut).kind ∉ [StringKind.compare, .scan] := by decide

/-- Both flavours, with the flag that ends each. -/
theorem witness_FlagEndsRepeatAfterCounting :
    FlagStops (inputs .repNz .scan) true ∧ FlagStops (inputs .repZ .compare) false
      ∧ countOf .a16 (coreAt 1 0 0 false).count ≠ 0
      ∧ ({ start with core := coreAt 1 0 0 false, bodyResults := [⟨true, 0⟩] }).agentOps = []
      ∧ ({ start with core := coreAt 1 0 0 false, bodyResults := [⟨true, 0⟩] }).core.intEnable = false
      ∧ ({ start with core := coreAt 1 0 0 false, bodyResults := [⟨true, 0⟩] }).bodyResults
          = ⟨true, 0⟩ :: [] :=
  ⟨⟨by decide, .inl ⟨rfl, rfl⟩⟩, ⟨by decide, .inr ⟨rfl, rfl⟩⟩, by decide, rfl, rfl, rfl⟩

/-- Every line is pending, and the repeat goes on. -/
theorem witness_DisabledInterruptsNeverAbort :
    (coreAt 2 0 0 false).intEnable = false
      ∧ ∃ t, exec (.rep (inputs .repNz .store))
            { withLines 0xFF 0 0 0xFF 0 0 with core := coreAt 2 0 0 false } = .next t
          ∧ (t.core.count == 0) = true := ⟨rfl, next_of (by decide)⟩

theorem witness_RepeatWritesOnlyItsRegisters :
    (inputs .repZ .load).kind ∉ [StringKind.compare, .scan]
      ∧ (inputs .repZ .load).kind ∉ [StringKind.portIn, .portOut]
      ∧ ∃ t, exec (.rep (inputs .repZ .load)) { start with core := coreAt 2 0 0 true } = .next t
          ∧ (t.core.cycles == 2) = true := ⟨by decide, by decide, next_of (by decide)⟩

/-- A state whose next input is a frame of the guest, and one whose next input is a frame of a device. -/
theorem witness_StepRunsDecodedInstruction :
    (presenting start [0, 0x20]).inbox = .frame [0, 0x20] :: []
      ∧ decode (presenting start [0, 0x20]).phases [0, 0x20] = .ok (.eoi .M)
      ∧ ¬((Instr.eoi .M).isGuest = true ∧ (presenting start [0, 0x20]).core.runState = .halted)
      ∧ decode (presenting start [6, 15]).phases [6, 15] = .ok (.raise 15)
      ∧ (Instr.raise 15).isGuest = false
      ∧ (Instr.eoi .M).isRepeat = false ∧ ({ start with nextIps := [0x1002] }).nextIps = 0x1002 :: []
      ∧ (Instr.rep (inputs .repNz .move)).isRepeat = true :=
  ⟨rfl, rfl, by decide, rfl, rfl, rfl, rfl, rfl⟩

/-- An eligible line; none; one that a device lowers between the poll and the call, after which no line is
selected; an empty inbox; and new signals of the core. -/
theorem witness_BoundaryServicesWhenEligible :
    PollHolds (point { withLines 0x08 0 0 0 0 0 with core := coreAt 0 0 0 true })
      ∧ PollHolds { withLines 0x08 0 0 0 0 0 with core := coreAt 0 0 0 true, agentOps := [[], [.lower 3]] }
      ∧ ¬PollHolds (point start) ∧ start.agentOps = []
      ∧ (3 : Byte).toNat = (3 : BitVec 4).toNat
      ∧ (∃ t, exec (.lower 3) { withLines 0x08 0 0 0 0 0 with
            core := coreAt 0 0 0 true, agentOps := [[], [.lower 3]] } = .next t ∧ ¬∃ k, Selects t.summary k)
      ∧ start.inbox = []
      ∧ ({ start with inbox := [.coreSignals (coreAt 1 2 3 true)] }).inbox
          = .coreSignals (coreAt 1 2 3 true) :: [] := by
  refine ⟨⟨rfl, ⟨3, by unfold Selects; decide⟩, rfl⟩, ⟨rfl, ⟨3, by unfold Selects; decide⟩, rfl⟩,
    (by intro h; cases h.1), rfl, rfl, ⟨_, rfl, ?_⟩, rfl, rfl⟩
  rintro ⟨k, h16, -, hb, -⟩
  revert hb
  revert k
  decide

/-- A halted core with a frame of the guest in its inbox. -/
def waiting : State :=
  { presenting start [0, 0x20] with core := { coreAt 0 0 0 true with runState := .halted } }

theorem witness_HaltedCoreOnlyPolls :
    waiting.inbox = .frame [0, 0x20] :: [] ∧ decode waiting.phases [0, 0x20] = .ok (.eoi .M)
      ∧ (Instr.eoi .M).isGuest = true ∧ waiting.core.runState = .halted ∧ waiting.agentOps = [] :=
  ⟨rfl, rfl, rfl, rfl, rfl⟩

theorem witness_InternalCauseTouchesNothing :
    ({ start with inbox := [.internalInterrupt 0xFF] }).inbox = .internalInterrupt 0xFF :: []
      ∧ start.agentOps = [] ∧ start.core.intEnable = false := ⟨rfl, rfl, rfl⟩

/-- The invariant, in a state from which a step answers a next state that has changed. -/
theorem witness_StepKeepsSummary :
    SummaryExact (presenting start [6, 15])
      ∧ ∃ t, step (presenting start [6, 15]) = .next t ∧ (t.summary == 0x8004) = true :=
  ⟨rfl, next_of (by decide)⟩

/-- A step that registers a port. -/
theorem witness_StepKeepsPortMaps :
    PortMapsCanonical (presenting start [15, 0x02, 0x0C, 0, 0, 7])
      ∧ ∃ t, step (presenting start [15, 0x02, 0x0C, 0, 0, 7]) = .next t
        ∧ (t.inMap.lookup 0x300 == some (.peripheral 7)) = true :=
  ⟨⟨by decide, by decide⟩, next_of (by decide)⟩

theorem witness_RecordsAndDeliveriesOnlyGrow :
    ∃ t, step (presenting start [0, 0x20]) = .next t
      ∧ (t.violLog == [.eoiNothingInService .M]) = true := next_of (by decide)

theorem witness_EveryOperationReturns : State.reset.cfg.policy = .reportAndContinue := by decide

theorem witness_ReadsAndLinesWriteOnlyRequest :
    ∃ t, exec (.in16 0x20) { start with agentOps := [[.raise 3]] } = .next t
      ∧ (t.master.request == 0x08) = true := next_of (by decide)

theorem witness_GuestCannotWriteIgnoreSwitch :
    (Instr.out8 0x20 0x13).isGuest = true ∧ start.agentOps = []
      ∧ ∃ t, exec (.out8 0x20 0x13) start = .next t ∧ t.master.awaitIcw2 = true :=
  ⟨rfl, rfl, next_of (p := fun t => t.master.awaitIcw2) (by decide)⟩

/-- A mask write and a raise, with a line pending and the switch on. -/
theorem witness_IgnoreSwitchTouchesOnlyDelivery :
    (match Instr.ocw1 .M 0xFE with | .service | .ignore _ | .rep _ => False | _ => True)
      ∧ (match Instr.raise 15 with | .service | .ignore _ | .rep _ => False | _ => True)
      ∧ ({ withLines 0x01 0 0 0 0 0 with ignoreAll := true }).agentOps = []
      ∧ ∃ t, exec (.ocw1 .M 0xFE) { withLines 0x01 0 0 0 0 0 with ignoreAll := true } = .next t
          ∧ (t.ignoreAll && t.summary == 0x0001) = true := ⟨trivial, trivial, rfl, next_of (by decide)⟩

/-- One of two bits in service is ended, the other stays. -/
theorem witness_OnlyServiceSetsInService :
    Instr.eoi .M ≠ .service
      ∧ ∃ t, exec (.eoi .M) (withLines 0 0 0x84 0 0 0) = .next t
        ∧ (t.chip .M).inService.getLsbD 7 = true :=
  ⟨by decide, next_of (p := fun t => (t.chip .M).inService.getLsbD 7) (by decide)⟩

theorem witness_DecodeOfEncode :
    (Instr.icw2 .S 0b01110 0b111).wf = true
      ∧ (Instr.icw2 .S 0b01110 0b111).fitsPhases ⟨.mask, .vectorBase⟩ = true
      ∧ (Instr.ocw2Unrecognized .M 0xE7).wf = true
      ∧ (Instr.ocw2Unrecognized .M 0xE7).fitsPhases ⟨.mask, .mask⟩ = true := by decide

theorem witness_EncodeOfDecode :
    decode ⟨.mask, .vectorBase⟩ [3, 0x77] = .ok (.icw2 .S 0b01110 0b111) := by rfl

end Sys2Proof.Tests
end

section
/-! PROOFS. The summary invariant (10_state.md R25): each atomic change of Laws/Reach.lean keeps it, so every
step does. -/

namespace Sys2Proof.Machine

/-- Rewriting chip fields other than `request` and `mask` keeps the summary exact without `Recompute()`. -/
theorem SummaryExact.setChip {s : State} (hs : SummaryExact s) {c : Chip} {r : ChipRegs}
    (hq : r.request = (s.chip c).request) (hm : r.mask = (s.chip c).mask) : SummaryExact (s.setChip c r) := by
  unfold SummaryExact at hs ⊢
  rw [setChip_summary, hs]
  cases c with
  | M => rw [setChip_master, setChip_slave_of_M, hq, hm, chip_M]
  | S => rw [setChip_slave, setChip_master_of_S, hq, hm, chip_S]

theorem ReadChange.keeps_summaryExact {s t : State} (h : ReadChange s t) (hs : SummaryExact s) :
    SummaryExact t := by
  cases h with
  | violation v => exact hs
  | call e => exact hs
  | reply => unfold takeReply; split <;> exact hs
  | point => exact point_exact hs

theorem BusChange.keeps_summaryExact {s t : State} (h : BusChange s t) (hs : SummaryExact s) :
    SummaryExact t := by
  cases h with
  | read h => exact h.keeps_summaryExact hs
  | flags c r hq hm => exact hs.setChip hq hm
  | lines m sl => exact recompute_exact _

theorem GuestChange.keeps_summaryExact {s t : State} (h : GuestChange s t) (hs : SummaryExact s) :
    SummaryExact t := by
  cases h with
  | bus h => exact h.keeps_summaryExact hs
  | result r => exact hs
  | event e => exact hs
  | core u => exact hs
  | body => unfold takeBody; split <;> exact hs
  | nextIp => unfold takeNextIp; split <;> exact hs

/-- The largest set of changes: those outside the guest's touch neither the chips nor the summary. -/
theorem Change.keeps_summaryExact {s t : State} (h : Change s t) (hs : SummaryExact s) : SummaryExact t := by
  cases h with
  | guest h => exact h.keeps_summaryExact hs
  | ignore b => exact hs
  | register p d dir => exact hs
  | unregister d => exact hs
  | input => exact hs

end Sys2Proof.Machine

namespace Sys2Proof

open Sys2Proof.Machine

/-- Settles O48: a step is a chain of atomic changes, each of which keeps the summary exact. -/
theorem stepKeepsSummary : Obligations.StepKeepsSummary := by
  intro s t hs ht
  exact (step_reaches s t ht).keeps (fun _ _ h => h.keeps_summaryExact) hs

end Sys2Proof
end

section
/-! PROOFS. The two lookups (40_port_bus.md R82, R83) answer what their port map holds. -/

namespace Sys2Proof.Machine

theorem exec_lookupInput (p : Port) (s : State) :
    exec (.lookupInput p) s = .next (s.setResult (.owner (s.inMap.lookup p))) := rfl

theorem exec_lookupOutput (p : Port) (s : State) :
    exec (.lookupOutput p) s = .next (s.setResult (.owner (s.outMap.lookup p))) := rfl

end Sys2Proof.Machine

namespace Sys2Proof

open Sys2Proof.Machine

/-- Settles O26: the answer is `PortMap.lookup` of the map, which in the canonical form is membership of the
entry. -/
theorem lookupsAnswerOwner : Obligations.LookupsAnswerOwner := by
  rintro s p ⟨hin, hout⟩
  exact ⟨⟨_, exec_lookupInput p s, PortMap.lookup_eq_some hin p⟩,
    ⟨_, exec_lookupOutput p s, PortMap.lookup_eq_some hout p⟩⟩

end Sys2Proof
end

section
/-! PROOFS. RECOMPUTE and ANY_PENDING (41_pic_lines.md R100, R103): an exact summary (10_state.md R25) says of
each line whether it is pending and unmasked, and the pending test is of the whole word. -/

namespace Sys2Proof.Machine

open Sys2Proof.Statements

theorem exec_recompute (s : State) : exec .recompute s = .next ((recompute s).setResult .none) := rfl

theorem exec_anyPending (s : State) :
    exec .anyPending s = .next (s.setResult (.bit (anyPendingOf s.summary))) := rfl

theorem anyPendingOf_eq_true (w : BitVec 16) : anyPendingOf w = true ↔ w ≠ 0 := bne_iff_ne

/-- The invariant's word, read bit by bit: the master's lines below, the slave's above. -/
theorem SummaryExact.isPending {s : State} (h : SummaryExact s) : SummaryIsPending s := by
  intro n hn
  rw [h]
  exact ⟨summaryOf_low _ _ _ _ hn, summaryOf_high _ _ _ _ hn⟩

theorem SummaryExact.setResult {s : State} (h : SummaryExact s) (r : Result) :
    SummaryExact (s.setResult r) := h

end Sys2Proof.Machine

namespace Sys2Proof

open Sys2Proof.Machine

/-- Settles O16: `Recompute()` makes the summary exact, and an exact summary is the pending and unmasked
lines. -/
theorem recomputeGivesPendingUnmasked : Obligations.RecomputeGivesPendingUnmasked := by
  intro s
  have hexact : SummaryExact ((recompute s).setResult .none) := (recompute_exact s).setResult .none
  exact ⟨_, exec_recompute s, hexact.isPending, rfl⟩

/-- Settles O14: the answered bit compares the whole word, the cascade bit included, with 0. -/
theorem anyPendingTestsWholeSummary : Obligations.AnyPendingTestsWholeSummary := by
  intro s
  exact ⟨_, exec_anyPending s, anyPendingOf_eq_true s.summary⟩

end Sys2Proof
end

section
/-! PROOFS. OCW1, READ_STATUS and READ_MASK (42_pic_commands.md R121, R122, R123): a mask write rewrites one
chip and ends with `Recompute()`; the two reads answer a register of the chip. -/

namespace Sys2Proof.Machine

open Sys2Proof.Statements

theorem exec_ocw1 (c : Chip) (m : Byte) (s : State) :
    exec (.ocw1 c m) s = .next ((setMask c m s).setResult .none) := rfl

theorem exec_readStatus (c : Chip) (s : State) :
    exec (.readStatus c) s = .next (s.setResult (.byte (statusByte c s))) := rfl

theorem exec_readMask (c : Chip) (s : State) :
    exec (.readMask c) s = .next (s.setResult (.byte (maskByte c s))) := rfl

@[simp] theorem setMask_chip (c : Chip) (m : Byte) (s : State) :
    (setMask c m s).chip c = { s.chip c with mask := m } := by
  simp [setMask]

theorem setMask_chip_ne {c c' : Chip} (m : Byte) (s : State) (h : c' ≠ c) :
    (setMask c m s).chip c' = s.chip c' := by
  simp [setMask, setChip_chip_ne s _ h]

theorem setMask_exact (c : Chip) (m : Byte) (s : State) : SummaryExact (setMask c m s) := recompute_exact _

/-- Frame of every command that rewrites a chip, ends with `Recompute()` and returns nothing. -/
theorem recompute_setChip_onlyChips (s : State) (c : Chip) (r : ChipRegs) :
    OnlyChips s ((recompute (s.setChip c r)).setResult .none) := by
  cases c <;> rfl

end Sys2Proof.Machine

namespace Sys2Proof

open Sys2Proof.Machine

/-- Settles O9: a mask write rewrites the mask of one chip, and the `Recompute()` it ends with makes the
summary exact. -/
theorem maskWriteSetsMask : Obligations.MaskWriteSetsMask := by
  intro s c m
  have hexact : SummaryExact ((setMask c m s).setResult .none) := (setMask_exact c m s).setResult .none
  refine ⟨_, exec_ocw1 c m s, ?chip, ?other, hexact.isPending, recompute_setChip_onlyChips s c _⟩
  case chip => rw [setResult_chip, setMask_chip]
  case other =>
    intro c' hne
    rw [setResult_chip, setMask_chip_ne m s hne]

/-- Settles O10: both answers are registers of the chip, and only `result` is written. -/
theorem chipReadsReturnRegisters : Obligations.ChipReadsReturnRegisters := by
  intro s c
  exact ⟨exec_readStatus c s, exec_readMask c s⟩

end Sys2Proof
end

section
/-! PROOFS. ENCODE (43_service.md R141): the answer is `encodeLine` of the operand, which is the line the word
selects. -/

namespace Sys2Proof.Machine

open Sys2Proof.Statements

theorem exec_encode (w : BitVec 16) (s : State) :
    exec (.encode w) s = .next (s.setResult (.line (encodeLine w))) := rfl

/-- `encodeLine_eq_some` in the statements' own word for the selected line. -/
theorem encodeLine_eq_some_iff_selects (w : BitVec 16) (n : Nat) :
    encodeLine w = some n ↔ Selects w n :=
  encodeLine_eq_some w n

end Sys2Proof.Machine

namespace Sys2Proof

open Sys2Proof.Machine

/-- Settles O18: the answer is `encodeLine` of the word, the lowest set bit once master line 2 is masked away. -/
theorem encodePicksLowestLineButCascade : Obligations.EncodePicksLowestLineButCascade := by
  intro s w
  exact ⟨encodeLine w, exec_encode w s, encodeLine_eq_some_iff_selects w⟩

end Sys2Proof
end

section
/-! PROOFS. What only grows (10_state.md R21, R29; 20_memory.md R59): the violation log and the recorded calls
are appended to, and the configuration is written by no atomic change of Laws/Reach.lean. -/

namespace Sys2Proof.Machine

/-- The log and the recorded calls of `t` extend those of `s`, and the configuration is the same. -/
structure Grows (s t : State) : Prop where
  violLog : s.violLog <+: t.violLog
  events : s.events <+: t.events
  deviceCalls : s.deviceCalls <+: t.deviceCalls
  cfg : t.cfg = s.cfg

theorem Grows.trans {s t u : State} (h : Grows s t) (h' : Grows t u) : Grows s u :=
  ⟨h.violLog.trans h'.violLog, h.events.trans h'.events, h.deviceCalls.trans h'.deviceCalls,
    h'.cfg.trans h.cfg⟩

/-- A change that leaves all four alone. -/
theorem Grows.of_eq {s t : State} (hv : t.violLog = s.violLog) (he : t.events = s.events)
    (hd : t.deviceCalls = s.deviceCalls) (hc : t.cfg = s.cfg) : Grows s t :=
  ⟨hv ▸ List.prefix_refl _, he ▸ List.prefix_refl _, hd ▸ List.prefix_refl _, hc⟩

theorem Grows.refl (s : State) : Grows s s := .of_eq rfl rfl rfl rfl

theorem OnlyAgents.grows {s t : State} (h : OnlyAgents s t) : Grows s t := by
  rw [h]
  exact .of_eq rfl rfl rfl rfl

theorem ReadChange.grows {s t : State} (h : ReadChange s t) : Grows s t := by
  cases h with
  | violation v => exact ⟨List.prefix_append _ _, List.prefix_refl _, List.prefix_refl _, rfl⟩
  | call e => exact ⟨List.prefix_refl _, List.prefix_refl _, List.prefix_append _ _, rfl⟩
  | reply => unfold takeReply; split <;> exact .of_eq rfl rfl rfl rfl
  | point => exact (point_only s).grows

theorem BusChange.grows {s t : State} (h : BusChange s t) : Grows s t := by
  cases h with
  | read h => exact h.grows
  | flags c r hq hm =>
    exact .of_eq (setChip_violLog s c r) (setChip_events s c r) (setChip_deviceCalls s c r)
      (setChip_cfg s c r)
  | lines m sl => exact .of_eq rfl rfl rfl rfl

theorem GuestChange.grows {s t : State} (h : GuestChange s t) : Grows s t := by
  cases h with
  | bus h => exact h.grows
  | event e => exact ⟨List.prefix_refl _, List.prefix_append _ _, List.prefix_refl _, rfl⟩
  | result r => exact .of_eq rfl rfl rfl rfl
  | core u => exact .of_eq rfl rfl rfl rfl
  | body => unfold takeBody; split <;> exact .of_eq rfl rfl rfl rfl
  | nextIp => unfold takeNextIp; split <;> exact .of_eq rfl rfl rfl rfl

theorem Change.grows {s t : State} (h : Change s t) : Grows s t := by
  cases h with
  | guest h => exact h.grows
  | ignore b => exact .of_eq rfl rfl rfl rfl
  | register p d dir => exact .of_eq rfl rfl rfl rfl
  | unregister d => exact .of_eq rfl rfl rfl rfl
  | input => exact .of_eq rfl rfl rfl rfl

/-- A step is a chain of atomic changes, each of which only grows the records. -/
theorem step_grows {s t : State} (h : step s = .next t) : Grows s t :=
  (step_reaches s t h).relates Grows.refl (fun _ _ _ => Grows.trans) fun _ _ => Change.grows

end Sys2Proof.Machine

namespace Sys2Proof

open Sys2Proof.Machine

/-- Settles O51: growth of the lists composes, so that of each atomic change is that of a step. -/
theorem recordsAndDeliveriesOnlyGrow : Obligations.RecordsAndDeliveriesOnlyGrow := by
  intro s t h
  obtain ⟨hviol, hevents, hcalls, hcfg⟩ := step_grows h
  exact ⟨hviol, hevents, hcalls, hcfg⟩

end Sys2Proof
end

section
/-! PROOFS. The decoder and the encoder (30_encoding.md R61 to R65, R71, R74): a byte of a chip port and its
instruction determine each other, and so do a frame and its instruction. -/

namespace Sys2Proof

/-! ### The bytes of the command port -/

theorem wfIcw1_iff (v : Byte) : wfIcw1 v = true ↔ v.getLsbD 4 = true := by
  revert v; decide

theorem wfOcw3Poll_iff (v : Byte) :
    wfOcw3Poll v = true ↔ v.getLsbD 4 = false ∧ v.getLsbD 3 = true ∧ v.getLsbD 2 = true := by
  revert v; decide

theorem wfOcw3Bit7_iff (v : Byte) : wfOcw3Bit7 v = true ↔
    v.getLsbD 4 = false ∧ v.getLsbD 3 = true ∧ v.getLsbD 2 = false ∧ v.getLsbD 7 = true := by
  revert v; decide

theorem wfOcw2Unrecognized_iff (v : Byte) : wfOcw2Unrecognized v = true ↔
    v.getLsbD 4 = false ∧ v.getLsbD 3 = false ∧ v ≠ 0x20 ∧ v.extractLsb' 5 3 ≠ 0b011 := by
  revert v; decide

/-- The instructions of the command port (30_encoding.md R62 to R64). -/
def Instr.isCommandOf (c : Chip) : Instr → Prop
  | .icw1 c' _ | .ocw3Poll c' _ | .ocw3Bit7 c' _ | .ocw3 c' .. | .eoi c' | .seoi c' _
  | .ocw2Unrecognized c' _ => c' = c
  | _ => False

theorem decodeCommand_isCommandOf (c : Chip) (v : Byte) : (decodeCommand c v).isCommandOf c := by
  unfold decodeCommand
  repeat' split
  all_goals rfl

theorem decodeCommand_wf (c : Chip) (v : Byte) : (decodeCommand c v).wf = true := by
  unfold decodeCommand
  split
  case isTrue h4 => exact (wfIcw1_iff v).2 h4
  case isFalse h4 =>
    rw [Bool.not_eq_true] at h4
    split
    case isTrue h3 =>
      split
      case isTrue h2 => exact (wfOcw3Poll_iff v).2 ⟨h4, h3, h2⟩
      case isFalse h2 =>
        rw [Bool.not_eq_true] at h2
        split
        case isTrue h7 => exact (wfOcw3Bit7_iff v).2 ⟨h4, h3, h2, h7⟩
        case isFalse => rfl
    case isFalse h3 =>
      rw [Bool.not_eq_true] at h3
      split
      case isTrue => rfl
      case isFalse heoi =>
        split
        case isTrue => rfl
        case isFalse hseoi => exact (wfOcw2Unrecognized_iff v).2 ⟨h4, h3, heoi, hseoi⟩

/-- No bit of a command byte is dropped. -/
theorem commandByte_decodeCommand (c : Chip) (v : Byte) : commandByte (decodeCommand c v) = v := by
  cases c <;> (revert v; decide)

/-- A well-formed command is read back from its byte. -/
theorem decodeCommand_commandByte {c : Chip} {i : Instr} (hc : i.isCommandOf c) (hw : i.wf = true) :
    decodeCommand c (commandByte i) = i := by
  cases i with
  | icw1 c' v =>
    cases hc
    simp only [commandByte, decodeCommand, (wfIcw1_iff v).1 hw, if_true]
  | ocw3Poll c' v =>
    cases hc
    obtain ⟨h4, h3, h2⟩ := (wfOcw3Poll_iff v).1 hw
    simp only [commandByte, decodeCommand, h4, h3, h2, if_true, Bool.false_eq_true, if_false]
  | ocw3Bit7 c' v =>
    cases hc
    obtain ⟨h4, h3, h2, h7⟩ := (wfOcw3Bit7_iff v).1 hw
    simp only [commandByte, decodeCommand, h4, h3, h2, h7, if_true, Bool.false_eq_true, if_false]
  | ocw3 c' esmm smm rr ris =>
    cases hc
    revert esmm smm rr ris
    cases c <;> decide
  | eoi c' =>
    cases hc
    cases c <;> decide
  | seoi c' l =>
    cases hc
    cases c <;> (revert l; decide)
  | ocw2Unrecognized c' v =>
    cases hc
    obtain ⟨h4, h3, heoi, hseoi⟩ := (wfOcw2Unrecognized_iff v).1 hw
    simp only [commandByte, decodeCommand, h4, h3, heoi, hseoi, Bool.false_eq_true, if_false]
  | _ => cases hc

/-- A bit of a number, by the range of its remainder. -/
theorem getLsbD_eq_range {w : Nat} (x : BitVec w) (i : Nat) :
    x.getLsbD i = decide (2 ^ i ≤ x.toNat % 2 ^ (i + 1)) := by
  have hlow : x.toNat % 2 ^ i < 2 ^ i := Nat.mod_lt _ (Nat.two_pow_pos i)
  rw [BitVec.getLsbD, Nat.testBit_eq_decide_div_mod_eq, Nat.mod_pow_succ, decide_eq_decide]
  rcases Nat.mod_two_eq_zero_or_one (x.toNat / 2 ^ i) with h | h
  · rw [h]; omega
  · rw [h]; omega

/-! ### Frames of the chips -/

theorem decode_commandFrame (ph : Phases) (c : Chip) (v : Byte) :
    decode ph [(commandSelector c).code, v] = .ok (decodeCommand c v) := by
  rw [decode_code]
  cases c <;> rfl

theorem decode_dataFrame (ph : Phases) (c : Chip) (v : Byte) :
    decode ph [(dataSelector c).code, v] = .ok (decodeData c (ph.of c) v) := by
  rw [decode_code]
  cases c <;> rfl

theorem decode_readFrame (ph : Phases) (c : Chip) (b : Byte) :
    decode ph [(readSelector c).code, b] = decodeRead c b := by
  rw [decode_code]
  cases c <;> rfl

theorem encode_of_isCommandOf {c : Chip} {i : Instr} (h : i.isCommandOf c) :
    encode i = [(commandSelector c).code, commandByte i] := by
  cases i <;> cases h <;> rfl

theorem fitsPhases_of_isCommandOf {c : Chip} {i : Instr} (h : i.isCommandOf c) (ph : Phases) :
    i.fitsPhases ph = true := by
  cases i <;> cases h <;> rfl

/-- The two fields of a vector-base byte. -/
theorem vectorBase_fields (base : BitVec 5) (dropped : BitVec 3) :
    (base ++ dropped : Byte).extractLsb' 3 5 = base ∧ (base ++ dropped : Byte).extractLsb' 0 3 = dropped :=
  ⟨append_high base dropped, append_low base dropped⟩

/-! ### Operand fields -/

theorem decodeScope_bytes (t : ResetScope) :
    ∃ kind k, scopeBytes t = [kind, k] ∧ decodeScope kind k = .ok t := by
  cases t with
  | machine => exact ⟨_, _, rfl, rfl⟩
  | device d =>
    cases d with
    | chip c => cases c <;> exact ⟨_, _, rfl, rfl⟩
    | peripheral k => exact ⟨_, _, rfl, rfl⟩

theorem scopeBytes_of_decode {kind k : Byte} {t : ResetScope} (h : decodeScope kind k = .ok t) :
    scopeBytes t = [kind, k] := by
  unfold decodeScope at h
  split at h
  case isTrue hm => cases h; rw [hm.1, hm.2]; rfl
  case isFalse =>
    cases hd : decodeDevice kind k with
    | error e => rw [hd] at h; cases h
    | ok d => rw [hd] at h; cases h; exact deviceBytes_of_decode hd

theorem flagByte_of_decode {b : Byte} {x : Bool} (h : decodeFlag b = .ok x) :
    (if x then 1 else 0) = b := by
  unfold decodeFlag at h
  split at h
  case isTrue h0 => cases h; exact h0.symm
  case isFalse =>
    split at h
    case isTrue h1 => cases h; exact h1.symm
    case isFalse => cases h

/-- The bit `a` of the row REP, read back. -/
theorem addrSize_of_bit (a : AddrSize) :
    (if addrBit a == 1#1 then AddrSize.a32 else AddrSize.a16) = a := by cases a <;> rfl

/-- The bit `d` of the row REP, read back. -/
theorem direction_of_bit (d : Direction) :
    (if directionBit d == 1#1 then Direction.down else Direction.up) = d := by cases d <;> rfl

theorem addrBit_of_bit (b : BitVec 1) : addrBit (if b == 1#1 then .a32 else .a16) = b := by
  revert b; decide

theorem directionBit_of_bit (b : BitVec 1) : directionBit (if b == 1#1 then .down else .up) = b := by
  revert b; decide

theorem decodeRepInputs_repWord (j : RepInputs) :
    decodeRepInputs (repWord j) j.ip0 j.ipNext = .ok (.rep j) := by
  obtain ⟨hz, hr, hk, hw, ha, hd⟩ := repWord_fields j
  simp only [decodeRepInputs, BitVec.getLsbD_eq_extractLsb', hz, hr, hk, hw, ha, hd, addrSize_of_bit,
    direction_of_bit, decodeRepMode_bits, decodeKind_bits, decodeWidth_bits]
  rfl

theorem decodeRegister_registerWord (p : Port) (dir : Dir) {kind k : Byte} {d : Device}
    (h : decodeDevice kind k = .ok d) :
    decodeRegister (registerWord p dir) kind k = .ok (.register p d dir) := by
  obtain ⟨hdir, hp, hz⟩ := registerWord_fields p dir
  simp only [decodeRegister, hz, hdir, hp, decodeDir_bits, h]
  rfl

/-- A decoder that goes on after another one succeeds only after it. -/
theorem bind_ok {α β : Type} {x : Except DecodeError α} {f : α → Except DecodeError β} {b : β}
    (h : x >>= f = .ok b) : ∃ a, x = .ok a ∧ f a = .ok b := by
  cases x with
  | error e => cases h
  | ok a => exact ⟨a, rfl, h⟩

theorem map_ok {α β : Type} {x : Except DecodeError α} {f : α → β} {b : β}
    (h : x.map f = .ok b) : ∃ a, x = .ok a ∧ f a = b := by
  cases x with
  | error e => cases h
  | ok a => cases h; exact ⟨a, rfl, rfl⟩

theorem encode_of_decodeRepInputs {w : BitVec 16} {ip0 ipNext : BitVec 32} {i : Instr}
    (h : decodeRepInputs w ip0 ipNext = .ok i) :
    ∃ j, i = .rep j ∧ repWord j = w ∧ j.ip0 = ip0 ∧ j.ipNext = ipNext := by
  unfold decodeRepInputs at h
  split at h
  case isTrue => cases h
  case isFalse hz =>
    rw [ne_eq, not_not] at hz
    obtain ⟨rep, hrep, h⟩ := bind_ok h
    obtain ⟨kind, hkind, h⟩ := bind_ok h
    obtain ⟨width, hwidth, h⟩ := bind_ok h
    cases h
    refine ⟨_, rfl, ?_, rfl, rfl⟩
    simp only [repWord, BitVec.getLsbD_eq_extractLsb', addrBit_of_bit, directionBit_of_bit,
      repBits_of_decode hrep, kindBits_of_decode hkind, widthBits_of_decode hwidth]
    rw [show (0#7 : BitVec 7) = w.extractLsb' 9 7 from hz.symm,
      show w.extractLsb' 9 7 ++ w.extractLsb' 7 2 = w.extractLsb' 7 9 from join_fields w 7 7 2,
      show w.extractLsb' 7 9 ++ w.extractLsb' 4 3 = w.extractLsb' 4 12 from join_fields w 4 9 3,
      show w.extractLsb' 4 12 ++ w.extractLsb' 2 2 = w.extractLsb' 2 14 from join_fields w 2 12 2,
      show w.extractLsb' 2 14 ++ w.extractLsb' 1 1 = w.extractLsb' 1 15 from join_fields w 1 14 1]
    exact (join_fields w 0 15 1).trans (all_bits w)

theorem encode_of_decodeRegister {w : BitVec 24} {kind k : Byte} {i : Instr}
    (h : decodeRegister w kind k = .ok i) :
    ∃ p d dir, i = .register p d dir ∧ registerWord p dir = w ∧ deviceBytes d = [kind, k] := by
  unfold decodeRegister at h
  split at h
  case isTrue => cases h
  case isFalse hz =>
    rw [ne_eq, not_not] at hz
    obtain ⟨dir, hdir, h⟩ := bind_ok h
    obtain ⟨d, hd, h⟩ := bind_ok h
    cases h
    refine ⟨_, _, _, rfl, ?_, deviceBytes_of_decode hd⟩
    rw [registerWord, dirBits_of_decode hdir, show (0#6 : BitVec 6) = w.extractLsb' 18 6 from hz.symm,
      show w.extractLsb' 18 6 ++ w.extractLsb' 2 16 = w.extractLsb' 2 22 from join_fields w 2 6 16]
    exact (join_fields w 0 22 2).trans (all_bits w)

/-! ### Frames of one operand -/

theorem oneByte_ok {sel : Selector} {f : Byte → Except DecodeError Instr} {ops : List Byte} {i : Instr}
    (h : oneByte sel f ops = .ok i) : ∃ b, ops = [b] ∧ f b = .ok i := by
  unfold oneByte at h
  split at h
  · exact ⟨_, rfl, h⟩
  · cases h

theorem oneWord_ok {sel : Selector} {f : BitVec 16 → Except DecodeError Instr} {ops : List Byte}
    {i : Instr} (h : oneWord sel f ops = .ok i) : ∃ w, ops = bytes16 w ∧ f w = .ok i := by
  unfold oneWord at h
  split at h
  · exact ⟨_, (bytes16_append _ _).symm, h⟩
  · cases h

theorem noOperand_ok {sel : Selector} {i i' : Instr} {ops : List Byte}
    (h : noOperand sel i ops = .ok i') : ops = [1] ∧ i' = i := by
  obtain ⟨b, rfl, hb⟩ := oneByte_ok h
  split at hb
  case isTrue h1 => cases hb; exact ⟨by rw [h1], rfl⟩
  case isFalse => cases hb

theorem oneWord_bytes16 (sel : Selector) (f : BitVec 16 → Except DecodeError Instr) (w : BitVec 16) :
    oneWord sel f (bytes16 w) = f w := congrArg f (join16 w)

/-! ### Frames back to frames -/

/-- The instruction read from a frame is one, in these phases, and is encoded as the frame. -/
def ReadsBack (ph : Phases) (i : Instr) (bytes : List Byte) : Prop :=
  i.wf = true ∧ i.fitsPhases ph = true ∧ encode i = bytes

theorem decodeCommand_readsBack (ph : Phases) (c : Chip) (v : Byte) :
    ReadsBack ph (decodeCommand c v) [(commandSelector c).code, v] := by
  have hc := decodeCommand_isCommandOf c v
  refine ⟨decodeCommand_wf c v, fitsPhases_of_isCommandOf hc ph, ?_⟩
  rw [encode_of_isCommandOf hc, commandByte_decodeCommand]

theorem decodeData_readsBack (ph : Phases) (c : Chip) (v : Byte) :
    ReadsBack ph (decodeData c (ph.of c) v) [(dataSelector c).code, v] := by
  have hjoin : v.extractLsb' 3 5 ++ v.extractLsb' 0 3 = v := (join_fields v 0 5 3).trans (all_bits v)
  unfold decodeData
  split
  case h_1 hp => exact ⟨rfl, beq_iff_eq.2 hp, congrArg (fun b => [(dataSelector c).code, b]) hjoin⟩
  case h_2 hp => exact ⟨rfl, beq_iff_eq.2 hp, rfl⟩
  case h_3 hp => exact ⟨rfl, beq_iff_eq.2 hp, rfl⟩

theorem decodeRead_readsBack (ph : Phases) {c : Chip} {b : Byte} {i : Instr} (h : decodeRead c b = .ok i) :
    ReadsBack ph i [(readSelector c).code, b] := by
  unfold decodeRead at h
  split at h
  case isTrue h0 => cases h; rw [h0]; exact ⟨rfl, rfl, rfl⟩
  case isFalse =>
    split at h
    case isTrue h1 => cases h; rw [h1]; exact ⟨rfl, rfl, rfl⟩
    case isFalse => cases h

theorem decodeOperands_readsBack {ph : Phases} {sel : Selector} {ops : List Byte} {i : Instr}
    (h : decodeOperands ph sel ops = .ok i) : ReadsBack ph i (sel.code :: ops) := by
  cases sel <;> simp only [decodeOperands] at h
  case mcmd => obtain ⟨v, rfl, ⟨⟩⟩ := oneByte_ok h; exact decodeCommand_readsBack ph .M v
  case scmd => obtain ⟨v, rfl, ⟨⟩⟩ := oneByte_ok h; exact decodeCommand_readsBack ph .S v
  case mdata => obtain ⟨v, rfl, ⟨⟩⟩ := oneByte_ok h; exact decodeData_readsBack ph .M v
  case sdata => obtain ⟨v, rfl, ⟨⟩⟩ := oneByte_ok h; exact decodeData_readsBack ph .S v
  case mread => obtain ⟨b, rfl, hb⟩ := oneByte_ok h; exact decodeRead_readsBack (c := .M) ph hb
  case sread => obtain ⟨b, rfl, hb⟩ := oneByte_ok h; exact decodeRead_readsBack (c := .S) ph hb
  case raise => obtain ⟨n, rfl, ⟨⟩⟩ := oneByte_ok h; exact ⟨rfl, rfl, rfl⟩
  case lower => obtain ⟨n, rfl, ⟨⟩⟩ := oneByte_ok h; exact ⟨rfl, rfl, rfl⟩
  case query => obtain ⟨n, rfl, ⟨⟩⟩ := oneByte_ok h; exact ⟨rfl, rfl, rfl⟩
  case anyPending => obtain ⟨rfl, rfl⟩ := noOperand_ok h; exact ⟨rfl, rfl, rfl⟩
  case deliverable => obtain ⟨rfl, rfl⟩ := noOperand_ok h; exact ⟨rfl, rfl, rfl⟩
  case recompute => obtain ⟨rfl, rfl⟩ := noOperand_ok h; exact ⟨rfl, rfl, rfl⟩
  case service => obtain ⟨rfl, rfl⟩ := noOperand_ok h; exact ⟨rfl, rfl, rfl⟩
  case encode => obtain ⟨w, rfl, ⟨⟩⟩ := oneWord_ok h; exact ⟨rfl, rfl, rfl⟩
  case lookupInput => obtain ⟨p, rfl, ⟨⟩⟩ := oneWord_ok h; exact ⟨rfl, rfl, rfl⟩
  case lookupOutput => obtain ⟨p, rfl, ⟨⟩⟩ := oneWord_ok h; exact ⟨rfl, rfl, rfl⟩
  case in8 => obtain ⟨p, rfl, ⟨⟩⟩ := oneWord_ok h; exact ⟨rfl, rfl, rfl⟩
  case in16 => obtain ⟨p, rfl, ⟨⟩⟩ := oneWord_ok h; exact ⟨rfl, rfl, rfl⟩
  case in32 => obtain ⟨p, rfl, ⟨⟩⟩ := oneWord_ok h; exact ⟨rfl, rfl, rfl⟩
  case ignore =>
    obtain ⟨b, rfl, hb⟩ := oneByte_ok h
    obtain ⟨x, hx, rfl⟩ := map_ok hb
    exact ⟨rfl, rfl, congrArg (fun b => [Selector.ignore.code, b]) (flagByte_of_decode hx)⟩
  case register =>
    split at h
    case h_2 => cases h
    case h_1 =>
      obtain ⟨p, d, dir, rfl, hw, hd⟩ := encode_of_decodeRegister h
      refine ⟨rfl, rfl, ?_⟩
      rw [encode, hw, hd, bytes24_append]
      rfl
  case unregister =>
    split at h
    case h_2 => cases h
    case h_1 =>
      split at h
      case isFalse => cases h
      case isTrue hw =>
        obtain ⟨d, hd, rfl⟩ := map_ok h
        exact ⟨rfl, rfl, by rw [encode, deviceBytes_of_decode hd, hw]⟩
  case out8 =>
    split at h
    case h_2 => cases h
    case h_1 =>
      cases h
      exact ⟨rfl, rfl, by rw [encode, bytes16_append]⟩
  case out16 =>
    split at h
    case h_2 => cases h
    case h_1 =>
      cases h
      exact ⟨rfl, rfl, by rw [encode, bytes16_append, bytes16_append]; rfl⟩
  case out32 =>
    split at h
    case h_2 => cases h
    case h_1 =>
      cases h
      exact ⟨rfl, rfl, by rw [encode, bytes32_append, bytes16_append]; rfl⟩
  case reset =>
    split at h
    case h_2 => cases h
    case h_1 =>
      split at h
      case isFalse => cases h
      case isTrue hw =>
        obtain ⟨t, ht, rfl⟩ := map_ok h
        exact ⟨rfl, rfl, by rw [encode, scopeBytes_of_decode ht, hw]⟩
  case rep =>
    split at h
    case h_2 => cases h
    case h_1 =>
      obtain ⟨j, rfl, hw, h0, hn⟩ := encode_of_decodeRepInputs h
      refine ⟨rfl, rfl, ?_⟩
      rw [encode, hw, h0, hn, bytes16_append, bytes32_append, bytes32_append]
      rfl

/-! ### Instructions back to instructions -/

theorem decode_encode_of_isCommandOf (ph : Phases) {c : Chip} {i : Instr} (hc : i.isCommandOf c)
    (hw : i.wf = true) : decode ph (encode i) = .ok i := by
  rw [encode_of_isCommandOf hc, decode_commandFrame, decodeCommand_commandByte hc hw]

theorem decode_encode_of_wf {ph : Phases} {i : Instr} (hw : i.wf = true) (hp : i.fitsPhases ph = true) :
    decode ph (encode i) = .ok i := by
  cases i with
  | icw1 c v => exact decode_encode_of_isCommandOf ph (c := c) rfl hw
  | ocw3Poll c v => exact decode_encode_of_isCommandOf ph (c := c) rfl hw
  | ocw3Bit7 c v => exact decode_encode_of_isCommandOf ph (c := c) rfl hw
  | ocw3 c esmm smm rr ris => exact decode_encode_of_isCommandOf ph (c := c) rfl hw
  | eoi c => exact decode_encode_of_isCommandOf ph (c := c) rfl hw
  | seoi c l => exact decode_encode_of_isCommandOf ph (c := c) rfl hw
  | ocw2Unrecognized c v => exact decode_encode_of_isCommandOf ph (c := c) rfl hw
  | icw2 c base dropped =>
    obtain ⟨hbase, hdropped⟩ := vectorBase_fields base dropped
    rw [encode, decode_dataFrame, beq_iff_eq.1 hp, decodeData, hbase, hdropped]
  | icw4 c v => rw [encode, decode_dataFrame, beq_iff_eq.1 hp, decodeData]
  | ocw1 c m => rw [encode, decode_dataFrame, beq_iff_eq.1 hp, decodeData]
  | readStatus c => exact decode_readFrame ph c 0
  | readMask c => exact decode_readFrame ph c 1
  | encode w => rw [encode, decode_code, decodeOperands, oneWord_bytes16]
  | lookupInput p => rw [encode, decode_code, decodeOperands, oneWord_bytes16]
  | lookupOutput p => rw [encode, decode_code, decodeOperands, oneWord_bytes16]
  | in8 p => rw [encode, decode_code, decodeOperands, oneWord_bytes16]
  | in16 p => rw [encode, decode_code, decodeOperands, oneWord_bytes16]
  | in32 p => rw [encode, decode_code, decodeOperands, oneWord_bytes16]
  | ignore b => cases b <;> rfl
  | register p d dir =>
    obtain ⟨kind, k, hbytes, hd⟩ := decodeDevice_bytes d
    rw [encode, decode_code, hbytes]
    show decodeRegister (_ ++ _ ++ _) kind k = _
    rw [join24, decodeRegister_registerWord p dir hd]
  | unregister d =>
    obtain ⟨kind, k, hbytes, hd⟩ := decodeDevice_bytes d
    rw [encode, decode_code, hbytes]
    show (decodeDevice kind k).map _ = _
    rw [hd]
    rfl
  | out8 p v =>
    rw [encode, decode_code]
    exact congrArg (fun p => Except.ok (Instr.out8 p v)) (join16 p)
  | out16 p v =>
    rw [encode, decode_code]
    exact congrArg₂ (fun p v => Except.ok (Instr.out16 p v)) (join16 p) (join16 v)
  | out32 p v =>
    rw [encode, decode_code]
    exact congrArg₂ (fun p v => Except.ok (Instr.out32 p v)) (join16 p) (join32 v)
  | reset t =>
    obtain ⟨kind, k, hbytes, ht⟩ := decodeScope_bytes t
    rw [encode, decode_code, hbytes]
    show (decodeScope kind k).map _ = _
    rw [ht]
    rfl
  | rep j =>
    rw [encode, decode_code]
    show decodeRepInputs (_ ++ _) (_ ++ _ ++ _ ++ _) (_ ++ _ ++ _ ++ _) = _
    rw [join16, join32, join32, decodeRepInputs_repWord]
  | raise n => rfl
  | lower n => rfl
  | query n => rfl
  | anyPending => rfl
  | deliverable => rfl
  | recompute => rfl
  | service => rfl

/-- Settles O57: every instruction is read back from its frame, row by row. -/
theorem decodeOfEncode : Obligations.DecodeOfEncode := fun _ _ => decode_encode_of_wf

/-- Settles O58: the selector of a frame says which row read it, and that row's operands are its bytes. -/
theorem encodeOfDecode : Obligations.EncodeOfDecode := by
  intro ph bytes i h
  unfold decode at h
  split at h
  · cases h
  · split at h
    · cases h
    case h_2 sel hsel =>
      rw [← code_of_ofByte hsel]
      exact decodeOperands_readsBack h

/-- A byte with bits 5 and 6 set and bit 7 clear, by its range. -/
theorem specific_iff_range (v : Byte) :
    v.extractLsb' 5 3 = 0b011 ↔ 0x60 ≤ v.toNat ∧ v.toNat ≤ 0x7F := by
  revert v; decide

/-- Settles O59: each bit that the decoder tests is the range of a remainder. -/
theorem commandPortMapByRanges : Obligations.CommandPortMapByRanges := by
  intro c v
  have hv : v.toNat < 256 := v.isLt
  have hindex : v.extractLsb' 0 3 = BitVec.ofNat 3 (v.toNat % 8) := by
    apply BitVec.eq_of_toNat_eq
    simp
  have bit0 : v.getLsbD 0 = decide (1 ≤ v.toNat % 2) := getLsbD_eq_range v 0
  have bit1 : v.getLsbD 1 = decide (2 ≤ v.toNat % 4) := getLsbD_eq_range v 1
  have bit2 : v.getLsbD 2 = decide (4 ≤ v.toNat % 8) := getLsbD_eq_range v 2
  have bit3 : v.getLsbD 3 = decide (8 ≤ v.toNat % 16) := getLsbD_eq_range v 3
  have bit4 : v.getLsbD 4 = decide (16 ≤ v.toNat % 32) := getLsbD_eq_range v 4
  have bit5 : v.getLsbD 5 = decide (32 ≤ v.toNat % 64) := getLsbD_eq_range v 5
  have bit6 : v.getLsbD 6 = decide (64 ≤ v.toNat % 128) := getLsbD_eq_range v 6
  have bit7 : v.getLsbD 7 = decide (128 ≤ v.toNat % 256) := getLsbD_eq_range v 7
  simp only [decodeCommand, bit0, bit1, bit2, bit3, bit4, bit5, bit6, bit7, specific_iff_range, hindex,
    decide_eq_true_eq, ge_iff_le]
  by_cases h4 : 16 ≤ v.toNat % 32
  · rw [if_pos h4, if_pos h4]
  rw [if_neg h4, if_neg h4]
  by_cases h3 : 8 ≤ v.toNat % 16
  case pos =>
    have hpoll : 4 ≤ v.toNat % 8 ↔ 12 ≤ v.toNat % 16 := by omega
    have hbit7 : 128 ≤ v.toNat % 256 ↔ 128 ≤ v.toNat := by omega
    have hris : 1 ≤ v.toNat % 2 ↔ v.toNat % 2 = 1 := by omega
    simp only [hpoll, hbit7, hris, h3, if_true]
    split
    · rfl
    split
    · rfl
    · have hesmm : 64 ≤ v.toNat % 128 ↔ 64 ≤ v.toNat := by omega
      simp only [hesmm]
  case neg =>
    have hpoll : ¬12 ≤ v.toNat % 16 := by omega
    have hseoi : 0x60 ≤ v.toNat ∧ v.toNat ≤ 0x7F ↔ 0x60 ≤ v.toNat ∧ v.toNat ≤ 0x67 := by omega
    simp only [hpoll, hseoi, h3, if_false]
    split
    · rfl
    split
    · have hl : v.toNat % 8 = v.toNat - 0x60 := by omega
      rw [hl]
    · rfl

/-- Settles O60: each word is the frame of a command byte of the master. -/
theorem listedCommandWordsDecode : Obligations.ListedCommandWordsDecode :=
  ⟨rfl, rfl, rfl, rfl, rfl, rfl, rfl⟩

end Sys2Proof
end

section
/-! PROOFS. The command protocol of a chip (42_pic_commands.md R111 to R117, R119, R120): what each command
rewrites, and the reports under the two policies (60_exceptions.md R171). -/

namespace Sys2Proof.Machine

theorem exec_icw1 (c : Chip) (v : Byte) (s : State) :
    exec (.icw1 c v) s = .next ((initChip c v s).setResult .none) := rfl

theorem exec_ocw3Poll (c : Chip) (v : Byte) (s : State) :
    exec (.ocw3Poll c v) s = doneNone (report (.pollUnsupported c v) s) := rfl

theorem exec_ocw3Bit7 (c : Chip) (v : Byte) (s : State) :
    exec (.ocw3Bit7 c v) s = doneNone (report (.unrecognizedCommand c v) s) := rfl

theorem exec_ocw3 (c : Chip) (esmm smm rr ris : Bool) (s : State) :
    exec (.ocw3 c esmm smm rr ris) s = .next ((statusMode c esmm smm rr ris s).setResult .none) := rfl

theorem exec_eoi (c : Chip) (s : State) : exec (.eoi c) s = doneNone (endNonSpecific c s) := rfl

theorem exec_seoi (c : Chip) (l : BitVec 3) (s : State) :
    exec (.seoi c l) s = .next ((endSpecific c l.toNat s).setResult .none) := rfl

theorem exec_ocw2Unrecognized (c : Chip) (v : Byte) (s : State) :
    exec (.ocw2Unrecognized c v) s = doneNone (report (.unrecognizedCommand c v) s) := rfl

theorem exec_icw2 (c : Chip) (base : BitVec 5) (dropped : BitVec 3) (s : State) :
    exec (.icw2 c base dropped) s = .next ((vectorBaseByte c (base ++ dropped) s).setResult .none) := rfl

theorem exec_icw4 (c : Chip) (v : Byte) (s : State) :
    exec (.icw4 c v) s = .next ((fourthByte c s).setResult .none) := rfl

theorem doneNone_next (s : State) : doneNone (.next s) = .next (s.setResult .none) := rfl

theorem doneNone_fault (r : Fault) : doneNone (.fault r) = .fault r := rfl

/-! ### Initialization -/

theorem initChip_chip (c : Chip) (v : Byte) (s : State) :
    (initChip c v s).chip c = { s.chip c with
      mask := 0x00, inService := 0x00, request := 0x00, readIsr := false, specialMask := false
      awaitIcw2 := true, awaitIcw4 := v.getLsbD 0 } := by
  simp [initChip]

theorem initChip_chip_ne {c c' : Chip} (v : Byte) (s : State) (h : c' ≠ c) :
    (initChip c v s).chip c' = s.chip c' := by
  simp [initChip, setChip_chip_ne s _ h]

theorem initChip_exact (c : Chip) (v : Byte) (s : State) : SummaryExact (initChip c v s) :=
  recompute_exact _

/-- The low bits of a vector-base byte are dropped. -/
theorem vectorBaseOf_append (base : BitVec 5) (dropped : BitVec 3) :
    vectorBaseOf (base ++ dropped) = base ++ 0#3 := by
  revert base dropped; decide

/-- With zeros below the base, the OR with an index is a sum. -/
theorem vectorOf_eq_add (base : BitVec 5) {i : Nat} (hi : i < 8) :
    vectorOf (base ++ 0#3) i = (base ++ 0#3) + BitVec.ofNat 8 i := by
  revert base i; decide

/-! ### End of interrupt -/

/-- Clearing the lowest set bit, by the carry of a subtraction. -/
theorem clearBit_lowestSet (x : Byte) :
    (lowestSet x).map (clearBit x) = if x = 0 then none else some (x &&& (x - 1)) := by
  revert x; decide

theorem endNonSpecific_some {c : Chip} {s : State} (h : (s.chip c).inService ≠ 0) :
    endNonSpecific c s = .next (s.setChip c { s.chip c with
      inService := (s.chip c).inService &&& ((s.chip c).inService - 1) }) := by
  have hclear := clearBit_lowestSet (s.chip c).inService
  rw [if_neg h] at hclear
  obtain ⟨i, hi, hbits⟩ := Option.map_eq_some_iff.1 hclear
  simp only [endNonSpecific, hi, clearInService, hbits]

theorem endNonSpecific_none {c : Chip} {s : State} (h : (s.chip c).inService = 0) :
    endNonSpecific c s = report (.eoiNothingInService c) s := by
  simp only [endNonSpecific, (lowestSet_eq_none _).2 h]

/-! ### Reports -/

theorem report_stops {s : State} (hp : s.cfg.policy = .fault) {v : Violation} (hv : v.stops = true) :
    report v s = .fault (.violation v) := if_pos ⟨hp, hv⟩

theorem exec_raise_outOfRange {n : Byte} (h : 15 < n.toNat) (s : State) :
    exec (.raise n) s = doneNone (report (.lineOutOfRange n) s) := if_pos h

theorem exec_lower_outOfRange {n : Byte} (h : 15 < n.toNat) (s : State) :
    exec (.lower n) s = doneNone (report (.lineOutOfRange n) s) := if_pos h

theorem exec_query_outOfRange {n : Byte} (h : 15 < n.toNat) (s : State) :
    exec (.query n) s = mapNext (report (.lineOutOfRange n) s) (·.setResult (.bit false)) := if_pos h

end Sys2Proof.Machine

namespace Sys2Proof

open Sys2Proof.Machine

/-- Settles O1: the chip is rewritten whole but for its vector base, and `Recompute()` makes the summary
exact. -/
theorem initByteClearsChip : Obligations.InitByteClearsChip := by
  intro s c v
  have hexact : SummaryExact ((initChip c v s).setResult .none) := (initChip_exact c v s).setResult .none
  refine ⟨_, exec_icw1 c v s, ?chip, ?other, hexact.isPending, recompute_setChip_onlyChips s c _⟩
  case chip => rw [setResult_chip, initChip_chip]
  case other =>
    intro c' hne
    rw [setResult_chip, initChip_chip_ne v s hne]

/-- Settles O2: `statusMode` is this rewriting. -/
theorem statusModeWritesTwoFlags : Obligations.StatusModeWritesTwoFlags :=
  fun s c esmm smm rr ris => exec_ocw3 c esmm smm rr ris s

/-- Settles O3: the lowest set bit is the one that the subtraction of 1 borrows from. -/
theorem nonSpecificEoiClearsLowestBit : Obligations.NonSpecificEoiClearsLowestBit := by
  intro s c
  refine ⟨fun hsome => ?_, fun hnone hpolicy => ?_⟩
  · rw [exec_eoi, endNonSpecific_some hsome, doneNone_next]
  · rw [exec_eoi, endNonSpecific_none hnone, report_returns hpolicy, doneNone_next]

/-- Settles O4: the new register is `clearBit` of the old one at the named index. -/
theorem specificEoiClearsNamedBit : Obligations.SpecificEoiClearsNamedBit := by
  intro s c l
  refine ⟨clearBit (s.chip c).inService l.toNat, exec_seoi c l s, fun k _ => ?_⟩
  rw [clearBit_getLsbD, decide_not]

/-- Settles O5: under the default policy a report is its record. -/
theorem violationsOnlyReport : Obligations.ViolationsOnlyReport := by
  intro s c v n hp
  have hreport := report_returns (s := s) hp
  refine ⟨?_, ?_, ?_, fun hn => ⟨?_, ?_, ?_⟩⟩
  · rw [exec_ocw3Poll, hreport, doneNone_next]
  · rw [exec_ocw3Bit7, hreport, doneNone_next]
  · rw [exec_ocw2Unrecognized, hreport, doneNone_next]
  · rw [exec_raise_outOfRange hn, hreport, doneNone_next]
  · rw [exec_lower_outOfRange hn, hreport, doneNone_next]
  · rw [exec_query_outOfRange hn, hreport, mapNext]

/-- Settles O6: under the strict policy a report of V1 to V4 is the fault that names it. -/
theorem strictPolicyStopsAtViolation : Obligations.StrictPolicyStopsAtViolation := by
  intro s c v n hp hn
  have hreport {w : Violation} (hw : w.stops = true) := report_stops (s := s) hp hw
  refine ⟨?_, ?_, ?_, fun hnone => ?_, ?_, ?_, ?_⟩
  · rw [exec_ocw3Poll, hreport rfl, doneNone_fault]
  · rw [exec_ocw3Bit7, hreport rfl, doneNone_fault]
  · rw [exec_ocw2Unrecognized, hreport rfl, doneNone_fault]
  · rw [exec_eoi, endNonSpecific_none hnone, hreport rfl, doneNone_fault]
  · rw [exec_raise_outOfRange hn, hreport rfl, doneNone_fault]
  · rw [exec_lower_outOfRange hn, hreport rfl, doneNone_fault]
  · rw [exec_query_outOfRange hn, hreport rfl, mapNext]

/-- Settles O7: the byte's upper five bits are its base field. -/
theorem vectorBaseTakesUpperBits : Obligations.VectorBaseTakesUpperBits := by
  intro s c base dropped
  refine ⟨?_, fun i hi => vectorOf_eq_add base hi⟩
  rw [exec_icw2, vectorBaseByte, vectorBaseOf_append]

/-- Settles O8: `fourthByte` clears the flag and does not look at the byte. -/
theorem fourthByteIsConsumed : Obligations.FourthByteIsConsumed := fun s c v => exec_icw4 c v s

end Sys2Proof
end

section
/-! PROOFS. Lines and queries (41_pic_lines.md R101, R102, R104, R105): which request bits raising and lowering
a line write, and what the two queries answer. -/

namespace Sys2Proof.Machine

open Sys2Proof.Statements

/-! ### One bit of a chip register -/

@[simp] theorem setRequest_chip (c : Chip) (i : Nat) (s : State) :
    (setRequest c i s).chip c = { s.chip c with request := setBit (s.chip c).request i } :=
  setChip_chip s c _

@[simp] theorem clearRequest_chip (c : Chip) (i : Nat) (s : State) :
    (clearRequest c i s).chip c = { s.chip c with request := clearBit (s.chip c).request i } :=
  setChip_chip s c _

@[simp] theorem setRequest_master (i : Nat) (s : State) :
    (setRequest .M i s).master = { s.master with request := setBit s.master.request i } := rfl

@[simp] theorem setRequest_slave (i : Nat) (s : State) :
    (setRequest .S i s).slave = { s.slave with request := setBit s.slave.request i } := rfl

@[simp] theorem setRequest_M_slave (i : Nat) (s : State) : (setRequest .M i s).slave = s.slave := rfl

@[simp] theorem setRequest_S_master (i : Nat) (s : State) : (setRequest .S i s).master = s.master := rfl

@[simp] theorem clearRequest_master (i : Nat) (s : State) :
    (clearRequest .M i s).master = { s.master with request := clearBit s.master.request i } := rfl

@[simp] theorem clearRequest_slave (i : Nat) (s : State) :
    (clearRequest .S i s).slave = { s.slave with request := clearBit s.slave.request i } := rfl

@[simp] theorem clearRequest_M_slave (i : Nat) (s : State) : (clearRequest .M i s).slave = s.slave := rfl

@[simp] theorem clearRequest_S_master (i : Nat) (s : State) : (clearRequest .S i s).master = s.master := rfl

/-! ### Raising and lowering -/

theorem raiseLine_master_line {n : Nat} (h : n < 8) (s : State) :
    raiseLine n s = recompute (setRequest .M n s) := if_pos h

theorem raiseLine_slave_line {n : Nat} (h : 8 ≤ n) (s : State) :
    raiseLine n s = recompute (setRequest .M Config.cascadeLine (setRequest .S (n - 8) s)) :=
  if_neg (Nat.not_lt.2 h)

theorem lowerLine_master_line {n : Nat} (h : n < 8) (s : State) :
    lowerLine n s = recompute (clearRequest .M n s) := if_pos h

theorem lowerLine_slave_line {n : Nat} (h : 8 ≤ n) (s : State) :
    lowerLine n s = recompute (lowerCascade (clearRequest .S (n - 8) s)) :=
  if_neg (Nat.not_lt.2 h)

theorem raiseLine_master_request {k : Nat} (hk : k < 8) (n : Nat) (s : State) :
    (raiseLine n s).master.request.getLsbD k = (s.master.request.getLsbD k
      || decide (k = n) || (decide (8 ≤ n) && decide (k = 2))) := by
  by_cases hn : n < 8
  · have : ¬8 ≤ n := by omega
    simp [raiseLine_master_line hn, setBit_getElem, hk, this]
  · have hge : 8 ≤ n := by omega
    have : k ≠ n := by omega
    simp [raiseLine_slave_line hge, setBit_getElem, hk, hge, this, Config.cascadeLine]

theorem raiseLine_slave_request {k : Nat} (hk : k < 8) (n : Nat) (s : State) :
    (raiseLine n s).slave.request.getLsbD k
      = (s.slave.request.getLsbD k || decide (k + 8 = n)) := by
  by_cases hn : n < 8
  · have : k + 8 ≠ n := by omega
    simp [raiseLine_master_line hn, this]
  · have hge : 8 ≤ n := by omega
    have : k = n - 8 ↔ k + 8 = n := by omega
    simp [raiseLine_slave_line hge, setBit_getElem, hk, this]

@[simp] theorem lowerCascade_slave (s : State) : (lowerCascade s).slave = s.slave := by
  unfold lowerCascade
  split <;> rfl

theorem lowerCascade_master_request (k : Nat) (s : State) :
    (lowerCascade s).master.request.getLsbD k
      = (s.master.request.getLsbD k && !(decide (s.slave.request = 0) && decide (k = 2))) := by
  unfold lowerCascade
  split
  case isTrue h => simp [h, clearBit_getLsbD, Config.cascadeLine]
  case isFalse h => simp only [h, decide_false, Bool.false_and, Bool.not_false, Bool.and_true]

theorem lowerLine_slave_request {k : Nat} (hk : k < 8) (n : Nat) (s : State) :
    (lowerLine n s).slave.request.getLsbD k
      = (s.slave.request.getLsbD k && decide (k + 8 ≠ n)) := by
  by_cases hn : n < 8
  · have : k + 8 ≠ n := by omega
    simp [lowerLine_master_line hn, this]
  · have hge : 8 ≤ n := by omega
    have : k = n - 8 ↔ k + 8 = n := by omega
    simp [lowerLine_slave_line hge, clearBit_getLsbD, this]

theorem lowerLine_master_request {k : Nat} (hk : k < 8) (n : Nat) (s : State) :
    (lowerLine n s).master.request.getLsbD k = (s.master.request.getLsbD k && decide (k ≠ n)
      && !(decide (8 ≤ n) && decide ((lowerLine n s).slave.request = 0) && decide (k = 2))) := by
  by_cases hn : n < 8
  · have : ¬8 ≤ n := by omega
    simp [lowerLine_master_line hn, clearBit_getLsbD, this]
  · have hge : 8 ≤ n := by omega
    have : k ≠ n := by omega
    simp only [lowerLine_slave_line hge, recompute_master, recompute_slave, lowerCascade_master_request,
      lowerCascade_slave, clearRequest_S_master, hge, this, decide_true, ne_eq, not_false_eq_true,
      Bool.true_and, Bool.and_true]

theorem raiseLine_onlyChips (n : Nat) (s : State) : OnlyChips s ((raiseLine n s).setResult .none) := by
  unfold raiseLine
  split <;> rfl

theorem lowerLine_onlyChips (n : Nat) (s : State) : OnlyChips s ((lowerLine n s).setResult .none) := by
  unfold lowerLine lowerCascade
  split
  · rfl
  · split <;> rfl

theorem exec_raise {n : Byte} (h : n.toNat < 16) (s : State) :
    exec (.raise n) s = .next ((raiseLine n.toNat s).setResult .none) := if_neg (by omega)

theorem exec_lower {n : Byte} (h : n.toNat < 16) (s : State) :
    exec (.lower n) s = .next ((lowerLine n.toNat s).setResult .none) := if_neg (by omega)

/-! ### Queries -/

theorem exec_query {n : Byte} (h : n.toNat < 16) (s : State) :
    exec (.query n) s = .next (s.setResult (.bit (requestBit n.toNat s))) := if_neg (by omega)

theorem requestBit_eq (n : Nat) (s : State) :
    requestBit n s
      = if n < 8 then s.master.request.getLsbD n else s.slave.request.getLsbD (n - 8) := by
  unfold requestBit lineChip lineIndex
  split <;> rfl

theorem exec_deliverable (s : State) :
    exec .deliverable s = .next (s.setResult (.bit (deliverableOf s.summary))) := rfl

/-- Some line is deliverable exactly when the priority order selects one. -/
theorem deliverableOf_iff_selects (w : BitVec 16) : deliverableOf w = true ↔ ∃ n, Selects w n := by
  simp only [deliverableOf_eq_isSome, Option.isSome_iff_exists, encodeLine_eq_some_iff_selects]

end Sys2Proof.Machine

namespace Sys2Proof

open Sys2Proof.Machine

/-- Settles O11: the request bits of `raiseLine`, whose frame is that of any other agent's action. -/
theorem raiseSetsRequestAndCascade : Obligations.RaiseSetsRequestAndCascade := by
  intro s n hn
  have hagent := raiseLine_only n.toNat s
  have hexact : SummaryExact ((raiseLine n.toNat s).setResult .none) := (raiseLine_exact _ _).setResult .none
  exact ⟨_, exec_raise hn s, fun k hk => raiseLine_master_request hk _ s,
    fun k hk => raiseLine_slave_request hk _ s, hagent.chip .M, hagent.chip .S, hexact.isPending,
    raiseLine_onlyChips _ s⟩

/-- Settles O12: the request bits of `lowerLine`, whose frame is that of any other agent's action. -/
theorem lowerClearsRequestAndCascade : Obligations.LowerClearsRequestAndCascade := by
  intro s n hn
  have hagent := lowerLine_only n.toNat s
  have hexact : SummaryExact ((lowerLine n.toNat s).setResult .none) := (lowerLine_exact _ _).setResult .none
  exact ⟨_, exec_lower hn s, fun k hk => lowerLine_slave_request hk _ s,
    fun k hk => lowerLine_master_request hk _ s, hagent.chip .M, hagent.chip .S, hexact.isPending,
    lowerLine_onlyChips _ s⟩

/-- Settles O13: the answer is `requestBit`. -/
theorem queryReturnsRequestBit : Obligations.QueryReturnsRequestBit := by
  intro s n hn
  rw [exec_query hn, requestBit_eq]

/-- Settles O15: the answer is `deliverableOf` of the summary. -/
theorem deliverableMeansSomeLineSelected : Obligations.DeliverableMeansSomeLineSelected := by
  intro s
  exact ⟨_, exec_deliverable s, deliverableOf_iff_selects s.summary⟩

end Sys2Proof
end

section
/-! PROOFS. Delivery (43_service.md R140 to R148): what `service()` writes for the line it delivers, when it does
nothing, and what it neither reads nor destroys. -/

namespace Sys2Proof.Machine

open Sys2Proof.Statements

theorem exec_service (s : State) :
    exec .service s = .next ((serviceStep s).2.setResult (.vector (serviceStep s).1)) := rfl

theorem exec_ignore (b : Bool) (s : State) :
    exec (.ignore b) s = .next ((setIgnoreAll b s).setResult .none) := rfl

/-! ### The delivered line -/

theorem deliver_vector (n : Nat) (s : State) : (deliver n s).1 = deliveredVector s n := by
  unfold deliver deliveredVector
  split <;> rfl

/-- A line of the master goes from request to in service. -/
theorem deliver_master_line {n : Nat} (h : n < 8) (s : State) :
    (deliver n s).2.master = { s.master with
      request := clearBit s.master.request n, inService := setBit s.master.inService n }
    ∧ (deliver n s).2.slave = s.slave := by
  simp only [deliver, if_pos h]
  exact ⟨rfl, rfl⟩

/-- A line of the slave goes from request to in service, and the cascade line is in service on the master. -/
theorem deliver_slave_line {n : Nat} (h : 8 ≤ n) (s : State) :
    (deliver n s).2.master = { s.master with
      inService := setBit s.master.inService Config.cascadeLine }
    ∧ (deliver n s).2.slave = { s.slave with
      request := clearBit s.slave.request (n - 8), inService := setBit s.slave.inService (n - 8) } := by
  simp only [deliver, if_neg (Nat.not_lt.2 h)]
  exact ⟨rfl, rfl⟩

theorem deliver_exact (n : Nat) (s : State) : SummaryExact (deliver n s).2 := by
  unfold deliver
  split <;> rfl

theorem deliver_events (n : Nat) (s : State) : (deliver n s).2.events
    = s.events ++ [.interrupt (deliveredVector s n) .external s.core.ip, .setRunning] := by
  rw [← deliver_vector]
  unfold deliver
  split <;> exact List.append_assoc s.events [_] [_]

theorem deliver_core (n : Nat) (s : State) :
    (deliver n s).2.core = { s.core with runState := .running } := by
  rw [deliver_frame]

/-- The request and in-service bits after a delivery (43_service.md R140). -/
theorem deliver_bits {k : Nat} (hk : k < 8) (n : Nat) (s : State) :
    (deliver n s).2.master.request.getLsbD k = (s.master.request.getLsbD k && decide (k ≠ n))
    ∧ (deliver n s).2.slave.request.getLsbD k = (s.slave.request.getLsbD k && decide (k + 8 ≠ n))
    ∧ (deliver n s).2.master.inService.getLsbD k
      = (s.master.inService.getLsbD k || decide (k = n) || (decide (8 ≤ n) && decide (k = 2)))
    ∧ (deliver n s).2.slave.inService.getLsbD k
      = (s.slave.inService.getLsbD k || decide (k + 8 = n)) := by
  by_cases hn : n < 8
  · obtain ⟨hm, hs⟩ := deliver_master_line hn s
    have h1 : ¬8 ≤ n := by omega
    have h2 : k + 8 ≠ n := by omega
    simp [hm, hs, setBit_getElem, clearBit_getElem, hk, h1, h2]
  · have hge : 8 ≤ n := by omega
    obtain ⟨hm, hs⟩ := deliver_slave_line hge s
    have h1 : k ≠ n := by omega
    have h2 : k = n - 8 ↔ k + 8 = n := by omega
    simp [hm, hs, setBit_getElem, clearBit_getElem, hk, hge, h1, h2, Config.cascadeLine]

/-- No chip register but `request` and `inService` is written by a delivery. -/
theorem deliver_chips (n : Nat) (s : State) :
    (deliver n s).2.master = { s.master with
      request := (deliver n s).2.master.request, inService := (deliver n s).2.master.inService }
    ∧ (deliver n s).2.slave = { s.slave with
      request := (deliver n s).2.slave.request, inService := (deliver n s).2.slave.inService } := by
  unfold deliver
  split <;> exact ⟨rfl, rfl⟩

/-! ### When nothing is delivered -/

theorem encodeLine_eq_none_iff_not_selects (w : BitVec 16) : encodeLine w = none ↔ ¬∃ n, Selects w n := by
  rw [← deliverableOf_iff_selects, deliverableOf_eq_isSome, Option.not_isSome_iff_eq_none]

/-- `Encode` finds no line in the empty word and in the word of the cascade line alone. -/
theorem encodeLine_eq_none_iff (w : BitVec 16) : encodeLine w = none ↔ w = 0x0000 ∨ w = 0x0004 := by
  rw [encodeLine_eq_none]
  constructor
  · intro h
    have hbit (i : Nat) (hi : i ≠ 2) : w.getLsbD i = false := by
      have hdrop := drop_cascade_getLsbD w i
      rw [h] at hdrop
      simpa [hi] using hdrop.symm
    have hcascade : w = if w.getLsbD 2 then 0x0004 else 0x0000 := by
      apply BitVec.eq_of_getLsbD_eq
      intro i hi
      by_cases h2 : i = 2
      · subst h2
        cases hw : w.getLsbD 2 <;> rfl
      · rw [hbit i h2]
        cases w.getLsbD 2
        · simp
        · revert i; decide
    split at hcascade
    · exact .inr hcascade
    · exact .inl hcascade
  · rintro (rfl | rfl) <;> rfl

theorem serviceStep_fst_eq_none (s : State) :
    (serviceStep s).1 = none ↔ s.ignoreAll = true ∨ encodeLine s.summary = none := by
  constructor
  · intro h
    cases hi : s.ignoreAll with
    | true => exact .inl rfl
    | false =>
      cases he : encodeLine s.summary with
      | none => exact .inr rfl
      | some n => rw [serviceStep_selected hi he] at h; cases h
  · intro h
    rw [serviceStep_idle h]

theorem exec_service_idle {s : State} (h : s.ignoreAll = true ∨ encodeLine s.summary = none) :
    exec .service s = .next (s.setResult (.vector none)) := by
  rw [exec_service, serviceStep_idle h]

theorem exec_service_selected {s : State} {n : Nat} (hi : s.ignoreAll = false) (h : Selects s.summary n) :
    exec .service s = .next ((deliver n s).2.setResult (.vector (some (deliveredVector s n)))) := by
  rw [exec_service, serviceStep_selected hi ((encodeLine_eq_some_iff_selects _ n).2 h), deliver_vector]

/-! ### What `service()` does not read -/

/-- `s` with other in-service registers. -/
def withInService (a b : Byte) (s : State) : State :=
  { s with master := { s.master with inService := a }, slave := { s.slave with inService := b } }

/-- Two outcomes of `service()` that differ at most in the in-service registers. -/
def SameDelivery (o o' : Option Byte × State) : Prop :=
  o'.1 = o.1 ∧ o'.2.events = o.2.events ∧ o'.2.summary = o.2.summary
    ∧ o'.2.master.request = o.2.master.request ∧ o'.2.slave.request = o.2.slave.request

theorem deliver_withInService (a b : Byte) (n : Nat) (s : State) :
    (deliver n (withInService a b s)).1 = (deliver n s).1
    ∧ (deliver n (withInService a b s)).2.events = (deliver n s).2.events
    ∧ (deliver n (withInService a b s)).2.summary = (deliver n s).2.summary
    ∧ (deliver n (withInService a b s)).2.master.request = (deliver n s).2.master.request
    ∧ (deliver n (withInService a b s)).2.slave.request = (deliver n s).2.slave.request := by
  unfold deliver
  split <;> exact ⟨rfl, rfl, rfl, rfl, rfl⟩

theorem serviceStep_withInService (a b : Byte) (s : State) :
    SameDelivery (serviceStep s) (serviceStep (withInService a b s)) := by
  by_cases h : s.ignoreAll = true ∨ encodeLine s.summary = none
  case pos =>
    rw [serviceStep_idle h, serviceStep_idle (s := withInService a b s) h]
    exact ⟨rfl, rfl, rfl, rfl, rfl⟩
  case neg =>
    obtain ⟨hi, he⟩ := not_or.1 h
    rw [Bool.not_eq_true] at hi
    obtain ⟨n, hn⟩ := Option.ne_none_iff_exists'.1 he
    rw [serviceStep_selected hi hn, serviceStep_selected (s := withInService a b s) hi hn]
    obtain ⟨hvec, hrest⟩ := deliver_withInService a b n s
    exact ⟨congrArg some hvec, hrest⟩

/-! ### The statement `Q` of 10_state.md R26 -/

/-- `Q` survives a change that leaves the slave's requests and the cascade request alone. -/
theorem CascadeAsserted.of_same {s t : State} (h : CascadeAsserted s)
    (hs : t.slave.request = s.slave.request)
    (hm : t.master.request.getLsbD 2 = s.master.request.getLsbD 2) : CascadeAsserted t := by
  unfold CascadeAsserted
  rw [hs, hm]
  exact h

theorem clearBit_zero (i : Nat) : clearBit 0 i = 0 := BitVec.zero_and

theorem CascadeAsserted.raiseLine {s : State} (h : CascadeAsserted s) (n : Nat) :
    CascadeAsserted (raiseLine n s) := by
  have hbit := raiseLine_master_request (k := 2) (by decide) n s
  by_cases hn : n < 8
  case pos =>
    intro hne
    rw [raiseLine_master_line hn] at hne
    rw [hbit, h hne, Bool.true_or, Bool.true_or]
  case neg =>
    intro _
    simp [hbit, Nat.not_lt.1 hn]

theorem CascadeAsserted.lowerLine {s : State} (h : CascadeAsserted s) {n : Nat} (h2 : n ≠ 2) :
    CascadeAsserted (lowerLine n s) := by
  have hbit := lowerLine_master_request (k := 2) (by decide) n s
  intro hne
  have hold : s.slave.request ≠ 0 := by
    intro h0
    by_cases hn : n < 8
    · rw [lowerLine_master_line hn] at hne
      exact hne h0
    · rw [lowerLine_slave_line (Nat.not_lt.1 hn), recompute_slave, lowerCascade_slave, clearRequest_slave,
        h0, clearBit_zero] at hne
      exact hne rfl
  rw [hbit, h hold]
  simp only [hne, Ne.symm h2, ne_eq, not_false_eq_true, decide_true, decide_false, Bool.and_false,
    Bool.not_false, Bool.and_true]

theorem CascadeAsserted.deliver {s : State} (h : CascadeAsserted s) {n : Nat} (h2 : n ≠ 2) :
    CascadeAsserted (deliver n s).2 := by
  obtain ⟨hbit, -⟩ := deliver_bits (k := 2) (by decide) n s
  rw [decide_eq_true (Ne.symm h2), Bool.and_true] at hbit
  by_cases hn : n < 8
  case pos => exact h.of_same (by rw [(deliver_master_line hn s).2]) hbit
  case neg =>
    intro hne
    rw [hbit]
    apply h
    intro h0
    rw [(deliver_slave_line (Nat.not_lt.1 hn) s).2, h0, clearBit_zero] at hne
    exact hne rfl

theorem CascadeAsserted.serviceStep {s : State} (h : CascadeAsserted s) :
    CascadeAsserted (serviceStep s).2 := by
  unfold Machine.serviceStep
  split
  · exact h
  split
  · exact h
  · exact h.deliver ((encodeLine_eq_some _ _).1 ‹_›).2.1

end Sys2Proof.Machine

namespace Sys2Proof

open Sys2Proof.Machine

/-- Settles O19: with a selected line `service()` is `deliver`, and without one it is nothing. -/
theorem serviceDeliversSelectedLine : Obligations.ServiceDeliversSelectedLine := by
  intro s
  constructor
  case left =>
    intro n hi hn
    have hexact := (deliver_exact n s).setResult (.vector (some (Statements.deliveredVector s n)))
    obtain ⟨hmaster, hslave⟩ := deliver_chips n s
    refine ⟨_, exec_service_selected hi hn, fun k hk => deliver_bits hk n s, hmaster, hslave,
      hexact.isPending, deliver_events n s, ?frame⟩
    case frame => exact congrArg (fun t : State => t.setResult (.vector (some _))) (deliver_frame n s)
  case right =>
    intro h
    exact exec_service_idle (h.imp_right (encodeLine_eq_none_iff_not_selects _).2)

/-- Settles O20: a delivery answers a vector, so nothing is delivered exactly when none is answered. -/
theorem serviceNoOpExactlyThreeCases : Obligations.ServiceNoOpExactlyThreeCases := by
  intro s
  rw [← encodeLine_eq_none_iff]
  constructor
  case mp =>
    intro h
    rw [exec_service] at h
    injection h with h
    have hresult := congrArg State.result h
    injection hresult with hnone
    exact (serviceStep_fst_eq_none s).1 hnone
  case mpr => exact exec_service_idle

/-- Settles O21: `serviceStep` reads no in-service register. -/
theorem inServiceBlocksNothing : Obligations.InServiceBlocksNothing := by
  intro s a b
  obtain ⟨hvec, hevents, hsummary, hmaster, hslave⟩ := serviceStep_withInService a b s
  exact ⟨_, _, exec_service s, exec_service (withInService a b s), congrArg Result.vector hvec, hevents,
    hsummary, hmaster, hslave⟩

/-- Settles O22: the switch is one of the conditions of `service()` and of the poll. -/
theorem ignoreSwitchSuppressesDelivery : Obligations.IgnoreSwitchSuppressesDelivery := by
  intro s b
  refine ⟨exec_ignore b s, fun hon => ⟨exec_service_idle (.inl hon), fun halone => ?_⟩⟩
  rw [boundary_alone halone, serviceStep_idle (.inl hon), ite_self]

/-- Settles O23: line 2 aside, a line operation or a delivery takes the cascade request away only with the last
request of the slave. -/
theorem linesAndServiceKeepCascade : Obligations.LinesAndServiceKeepCascade := by
  intro s n hn h2 hq
  have hne : n.toNat ≠ 2 := fun h => h2 (BitVec.eq_of_toNat_eq h)
  exact ⟨⟨_, exec_raise hn s, hq.raiseLine n.toNat⟩, ⟨_, exec_lower hn s, hq.lowerLine hne⟩,
    ⟨_, exec_service s, hq.serviceStep⟩⟩

end Sys2Proof
end

section
/-! PROOFS. The step and the instruction boundary (43_service.md R147; 20_memory.md R56; 60_exceptions.md R180,
R186): the poll, what `service()` does at it, and which inputs are followed by it. -/

namespace Sys2Proof.Machine

open Sys2Proof.Statements

/-- The poll, in the words of the statements. -/
theorem eligible_iff_pollHolds (s : State) : eligible s = true ↔ PollHolds s := by
  rw [eligible_iff, deliverableOf_iff_selects, PollHolds]

/-- `service()` in its own words: its answer is the instruction's, without the result. -/
theorem service_answers (s : State) :
    ∃ t, exec .service s = .next t ∧ (serviceStep s).2 = { t with result := s.result } := by
  refine ⟨_, exec_service s, ?_⟩
  rw [serviceStep_frame]
  rfl

theorem point_inbox (s : State) : (point s).inbox = s.inbox := by rw [point_only s]

theorem serviceStep_inbox (s : State) : (serviceStep s).2.inbox = s.inbox := by rw [serviceStep_frame]

/-! ### The boundary -/

theorem boundary_eligible {s : State} (h : eligible (point s) = true) :
    boundary s = (serviceStep (point (point s))).2 := if_pos h

theorem boundary_idle {s : State} (h : eligible (point s) = false) : boundary s = point s :=
  if_neg (by rw [h]; decide)

theorem boundary_inbox (s : State) : (boundary s).inbox = s.inbox := by
  cases he : eligible (point s) with
  | true => rw [boundary_eligible he, serviceStep_inbox, point_inbox, point_inbox]
  | false => rw [boundary_idle he, point_inbox]

theorem boundary_disabled {s : State} (h : s.agentOps = []) (hi : s.core.intEnable = false) :
    boundary s = s := by
  have hpoll : eligible s = false := by simp only [eligible, hi, Bool.false_and]
  rw [boundary_alone h, hpoll, if_neg Bool.false_ne_true]

/-- An eligible core that no other agent disturbs runs after the boundary. -/
theorem serviceStep_runs {s : State} (h : eligible s = true) : (serviceStep s).2.core.runState = .running := by
  obtain ⟨-, hline, hi⟩ := (eligible_iff s).1 h
  rw [deliverableOf_eq_isSome, Option.isSome_iff_exists] at hline
  obtain ⟨n, hn⟩ := hline
  rw [serviceStep_selected hi hn, deliver_core]

/-! ### A line lowered between the poll and `service()` -/

theorem lowerLine_withAgentOps (n : Nat) (s : State) (ops : List (List AgentOp)) :
    lowerLine n { s with agentOps := ops } = { lowerLine n s with agentOps := ops } := by
  have hcascade (t : State) : lowerCascade { t with agentOps := ops } = { lowerCascade t with agentOps := ops } := by
    unfold lowerCascade
    split <;> rfl
  unfold lowerLine
  split
  · rfl
  · exact congrArg recompute (hcascade (clearRequest .S (n - 8) s))

/-- At a point where the outside has scheduled actions, they happen. -/
theorem point_of_cons {s : State} {acts : List AgentOp} {rest : List (List AgentOp)}
    (h : s.agentOps = acts :: rest) : point s = acts.foldl agentAct { s with agentOps := rest } := by
  simp only [point, h]

/-! ### The step -/

theorem step_nil {s : State} (h : s.inbox = []) : step s = .next (boundary s) := by
  simp only [step, h]

theorem dropInput_of_cons {s : State} {x : Input} {rest : List Input} (h : s.inbox = x :: rest) :
    dropInput s = { s with inbox := rest } := by
  simp only [dropInput, h, List.tail_cons]

theorem step_frame {s : State} {bytes : List Byte} {rest : List Input} {i : Instr}
    (h : s.inbox = .frame bytes :: rest) (hi : decode s.phases bytes = .ok i) :
    step s = if waitsHalted i s then .next (boundary s)
      else finishStep i (exec i { s with inbox := rest }) := by
  simp only [step, h, stepFrame, hi, dropInput_of_cons h]

theorem step_coreSignals {s : State} {u : CoreSignals} {rest : List Input}
    (h : s.inbox = .coreSignals u :: rest) :
    step s = .next (boundary { s with inbox := rest, core := u }) := by
  simp only [step, h, coreInput, dropInput_of_cons h]
  rfl

theorem step_internalInterrupt {s : State} {vec : Byte} {rest : List Input}
    (h : s.inbox = .internalInterrupt vec :: rest) :
    step s = .next (boundary { s with
      inbox := rest, events := s.events ++ [.interrupt vec .internal s.core.ip] }) := by
  simp only [step, h, internalInput, dropInput_of_cons h]
  rfl

theorem waitsHalted_iff (i : Instr) (s : State) :
    waitsHalted i s = true ↔ i.isGuest = true ∧ s.core.runState = .halted := by
  simp [waitsHalted]

end Sys2Proof.Machine

namespace Sys2Proof

open Sys2Proof.Machine Sys2Proof.Statements

/-- Settles O44: a core that is not halted runs the frame's instruction, and a boundary follows the guest's. -/
theorem stepRunsDecodedInstruction : Obligations.StepRunsDecodedInstruction := by
  intro s bytes rest i hinbox hdecode hruns
  refine ⟨?_, fun t => ⟨fun hrep => passInstruction_repeat hrep t, fun hrep a later hnext =>
    passInstruction_input hrep hnext⟩⟩
  rw [step_frame hinbox hdecode, if_neg (mt (waitsHalted_iff i s).1 hruns)]
  rfl

/-- Settles O45: the poll decides in the state it finds, and `service()` in the state after the second point. -/
theorem boundaryServicesWhenEligible : Obligations.BoundaryServicesWhenEligible := by
  intro s
  have hidle (hpoll : ¬PollHolds (point s)) : boundary s = point s :=
    boundary_idle (Bool.not_eq_true _ ▸ mt (eligible_iff_pollHolds _).1 hpoll)
  have hserves (hpoll : PollHolds (point s)) :
      ∃ t, exec .service (point (point s)) = .next t ∧ boundary s = { t with result := s.result } := by
    obtain ⟨t, hexec, ht⟩ := service_answers (point (point s))
    rw [point_result, point_result] at ht
    exact ⟨t, hexec, (boundary_eligible ((eligible_iff_pollHolds _).2 hpoll)).trans ht⟩
  refine ⟨hserves, hidle, fun halone => ?alone, ?lowered, step_nil, fun u rest => step_coreSignals⟩
  case alone =>
    rw [point_of_nil halone, point_of_nil halone] at hserves
    rw [point_of_nil halone] at hidle
    exact ⟨hserves, hidle⟩
  case lowered =>
    intro n m rest t hnm hops hexec hnone hpoll
    have hfirst : point s = { s with agentOps := [.lower m] :: rest } := point_of_cons hops
    have hsecond : point (point s) = { lowerLine m.toNat s with agentOps := rest } := by
      rw [hfirst]
      exact lowerLine_withAgentOps m.toNat s rest
    rw [exec_lower (hnm ▸ m.isLt), hnm] at hexec
    cases hexec
    have helig : eligible (point s) = true := (eligible_iff_pollHolds _).2 (hfirst ▸ hpoll)
    have hnoline : encodeLine (lowerLine m.toNat s).summary = none :=
      (encodeLine_eq_none_iff_not_selects _).2 hnone
    have hresult : (lowerLine m.toNat s).result = s.result := by rw [lowerLine_only m.toNat s]
    rw [boundary_eligible helig, hsecond, ← hresult]
    exact congrArg Prod.snd
      (serviceStep_idle (s := { lowerLine m.toNat s with agentOps := rest }) (.inr hnoline))

/-- Settles O46: the step of a halted core is the boundary, and a delivery is what sets it running. -/
theorem haltedCoreOnlyPolls : Obligations.HaltedCoreOnlyPolls := by
  intro s bytes rest i hinbox hdecode hguest hhalted
  refine ⟨?_, boundary_inbox s, fun halone => ?_⟩
  · rw [step_frame hinbox hdecode, if_pos ((waitsHalted_iff i s).2 ⟨hguest, hhalted⟩)]
  · rw [boundary_alone halone, ← eligible_iff_pollHolds]
    split
    case isTrue he => exact iff_of_true (serviceStep_runs he) he
    case isFalse he => exact iff_of_false (by rw [hhalted]; decide) he

/-- Settles O47: the step records the call, and a boundary follows. -/
theorem internalCauseTouchesNothing : Obligations.InternalCauseTouchesNothing := by
  intro s vec rest hinbox
  refine ⟨step_internalInterrupt hinbox, fun halone hdisabled => ?_⟩
  rw [step_internalInterrupt hinbox]
  exact congrArg _ (boundary_disabled halone hdisabled)

end Sys2Proof
end

section
/-! PROOFS. Registration (40_port_bus.md R80, R81; 10_state.md R22): which entries of the port maps it writes,
and that every step keeps the maps canonical. -/

namespace Sys2Proof.Machine

theorem exec_register (p : Port) (d : Device) (dir : Dir) (s : State) :
    exec (.register p d dir) s = .next (registerPort p d dir s) := rfl

theorem exec_unregister (d : Device) (s : State) :
    exec (.unregister d) s = .next ((removePorts d s).setResult .none) := rfl

theorem wantsIn_iff (dir : Dir) : wantsIn dir = true ↔ dir ≠ .write := by cases dir <;> decide

theorem wantsOut_iff (dir : Dir) : wantsOut dir = true ↔ dir ≠ .read := by cases dir <;> decide

/-- A registration collides when a direction it names is taken. -/
theorem collides_iff (p : Port) (dir : Dir) (s : State) : collides p dir s = true ↔
    (dir ≠ .write ∧ s.inMap.lookup p ≠ none) ∨ (dir ≠ .read ∧ s.outMap.lookup p ≠ none) := by
  simp only [collides, Bool.or_eq_true, Bool.and_eq_true, wantsIn_iff, wantsOut_iff,
    Option.isSome_iff_ne_none]

theorem registerPort_refused {p : Port} {dir : Dir} {s : State} (h : collides p dir s = true) (d : Device) :
    registerPort p d dir s
      = (s.pushViolation (.doubleRegistration p dir)).setResult (.registered false) := if_pos h

theorem registerPort_accepted {p : Port} {dir : Dir} {s : State} (h : ¬collides p dir s = true)
    (d : Device) : registerPort p d dir s = (enterPorts p d dir s).setResult (.registered true) := if_neg h

theorem enterPorts_inMap_lookup (p q : Port) (d : Device) (dir : Dir) (s : State) :
    (enterPorts p d dir s).inMap.lookup q
      = if q = p ∧ dir ≠ .write then some d else s.inMap.lookup q := by
  cases dir <;> simp [wantsIn, PortMap.lookup_insert]

theorem enterPorts_outMap_lookup (p q : Port) (d : Device) (dir : Dir) (s : State) :
    (enterPorts p d dir s).outMap.lookup q
      = if q = p ∧ dir ≠ .read then some d else s.outMap.lookup q := by
  cases dir <;> simp [wantsOut, PortMap.lookup_insert]

/-! ### The canonical form -/

theorem ReadChange.maps {s t : State} (h : ReadChange s t) : t.inMap = s.inMap ∧ t.outMap = s.outMap := by
  cases h with
  | violation v => exact ⟨rfl, rfl⟩
  | call e => exact ⟨rfl, rfl⟩
  | reply => unfold takeReply; split <;> exact ⟨rfl, rfl⟩
  | point => exact ⟨point_inMap s, point_outMap s⟩

theorem BusChange.maps {s t : State} (h : BusChange s t) : t.inMap = s.inMap ∧ t.outMap = s.outMap := by
  cases h with
  | read h => exact h.maps
  | flags c r hq hm => exact ⟨setChip_inMap s c r, setChip_outMap s c r⟩
  | lines m sl => exact ⟨rfl, rfl⟩

/-- No instruction of the guest and no boundary writes a port map. -/
theorem GuestChange.maps {s t : State} (h : GuestChange s t) : t.inMap = s.inMap ∧ t.outMap = s.outMap := by
  cases h with
  | bus h => exact h.maps
  | result r => exact ⟨rfl, rfl⟩
  | event e => exact ⟨rfl, rfl⟩
  | core u => exact ⟨rfl, rfl⟩
  | body => unfold takeBody; split <;> exact ⟨rfl, rfl⟩
  | nextIp => unfold takeNextIp; split <;> exact ⟨rfl, rfl⟩

theorem PortMapsCanonical.enterPorts {s : State} (hs : PortMapsCanonical s) (p : Port) (d : Device)
    (dir : Dir) : PortMapsCanonical (enterPorts p d dir s) := by
  obtain ⟨hin, hout⟩ := hs
  constructor
  · rw [enterPorts_inMap]
    split
    · exact PortMap.insert_wf p.isLt hin
    · exact hin
  · rw [enterPorts_outMap]
    split
    · exact PortMap.insert_wf p.isLt hout
    · exact hout

theorem Change.keeps_portMaps {s t : State} (h : Change s t) (hs : PortMapsCanonical s) :
    PortMapsCanonical t := by
  cases h with
  | guest h =>
    obtain ⟨hin, hout⟩ := h.maps
    rwa [PortMapsCanonical, hin, hout]
  | ignore b => exact hs
  | register p d dir => exact hs.enterPorts p d dir
  | unregister d => exact ⟨PortMap.remove_wf hs.1, PortMap.remove_wf hs.2⟩
  | input => exact hs

end Sys2Proof.Machine

namespace Sys2Proof

open Sys2Proof.Machine

/-- Settles O24: a registration that does not collide inserts the port into the maps of its directions. -/
theorem registerEntersOrRefusesWhole : Obligations.RegisterEntersOrRefusesWhole := by
  intro s p d dir
  constructor
  case left =>
    rintro ⟨hin, hout⟩
    have hfree : ¬collides p dir s = true := by
      rw [collides_iff]
      rintro (⟨hdir, htaken⟩ | ⟨hdir, htaken⟩)
      · exact htaken (hin hdir)
      · exact htaken (hout hdir)
    refine ⟨_, (exec_register p d dir s).trans (congrArg _ (registerPort_accepted hfree d)), rfl,
      fun q => ?_, fun q => ?_, rfl⟩
    · rw [setResult_inMap, enterPorts_inMap_lookup]
    · rw [setResult_outMap, enterPorts_outMap_lookup]
  case right =>
    intro htaken
    rw [exec_register, registerPort_refused ((collides_iff p dir s).2 htaken)]

/-- Settles O25: in a canonical map a removal takes away the entries of the one device. -/
theorem unregisterRemovesOneDevice : Obligations.UnregisterRemovesOneDevice := by
  rintro s d ⟨hin, hout⟩
  exact ⟨_, exec_unregister d s, PortMap.lookup_remove hin d, PortMap.lookup_remove hout d, rfl⟩

/-- Settles O49: only a registration or its removal writes a map, by an operation that keeps the canonical
form. -/
theorem stepKeepsPortMaps : Obligations.StepKeepsPortMaps := by
  intro s t hs ht
  exact (step_reaches s t ht).keeps (fun _ _ h => h.keeps_portMaps) hs

end Sys2Proof
end

section
/-! PROOFS. Reset (70_reset_and_hazards.md R201, R203; 10_state.md R30): what each scope of it writes, and the
state after it. -/

namespace Sys2Proof.Machine

theorem exec_resetDevice (d : Device) (s : State) :
    exec (.reset (.device d)) s = .next ((resetDevice d s).setResult .none) := rfl

theorem exec_resetMachine (s : State) :
    exec (.reset .machine) s = .next ((resetMachine s).setResult .none) := rfl

theorem resetChip_chip (c : Chip) (s : State) :
    (resetChip c s).chip c = ChipRegs.reset (s.cfg.vbReset c) := by
  simp [resetChip]

theorem resetChip_chip_ne {c c' : Chip} (s : State) (h : c' ≠ c) : (resetChip c s).chip c' = s.chip c' := by
  simp [resetChip, setChip_chip_ne s _ h]

theorem resetChip_exact (c : Chip) (s : State) : SummaryExact (resetChip c s) := recompute_exact _

/-- The reset entries of the peripherals only record their calls, in order. -/
theorem foldl_resetDevice (l : List DeviceRecord) (s : State) :
    l.foldl (fun t d => resetDevice (.peripheral d.handle) t) s
      = { s with deviceCalls := s.deviceCalls ++ l.map (fun d => .reset d.handle) } := by
  induction l generalizing s with
  | nil => simp
  | cons d rest ih =>
    rw [List.foldl_cons, ih, List.map_cons, List.append_cons]
    rfl

/-- Both chips after a reset of the machine, everything else before the peripherals' calls. -/
theorem resetChips (s : State) : resetChip .S (resetChip .M s) = { s with
    master := ChipRegs.reset s.cfg.vbResetM, slave := ChipRegs.reset s.cfg.vbResetS, summary := 0 } := by
  have hsummary : summaryOf 0x00 0x00 0x00 0x00 = 0 := by decide
  rw [← hsummary]
  rfl

theorem resetMachine_eq (s : State) : resetMachine s = { s with
    master := ChipRegs.reset s.cfg.vbResetM, slave := ChipRegs.reset s.cfg.vbResetS, summary := 0
    deviceCalls := s.deviceCalls ++ s.cfg.devices.map (fun d => .reset d.handle) } := by
  rw [resetMachine, foldl_resetDevice, resetChips]

end Sys2Proof.Machine

namespace Sys2Proof

open Sys2Proof.Machine

/-- Settles O34: the chips' registers are those of `ChipRegs.reset`, and a peripheral's entry is a recorded
call. -/
theorem resetClearsChipsOnly : Obligations.ResetClearsChipsOnly := by
  intro s c k
  refine ⟨?chip, ?machine, exec_resetDevice (.peripheral k) s⟩
  case chip =>
    have hexact : SummaryExact ((resetChip c s).setResult .none) := (resetChip_exact c s).setResult .none
    refine ⟨_, exec_resetDevice (.chip c) s, ?_, fun c' hne => ?_, hexact.isPending,
      recompute_setChip_onlyChips s c _⟩
    · exact (setResult_chip _ _ c).trans (resetChip_chip c s)
    · exact (setResult_chip _ _ c').trans (resetChip_chip_ne s hne)
  case machine =>
    refine ⟨_, exec_resetMachine s, fun c' => ?_, ?_⟩
    · rw [resetMachine_eq]
      cases c' <;> rfl
    · rw [resetMachine_eq]
      rfl

/-- Settles O50: every claimed field of `State.reset` is given by its definition. -/
theorem resetStateMeetsInvariant : Obligations.ResetStateMeetsInvariant := by
  have hexact : SummaryExact State.reset := rfl
  have hmaps : PortMapsCanonical State.reset := by
    have hports : PortMap.chipPorts.wf = true := by decide
    exact ⟨hports, hports⟩
  refine ⟨⟨hexact, hmaps⟩, rfl, rfl, rfl, fun c => ?_⟩
  cases c <;> rfl

end Sys2Proof
end

section
/-! PROOFS. Port reads (40_port_bus.md R84 to R86, R90 to R95): what an unowned port, a chip and a peripheral
answer at each width. -/

namespace Sys2Proof.Machine

open Sys2Proof.Statements

theorem exec_in8 (p : Port) (s : State) :
    exec (.in8 p) s = .next ((portRead8 p s).2.setResult (.byte (portRead8 p s).1)) := rfl

theorem exec_in16 (p : Port) (s : State) :
    exec (.in16 p) s = .next ((portRead16 p s).2.setResult (.word (portRead16 p s).1)) := rfl

theorem exec_in32 (p : Port) (s : State) :
    exec (.in32 p) s = .next ((portRead32 p s).2.setResult (.dword (portRead32 p s).1)) := rfl

/-! ### Unowned ports -/

theorem reportOptional_eq (v : Violation) (s : State) :
    reportOptional v s = { s with violLog := optionalRecord s v } := by
  unfold reportOptional optionalRecord
  split <;> rfl

section
variable {p : Port} {s : State}

theorem portRead8_unowned (h : s.inMap.lookup p = none) :
    portRead8 p s = (s.cfg.junk8, reportOptional (.unregisteredPortRead p .w8) s) := by
  simp only [portRead8, h]

theorem portRead16_unowned (h : s.inMap.lookup p = none) :
    portRead16 p s = (s.cfg.junk16, reportOptional (.unregisteredPortRead p .w16) s) := by
  simp only [portRead16, h]

theorem portRead32_unowned (h : s.inMap.lookup p = none) :
    portRead32 p s = (s.cfg.junk32, reportOptional (.unregisteredPortRead p .w32) s) := by
  simp only [portRead32, h]

theorem portRead8_owned {d : Device} (h : s.inMap.lookup p = some d) : portRead8 p s = deviceIn8 d p s := by
  simp only [portRead8, h]

theorem portRead16_owned {d : Device} (h : s.inMap.lookup p = some d) :
    portRead16 p s = deviceIn16 d p s := by
  simp only [portRead16, h]

theorem portRead32_owned {d : Device} (h : s.inMap.lookup p = some d) :
    portRead32 p s = deviceIn32 d p s := by
  simp only [portRead32, h]

end

/-! ### Chips -/

theorem chipIn8_eq (c : Chip) (p : Port) (s : State) :
    chipIn8 c p s = chipPortByte (s.chip c) (p.getLsbD 0) := rfl

theorem deviceIn16_chip {s : State} (ha : s.agentOps = []) (c : Chip) (p : Port) :
    deviceIn16 (.chip c) p s
      = (chipPortByte (s.chip c) (!p.getLsbD 0) ++ chipPortByte (s.chip c) (p.getLsbD 0), s) := by
  have hnext : (nextPort p).getLsbD 0 = !p.getLsbD 0 := isDataPort_nextPort p
  simp only [deviceIn16, overrides16, deviceIn8, chipIn8_eq, point_of_nil ha, hnext]
  rfl

theorem deviceIn32_chip {s : State} (ha : s.agentOps = []) (c : Chip) (p : Port) :
    deviceIn32 (.chip c) p s
      = (chipPortByte (s.chip c) (!p.getLsbD 0) ++ chipPortByte (s.chip c) (p.getLsbD 0)
          ++ chipPortByte (s.chip c) (!p.getLsbD 0) ++ chipPortByte (s.chip c) (p.getLsbD 0), s) := by
  have hnext : (nextWordPort p).getLsbD 0 = p.getLsbD 0 := isDataPort_nextWordPort p
  simp only [deviceIn32, overrides32, deviceIn16_chip ha, point_of_nil ha, hnext]
  exact congrArg (·, s) (append_assoc_bytes _ _ _ _)

/-! ### Peripherals -/

theorem takeReply_cons {s : State} {b : Byte} {rest : List Byte} (h : s.deviceReplies = b :: rest) :
    takeReply s = (b, { s with deviceReplies := rest }) := by
  simp only [takeReply, h]

theorem takeReply16_cons {s : State} {b0 b1 : Byte} {rest : List Byte}
    (h : s.deviceReplies = b0 :: b1 :: rest) :
    takeReply16 s = (b1 ++ b0, { s with deviceReplies := rest }) := by
  simp only [takeReply16, takeReply_cons h, takeReply_cons (s := { s with deviceReplies := b1 :: rest }) rfl]
  rfl

theorem takeReply32_cons {s : State} {b0 b1 b2 b3 : Byte} {rest : List Byte}
    (h : s.deviceReplies = b0 :: b1 :: b2 :: b3 :: rest) :
    takeReply32 s = (b3 ++ b2 ++ b1 ++ b0, { s with deviceReplies := rest }) := by
  simp only [takeReply32, takeReply16_cons h,
    takeReply16_cons (s := { s with deviceReplies := b2 :: b3 :: rest }) rfl]
  exact congrArg (·, { s with deviceReplies := rest }) (append_assoc_bytes b3 b2 b1 b0)

theorem overrides16_peripheral (k : Byte) (s : State) :
    overrides16 (.peripheral k) s = if overridesWord s k then some k else none := rfl

theorem overrides32_peripheral (k : Byte) (s : State) :
    overrides32 (.peripheral k) s = if overridesDword s k then some k else none := rfl

section
variable {s : State} {k b0 b1 b2 b3 : Byte} {rest : List Byte}

theorem deviceIn8_peripheral (p : Port) (h : s.deviceReplies = b0 :: rest) :
    deviceIn8 (.peripheral k) p s
      = (b0, { s with deviceCalls := s.deviceCalls ++ [.in8 k p], deviceReplies := rest }) :=
  takeReply_cons (s := s.pushCall (.in8 k p)) h

theorem deviceIn16_override (p : Port) (ho : overridesWord s k = true)
    (h : s.deviceReplies = b0 :: b1 :: rest) :
    deviceIn16 (.peripheral k) p s
      = (b1 ++ b0, { s with deviceCalls := s.deviceCalls ++ [.in16 k p], deviceReplies := rest }) := by
  simp only [deviceIn16, overrides16_peripheral, ho, if_true]
  exact takeReply16_cons (s := s.pushCall (.in16 k p)) h

theorem deviceIn32_override (p : Port) (ho : overridesDword s k = true)
    (h : s.deviceReplies = b0 :: b1 :: b2 :: b3 :: rest) :
    deviceIn32 (.peripheral k) p s
      = (b3 ++ b2 ++ b1 ++ b0,
        { s with deviceCalls := s.deviceCalls ++ [.in32 k p], deviceReplies := rest }) := by
  simp only [deviceIn32, overrides32_peripheral, ho, if_true]
  exact takeReply32_cons (s := s.pushCall (.in32 k p)) h

theorem deviceIn16_composed (p : Port) (ha : s.agentOps = []) (ho : overridesWord s k = false)
    (h : s.deviceReplies = b0 :: b1 :: rest) :
    deviceIn16 (.peripheral k) p s
      = (b1 ++ b0, { s with
          deviceCalls := s.deviceCalls ++ [.in8 k p, .in8 k (p + 1)], deviceReplies := rest }) := by
  simp only [deviceIn16, overrides16_peripheral, ho, Bool.false_eq_true, if_false, deviceIn8_peripheral p h]
  rw [point_of_nil (by exact ha), deviceIn8_peripheral (nextPort p) (by rfl)]
  simp only [List.append_assoc, List.cons_append, List.nil_append]
  rfl

/-- The calls of a word access of a peripheral. -/
def wordReadCalls (s : State) (k : Byte) (p : Port) : List DeviceCall :=
  if overridesWord s k then [.in16 k p] else [.in8 k p, .in8 k (p + 1)]

theorem deviceIn16_peripheral (p : Port) (ha : s.agentOps = []) (h : s.deviceReplies = b0 :: b1 :: rest) :
    deviceIn16 (.peripheral k) p s
      = (b1 ++ b0, { s with
          deviceCalls := s.deviceCalls ++ wordReadCalls s k p, deviceReplies := rest }) := by
  unfold wordReadCalls
  split
  case isTrue ho => exact deviceIn16_override p ho h
  case isFalse ho => exact deviceIn16_composed p ha (Bool.not_eq_true _ ▸ ho) h

theorem deviceIn32_composed (p : Port) (ha : s.agentOps = []) (ho : overridesDword s k = false)
    (h : s.deviceReplies = b0 :: b1 :: b2 :: b3 :: rest) :
    deviceIn32 (.peripheral k) p s
      = (b3 ++ b2 ++ b1 ++ b0, { s with
          deviceCalls := s.deviceCalls ++ (wordReadCalls s k p ++ wordReadCalls s k (p + 2))
          deviceReplies := rest }) := by
  simp only [deviceIn32, overrides32_peripheral, ho, Bool.false_eq_true, if_false,
    deviceIn16_peripheral p ha h]
  rw [point_of_nil (by exact ha), deviceIn16_peripheral (nextWordPort p) (by exact ha) (by rfl)]
  simp only [List.append_assoc, word32, append_assoc_bytes]
  rfl

end

theorem wordReadCalls_both (s : State) (k : Byte) (p : Port) :
    wordReadCalls s k p ++ wordReadCalls s k (p + 2) = if overridesWord s k then [.in16 k p, .in16 k (p + 2)]
      else [.in8 k p, .in8 k (p + 1), .in8 k (p + 2), .in8 k (p + 3)] := by
  have hport : p + 2 + 1 = p + 3 := BitVec.add_assoc p 2 1
  unfold wordReadCalls
  split
  · rfl
  · rw [hport]; rfl

end Sys2Proof.Machine

namespace Sys2Proof

open Sys2Proof.Machine

/-- Settles O29: a chip's bytes alternate with bit 0 of the port, and reading them writes nothing. -/
theorem chipPortReadsComposeRegisters : Obligations.ChipPortReadsComposeRegisters := by
  intro s p c howner
  refine ⟨?_, fun ha => ⟨?_, ?_⟩⟩
  · rw [exec_in8, portRead8_owned howner]
    rfl
  · rw [exec_in16, portRead16_owned howner, deviceIn16_chip ha]
  · rw [exec_in32, portRead32_owned howner, deviceIn32_chip ha]

/-- Settles O30: one call for an overridden width, and else the calls of the halves in ascending order. -/
theorem peripheralReadsCompose : Obligations.PeripheralReadsCompose := by
  intro s p k b0 b1 b2 b3 rest howner hreplies
  refine ⟨?_, fun ho => ?_, fun ho => ?_, fun ha ho => ?_, fun ha ho => ?_⟩
  · rw [exec_in8, portRead8_owned howner, deviceIn8_peripheral p hreplies]
    rfl
  · rw [exec_in16, portRead16_owned howner, deviceIn16_override p ho hreplies]
    rfl
  · rw [exec_in32, portRead32_owned howner, deviceIn32_override p ho hreplies]
    rfl
  · rw [exec_in16, portRead16_owned howner, deviceIn16_composed p ha ho hreplies]
    rfl
  · rw [exec_in32, portRead32_owned howner, deviceIn32_composed p ha ho hreplies, wordReadCalls_both]
    rfl

end Sys2Proof
end

section
/-! PROOFS. Port writes (40_port_bus.md R87 to R96; 42_pic_commands.md R110, R118; 20_memory.md R49): what an
unowned port, a peripheral and a chip do with each width. -/

namespace Sys2Proof.Machine

open Sys2Proof.Statements

theorem exec_out8 (p : Port) (v : Byte) (s : State) :
    exec (.out8 p v) s = doneNone (portWrite8 p v s) := rfl

theorem exec_out16 (p : Port) (v : BitVec 16) (s : State) :
    exec (.out16 p v) s = doneNone (portWrite16 p v s) := rfl

theorem exec_out32 (p : Port) (v : BitVec 32) (s : State) :
    exec (.out32 p v) s = doneNone (portWrite32 p v s) := rfl

section
variable {p : Port} {s : State}

theorem portWrite8_unowned (h : s.outMap.lookup p = none) (v : Byte) :
    portWrite8 p v s = .next (reportOptional (.unregisteredPortWrite p .w8 (v.zeroExtend 32)) s) := by
  simp only [portWrite8, h]

theorem portWrite16_unowned (h : s.outMap.lookup p = none) (v : BitVec 16) :
    portWrite16 p v s = .next (reportOptional (.unregisteredPortWrite p .w16 (v.zeroExtend 32)) s) := by
  simp only [portWrite16, h]

theorem portWrite32_unowned (h : s.outMap.lookup p = none) (v : BitVec 32) :
    portWrite32 p v s = .next (reportOptional (.unregisteredPortWrite p .w32 v) s) := by
  simp only [portWrite32, h]

theorem portWrite8_owned {d : Device} (h : s.outMap.lookup p = some d) (v : Byte) :
    portWrite8 p v s = deviceOut8 d p v s := by
  simp only [portWrite8, h]

theorem portWrite16_owned {d : Device} (h : s.outMap.lookup p = some d) (v : BitVec 16) :
    portWrite16 p v s = deviceOut16 d p v s := by
  simp only [portWrite16, h]

theorem portWrite32_owned {d : Device} (h : s.outMap.lookup p = some d) (v : BitVec 32) :
    portWrite32 p v s = deviceOut32 d p v s := by
  simp only [portWrite32, h]

end

/-! ### Peripherals -/

section
variable {s : State} {k : Byte}

theorem deviceOut16_override (ho : overridesWord s k = true) (p : Port) (v : BitVec 16) :
    deviceOut16 (.peripheral k) p v s = .next (s.pushCall (.out16 k p v)) := by
  simp only [deviceOut16, overrides16_peripheral, ho, if_true]

theorem deviceOut32_override (ho : overridesDword s k = true) (p : Port) (v : BitVec 32) :
    deviceOut32 (.peripheral k) p v s = .next (s.pushCall (.out32 k p v)) := by
  simp only [deviceOut32, overrides32_peripheral, ho, if_true]

/-- The calls of a word written to a peripheral. -/
def wordWriteCalls (s : State) (k : Byte) (p : Port) (b0 b1 : Byte) : List DeviceCall :=
  if overridesWord s k then [.out16 k p (b1 ++ b0)] else [.out8 k p b0, .out8 k (p + 1) b1]

theorem deviceOut16_composed (ha : s.agentOps = []) (ho : overridesWord s k = false) (p : Port)
    (b0 b1 : Byte) : deviceOut16 (.peripheral k) p (b1 ++ b0) s = .next { s with
      deviceCalls := s.deviceCalls ++ [.out8 k p b0, .out8 k (p + 1) b1] } := by
  simp only [deviceOut16, overrides16_peripheral, ho, Bool.false_eq_true, if_false, deviceOut8, andThen,
    lowByte_word16, highByte_word16]
  rw [point_of_nil (by exact ha), List.append_cons]
  rfl

theorem deviceOut16_peripheral (ha : s.agentOps = []) (p : Port) (b0 b1 : Byte) :
    deviceOut16 (.peripheral k) p (b1 ++ b0) s
      = .next { s with deviceCalls := s.deviceCalls ++ wordWriteCalls s k p b0 b1 } := by
  unfold wordWriteCalls
  split
  case isTrue ho => exact deviceOut16_override ho p _
  case isFalse ho => exact deviceOut16_composed ha (Bool.not_eq_true _ ▸ ho) p b0 b1

theorem deviceOut32_composed (ha : s.agentOps = []) (ho : overridesDword s k = false) (p : Port)
    (b0 b1 b2 b3 : Byte) : deviceOut32 (.peripheral k) p (b3 ++ b2 ++ b1 ++ b0) s = .next { s with
      deviceCalls := s.deviceCalls
        ++ (wordWriteCalls s k p b0 b1 ++ wordWriteCalls s k (p + 2) b2 b3) } := by
  simp only [deviceOut32, overrides32_peripheral, ho, Bool.false_eq_true, if_false, lowHalf_bytes,
    highHalf_bytes, deviceOut16_peripheral ha, andThen]
  rw [point_of_nil (by exact ha), deviceOut16_peripheral (by exact ha), ← List.append_assoc]
  rfl

end

theorem wordWriteCalls_both (s : State) (k : Byte) (p : Port) (b0 b1 b2 b3 : Byte) :
    wordWriteCalls s k p b0 b1 ++ wordWriteCalls s k (p + 2) b2 b3 = if overridesWord s k
      then [.out16 k p (b1 ++ b0), .out16 k (p + 2) (b3 ++ b2)]
      else [.out8 k p b0, .out8 k (p + 1) b1, .out8 k (p + 2) b2, .out8 k (p + 3) b3] := by
  have hport : p + 2 + 1 = p + 3 := BitVec.add_assoc p 2 1
  unfold wordWriteCalls
  split
  · rfl
  · rw [hport]; rfl

/-! ### Chips -/

/-- The instruction of a command byte does what the chip does with the byte (42_pic_commands.md R110). -/
theorem exec_decodeCommand (c : Chip) (v : Byte) (s : State) :
    exec (decodeCommand c v) s = doneNone (writeCommandByte0 c v s) := by
  unfold decodeCommand writeCommandByte0
  split
  · rfl
  split
  · split
    · rfl
    split
    · rfl
    · rfl
  split
  · rfl
  split
  · rfl
  · rfl

theorem phases_of (c : Chip) (s : State) :
    s.phases.of c = phaseOf (s.chip c).awaitIcw2 (s.chip c).awaitIcw4 := by
  cases c <;> rfl

/-- The instruction of a data byte, in the chip's phase, does what the chip does with it (R118). -/
theorem exec_decodeData (c : Chip) (v : Byte) (s : State) :
    exec (decodeData c (s.phases.of c) v) s = .next ((writeCommandByte1 c v s).setResult .none) := by
  have hjoin : v.extractLsb' 3 5 ++ v.extractLsb' 0 3 = v := (join_fields v 0 5 3).trans (all_bits v)
  rw [phases_of]
  unfold writeCommandByte1 phaseOf
  split
  · rw [decodeData, exec_icw2, hjoin]
  split
  · rfl
  · rfl

/-- A byte for the command port of a chip. -/
theorem chipOut8_command {p : Port} (h : p.getLsbD 0 = false) (c : Chip) (v : Byte) (s : State) :
    doneNone (chipOut8 c p v s) = exec (decodeCommand c v) s := by
  rw [exec_decodeCommand, chipOut8, isDataPort, h, if_neg Bool.false_ne_true]

/-- A byte for the data port of a chip. -/
theorem chipOut8_data {p : Port} (h : p.getLsbD 0 = true) (c : Chip) (v : Byte) (s : State) :
    doneNone (chipOut8 c p v s) = exec (decodeData c (s.phases.of c) v) s := by
  rw [exec_decodeData, chipOut8, isDataPort, h, if_pos rfl, doneNone_next]

/-- No other agent changes how the next byte is decoded. -/
theorem point_phases (s : State) (c : Chip) : (point s).phases.of c = s.phases.of c := by
  rw [phases_of, phases_of, (point_only s).chip c]

/-! A wide write drops the result of its first half before the second one runs, or only at its end: the second
half does not read it. -/

theorem report_continues {v : Violation} {s : State} (h : ¬(s.cfg.policy = .fault ∧ v.stops)) :
    report v s = .next (s.pushViolation v) := if_neg h

theorem report_setResult (v : Violation) (s : State) (r : Result) :
    doneNone (report v (s.setResult r)) = doneNone (report v s) := by
  by_cases h : s.cfg.policy = .fault ∧ v.stops
  · rw [report_stops (s := s.setResult r) h.1 h.2, report_stops h.1 h.2]
  · rw [report_continues (s := s.setResult r) h, report_continues h]
    rfl

theorem endNonSpecific_setResult (c : Chip) (s : State) (r : Result) :
    doneNone (endNonSpecific c (s.setResult r)) = doneNone (endNonSpecific c s) := by
  simp only [endNonSpecific, setResult_chip]
  split
  · exact report_setResult _ s r
  · cases c <;> rfl

theorem chipOut8_setResult (c : Chip) (p : Port) (v : Byte) (s : State) (r : Result) :
    doneNone (chipOut8 c p v (s.setResult r)) = doneNone (chipOut8 c p v s) := by
  unfold chipOut8
  split
  · unfold writeCommandByte1
    simp only [setResult_chip]
    split
    · cases c <;> rfl
    split
    · cases c <;> rfl
    · cases c <;> rfl
  · unfold writeCommandByte0
    split
    · cases c <;> rfl
    split
    · split
      · exact report_setResult _ s r
      split
      · exact report_setResult _ s r
      · cases c <;> rfl
    split
    · exact endNonSpecific_setResult c s r
    split
    · cases c <;> rfl
    · exact report_setResult _ s r

/-- Two parts of an operation with other agents between them, each seen as an operation of its own. -/
theorem doneNone_andThen_point {f : State → Out}
    (hf : ∀ u r, doneNone (f (u.setResult r)) = doneNone (f u)) (o : Out) :
    doneNone (andThen o fun t => f (point t)) = andThen (doneNone o) fun t => doneNone (f (point t)) := by
  cases o with
  | next t => exact (hf (point t) .none).symm.trans (by rw [← point_setResult]; rfl)
  | fault r => rfl
  | refused r => rfl

theorem doneNone_deviceOut16_chip (c : Chip) (p : Port) (v : BitVec 16) (s : State) :
    doneNone (deviceOut16 (.chip c) p v s) = andThen (doneNone (chipOut8 c p (lowByte v) s))
      fun t => doneNone (chipOut8 c (nextPort p) (highByte v) (point t)) :=
  doneNone_andThen_point (chipOut8_setResult c (nextPort p) (highByte v)) _

theorem deviceOut16_chip_setResult (c : Chip) (p : Port) (v : BitVec 16) (s : State) (r : Result) :
    doneNone (deviceOut16 (.chip c) p v (s.setResult r)) = doneNone (deviceOut16 (.chip c) p v s) := by
  rw [doneNone_deviceOut16_chip, doneNone_deviceOut16_chip, chipOut8_setResult]

theorem doneNone_deviceOut32_chip (c : Chip) (p : Port) (v : BitVec 32) (s : State) :
    doneNone (deviceOut32 (.chip c) p v s) = andThen (doneNone (deviceOut16 (.chip c) p (lowHalf v) s))
      fun t => doneNone (deviceOut16 (.chip c) (nextWordPort p) (highHalf v) (point t)) :=
  doneNone_andThen_point (deviceOut16_chip_setResult c (nextWordPort p) (highHalf v)) _

theorem deviceOut16_command {p : Port} (h : p.getLsbD 0 = false) (c : Chip) (v : BitVec 16) (s : State) :
    doneNone (deviceOut16 (.chip c) p v s) = commandThenData c (lowByte v) (highByte v) s := by
  have hnext : (nextPort p).getLsbD 0 = true := by
    rw [show (nextPort p).getLsbD 0 = !p.getLsbD 0 from isDataPort_nextPort p, h]
    rfl
  simp only [doneNone_deviceOut16_chip, chipOut8_command h, chipOut8_data hnext, point_phases]
  rfl

theorem deviceOut16_data {p : Port} (h : p.getLsbD 0 = true) (c : Chip) (v : BitVec 16) (s : State) :
    doneNone (deviceOut16 (.chip c) p v s) = dataThenCommand c (lowByte v) (highByte v) s := by
  have hnext : (nextPort p).getLsbD 0 = false := by
    rw [show (nextPort p).getLsbD 0 = !p.getLsbD 0 from isDataPort_nextPort p, h]
    rfl
  simp only [doneNone_deviceOut16_chip, chipOut8_data h, chipOut8_command hnext]
  rfl

end Sys2Proof.Machine

namespace Sys2Proof

open Sys2Proof.Machine

/-- Settles O28: without an owner an access makes the optional record and nothing else. -/
theorem unregisteredPortsAreInert : Obligations.UnregisteredPortsAreInert := by
  intro s p v8 v16 v32
  refine ⟨fun hread => ⟨?_, ?_, ?_⟩, fun hwrite => ⟨?_, ?_, ?_⟩⟩
  · rw [exec_in8, portRead8_unowned hread, reportOptional_eq]
    rfl
  · rw [exec_in16, portRead16_unowned hread, reportOptional_eq]
    rfl
  · rw [exec_in32, portRead32_unowned hread, reportOptional_eq]
    rfl
  · rw [exec_out8, portWrite8_unowned hwrite, reportOptional_eq]
    rfl
  · rw [exec_out16, portWrite16_unowned hwrite, reportOptional_eq]
    rfl
  · rw [exec_out32, portWrite32_unowned hwrite, reportOptional_eq]
    rfl

/-- Settles O31: one call for an overridden width, and else the calls of the halves in ascending order. -/
theorem peripheralWritesAscend : Obligations.PeripheralWritesAscend := by
  intro s p k b0 b1 b2 b3 howner
  refine ⟨?_, fun ho => ?_, fun ho => ?_, fun ha ho => ?_, fun ha ho => ?_⟩
  · rw [exec_out8, portWrite8_owned howner]
    rfl
  · rw [exec_out16, portWrite16_owned howner, deviceOut16_override ho]
    rfl
  · rw [exec_out32, portWrite32_owned howner, deviceOut32_override ho]
    rfl
  · rw [exec_out16, portWrite16_owned howner, deviceOut16_composed ha ho]
    rfl
  · rw [exec_out32, portWrite32_owned howner, deviceOut32_composed ha ho, wordWriteCalls_both]
    rfl

/-- Settles O32: bit 0 of the port decides which of the two decoders reads the byte. -/
theorem portWriteRunsDecodedCommand : Obligations.PortWriteRunsDecodedCommand := by
  intro s p c v howner
  rw [exec_out8, portWrite8_owned howner]
  split
  case isTrue hdata => exact chipOut8_data hdata c v s
  case isFalse hcommand => exact chipOut8_command (Bool.not_eq_true _ ▸ hcommand) c v s

/-- Settles O33: a wide write is its two halves with other agents between them, and a word's halves are for the
two ports of the chip in turn. -/
theorem wideChipWritesRunInOrder : Obligations.WideChipWritesRunInOrder := by
  intro s p c v w howner
  have hword : (nextWordPort p).getLsbD 0 = p.getLsbD 0 := isDataPort_nextWordPort p
  rw [exec_out16, exec_out32, portWrite16_owned howner, portWrite32_owned howner,
    doneNone_deviceOut32_chip]
  refine ⟨fun heven => ⟨deviceOut16_command heven c v s, ?_⟩, fun hodd => ⟨deviceOut16_data hodd c v s, ?_⟩⟩
  · simp only [deviceOut16_command heven, deviceOut16_command (hword.trans heven), lowByte_lowHalf,
      highByte_lowHalf, lowByte_highHalf, highByte_highHalf]
  · simp only [deviceOut16_data hodd, deviceOut16_data (hword.trans hodd), lowByte_lowHalf,
      highByte_lowHalf, lowByte_highHalf, highByte_highHalf]

end Sys2Proof
end

section
/-! PROOFS. What the operations return and what they cannot write (10_state.md R20, R31; 20_memory.md R58): every
operation answers a next state under the default policy; reads and lines write no chip register but `request`;
no instruction of the guest writes the ignore switch. -/

namespace Sys2Proof.Machine

open Sys2Proof.Statements

/-! ### Every operation answers -/

theorem finishDriver_returns (j : RepInputs) (r : DriverResult) (s : State) :
    Returns s (.next (finishDriver j r s)) := ⟨_, rfl, rfl⟩

/-- Other agents write neither the configuration nor, so, the policy. -/
theorem Returns.of_point {s : State} {o : Out} (h : Returns (point s) o) : Returns s o := by
  obtain ⟨t, ht, hcfg⟩ := h
  exact ⟨t, ht, hcfg.trans (point_cfg s)⟩

theorem driverLoop_returns {s : State} (hp : Lenient s) (j : RepInputs) (n : Nat) :
    Returns s (driverLoop j n s) := by
  induction n generalizing s with
  | zero => exact finishDriver_returns j .completed s
  | succ n ih =>
    have hpoint := hp.of_cfg (point_cfg s)
    have hpoint2 := hpoint.of_cfg (point_cfg (point s))
    simp only [driverLoop]
    refine .of_point ?_
    split
    · exact finishDriver_returns j .abortedForInterrupt _
    · refine .of_point ((element_ok hpoint2 j true).andThen fun t ht => ?_)
      split
      · exact finishDriver_returns j .completed t
      · exact ih (hpoint2.of_cfg ht)

theorem repeatDrive_returns {s : State} (hp : Lenient s) (j : RepInputs) : Returns s (repeatDrive j s) := by
  unfold repeatDrive
  split
  · exact (element_ok hp j false).mapNext fun _ => rfl
  · exact driverLoop_returns hp j _
  · exact driverLoop_returns hp j _

theorem Returns.completes {s : State} {o : Out} (h : Returns s o) : Completes o := by
  obtain ⟨t, ht, -⟩ := h
  exact ⟨t, ht⟩

theorem Returns.doneNone {s : State} {o : Out} (h : Returns s o) : Completes (doneNone o) :=
  (h.mapNext (f := (·.setResult .none)) fun _ => rfl).completes

/-- An operation on a line answers in range and out of range. -/
theorem completes_ite {q : Prop} [Decidable q] {o o' : Out} (h : Completes o) (h' : Completes o') :
    Completes (if q then o else o') := by
  split
  · exact h
  · exact h'

theorem exec_completes {s : State} (hp : Lenient s) (i : Instr) : Completes (exec i s) := by
  have reported (v : Violation) := report_ok hp v
  cases i with
  | ocw3Poll c v => exact (reported _).doneNone
  | ocw3Bit7 c v => exact (reported _).doneNone
  | eoi c => exact (endNonSpecific_ok hp c).doneNone
  | ocw2Unrecognized c v => exact (reported _).doneNone
  | raise n => exact completes_ite (reported _).doneNone ⟨_, rfl⟩
  | lower n => exact completes_ite (reported _).doneNone ⟨_, rfl⟩
  | query n => exact completes_ite ((reported _).mapNext (f := (·.setResult (.bit false))) fun _ => rfl).completes ⟨_, rfl⟩
  | out8 p v => exact (portWrite8_ok hp p v).doneNone
  | out16 p v => exact (portWrite16_ok hp p v).doneNone
  | out32 p v => exact (portWrite32_ok hp p v).doneNone
  | reset t => cases t <;> exact ⟨_, rfl⟩
  | rep j => exact (repeatDrive_returns hp j).completes
  | _ => exact ⟨_, rfl⟩

/-! ### Reads, lines, queries and registrations -/

/-- A report that does not stop the run is its record. -/
theorem report_next {v : Violation} {s t : State} (h : report v s = .next t) : t = s.pushViolation v := by
  unfold report at h
  split at h
  · cases h
  · cases h; rfl

/-- No chip register of `t` but `request` differs from `s`. -/
def OnlyRequests (s t : State) : Prop := ∀ c, OnlyRequest (s.chip c) (t.chip c)

theorem OnlyRequests.of_chips {s t : State} (h : ∀ c, t.chip c = s.chip c) : OnlyRequests s t := by
  intro c
  rw [h c]
  rfl

theorem OnlyRequests.trans {s t u : State} (h : OnlyRequests s t) (h' : OnlyRequests t u) :
    OnlyRequests s u := by
  intro c
  have h1 := h c
  have h2 := h' c
  unfold OnlyRequest at *
  rw [h1] at h2
  exact h2

theorem ReadChange.onlyRequests {s t : State} (h : ReadChange s t) : OnlyRequests s t := by
  cases h with
  | violation v => exact .of_chips (pushViolation_chip s v)
  | call e => exact .of_chips (pushCall_chip s e)
  | reply => unfold takeReply; split <;> exact .of_chips (fun c => by cases c <;> rfl)
  | point => exact (point_only s).chip

theorem reads_onlyRequests {s t : State} (h : Chain ReadChange s t) : OnlyRequests s t :=
  h.relates (fun _ => .of_chips fun _ => rfl) (fun _ _ _ => .trans) fun _ _ => ReadChange.onlyRequests

/-- A line operation in range, or the report of one out of range. -/
theorem onlyRequests_of_lineOp {q : Prop} [Decidable q] {v : Violation} {r : Result} {s t u : State}
    (h : (if q then mapNext (report v s) (·.setResult r) else .next u) = Host.Outcome.next t)
    (hu : OnlyRequests s u) : OnlyRequests s t := by
  split at h
  · cases hr : report v s with
    | next w =>
      rw [hr] at h
      cases h
      rw [report_next hr]
      exact .of_chips fun c => by rw [setResult_chip, pushViolation_chip]
    | fault f => rw [hr] at h; cases h
    | refused f => rw [hr] at h; cases h
  · cases h; exact hu

theorem OnlyRequests.setResult {s t : State} (h : OnlyRequests s t) (r : Result) :
    OnlyRequests s (t.setResult r) := h.trans (.of_chips (setResult_chip t r))

theorem registerPort_chip (p : Port) (d : Device) (dir : Dir) (s : State) (c : Chip) :
    (registerPort p d dir s).chip c = s.chip c := by
  unfold registerPort
  split
  · rw [setResult_chip, pushViolation_chip]
  · rw [setResult_chip, enterPorts_chip]

/-! ### The ignore switch -/

/-- With no other agent acting: none acts afterwards, and the switch is as before. -/
def KeepsSwitch (s t : State) : Prop := s.agentOps = [] → t.agentOps = [] ∧ t.ignoreAll = s.ignoreAll

theorem KeepsSwitch.of_eq {s t : State} (ha : t.agentOps = s.agentOps) (hi : t.ignoreAll = s.ignoreAll) :
    KeepsSwitch s t := fun h => ⟨ha.trans h, hi⟩

theorem KeepsSwitch.trans {s t u : State} (h : KeepsSwitch s t) (h' : KeepsSwitch t u) : KeepsSwitch s u := by
  intro ha
  obtain ⟨ht, hst⟩ := h ha
  obtain ⟨hu, htu⟩ := h' ht
  exact ⟨hu, htu.trans hst⟩

theorem ReadChange.keepsSwitch {s t : State} (h : ReadChange s t) : KeepsSwitch s t := by
  cases h with
  | violation v => exact .of_eq rfl rfl
  | call e => exact .of_eq rfl rfl
  | reply => unfold takeReply; split <;> exact .of_eq rfl rfl
  | point => intro ha; rw [point_of_nil ha]; exact ⟨ha, rfl⟩

theorem GuestChange.keepsSwitch {s t : State} (h : GuestChange s t) : KeepsSwitch s t := by
  cases h with
  | bus h =>
    cases h with
    | read h => exact h.keepsSwitch
    | flags c r hq hm => exact .of_eq (setChip_agentOps s c r) (setChip_ignoreAll s c r)
    | lines m sl => exact .of_eq rfl rfl
  | result r => exact .of_eq rfl rfl
  | event e => exact .of_eq rfl rfl
  | core u => exact .of_eq rfl rfl
  | body => unfold takeBody; split <;> exact .of_eq rfl rfl
  | nextIp => unfold takeNextIp; split <;> exact .of_eq rfl rfl

/-- Whatever the guest does alone keeps the switch. -/
theorem guest_keepsSwitch {s t : State} (h : Chain GuestChange s t) : KeepsSwitch s t :=
  h.relates (fun _ => .of_eq rfl rfl) (fun _ _ _ => .trans) fun _ _ => GuestChange.keepsSwitch

end Sys2Proof.Machine

namespace Sys2Proof

open Sys2Proof.Machine

/-- Settles O52: only a report can stop an operation, and under the default policy it does not. -/
theorem everyOperationReturns : Obligations.EveryOperationReturns := fun i _ hp => exec_completes hp i

/-- Settles O53: these instructions read, act on lines as other agents do, or write no chip at all. -/
theorem readsAndLinesWriteOnlyRequest : Obligations.ReadsAndLinesWriteOnlyRequest := by
  intro i s t c hi ht
  have same : OnlyRequests s s := .of_chips fun _ => rfl
  cases i with
  | readStatus c' => cases ht; exact same.setResult _ c
  | readMask c' => cases ht; exact same.setResult _ c
  | raise n => exact onlyRequests_of_lineOp ht (OnlyRequests.setResult (raiseLine_only _ s).chip .none) c
  | lower n => exact onlyRequests_of_lineOp ht (OnlyRequests.setResult (lowerLine_only _ s).chip .none) c
  | query n => exact onlyRequests_of_lineOp ht (same.setResult _) c
  | anyPending => cases ht; exact same.setResult _ c
  | deliverable => cases ht; exact same.setResult _ c
  | recompute => cases ht; exact (OnlyRequests.of_chips (recompute_chip s)).setResult _ c
  | encode w => cases ht; exact same.setResult _ c
  | ignore b => cases ht; exact (OnlyRequests.of_chips (setIgnoreAll_chip b s)).setResult _ c
  | register p d dir => cases ht; exact OnlyRequests.of_chips (registerPort_chip p d dir s) c
  | unregister d => cases ht; exact (OnlyRequests.of_chips (removePorts_chip d s)).setResult _ c
  | lookupInput p => cases ht; exact same.setResult _ c
  | lookupOutput p => cases ht; exact same.setResult _ c
  | in8 p => cases ht; exact (reads_onlyRequests (portRead8_chain p s)).setResult _ c
  | in16 p => cases ht; exact (reads_onlyRequests (portRead16_chain p s)).setResult _ c
  | in32 p => cases ht; exact (reads_onlyRequests (portRead32_chain p s)).setResult _ c
  | _ => exact False.elim hi

/-- Settles O54: of the guest's atomic changes only another agent's action can write the switch. -/
theorem guestCannotWriteIgnoreSwitch : Obligations.GuestCannotWriteIgnoreSwitch := by
  intro i s t hguest halone ht
  exact (guest_keepsSwitch (exec_guest_reaches i hguest s t ht) halone).2

end Sys2Proof
end

section
/-! PROOFS. In-service bits (10_state.md R13, R31): every operation but `service()` is made of changes that set
none. -/

namespace Sys2Proof.Machine

/-- Every in-service bit of `t` is one of `s`. -/
def NoNewService (s t : State) : Prop :=
  ∀ c k, (t.chip c).inService.getLsbD k = true → (s.chip c).inService.getLsbD k = true

theorem NoNewService.trans {s t u : State} (h : NoNewService s t) (h' : NoNewService t u) :
    NoNewService s u := fun c k hk => h c k (h' c k hk)

/-- A change that keeps the in-service registers. -/
theorem NoNewService.of_same {s t : State} (h : ∀ c, (t.chip c).inService = (s.chip c).inService) :
    NoNewService s t := by
  intro c k hk
  rwa [h c] at hk

/-- Rewriting one chip, whose in-service register loses bits at most. -/
theorem NoNewService.setChip {s : State} {c : Chip} {r : ChipRegs}
    (h : ∀ k, r.inService.getLsbD k = true → (s.chip c).inService.getLsbD k = true) :
    NoNewService s (s.setChip c r) := by
  intro c' k hk
  by_cases hc : c' = c
  · subst hc
    rw [setChip_chip] at hk
    exact h k hk
  · rwa [setChip_chip_ne s r hc] at hk

theorem NoNewService.recompute {s t : State} (h : NoNewService s t) : NoNewService s (recompute t) :=
  h.trans (.of_same fun c => by rw [recompute_chip])

theorem NoNewService.setResult {s t : State} (h : NoNewService s t) (r : Result) :
    NoNewService s (t.setResult r) :=
  h.trans (.of_same fun c => by rw [setResult_chip])

theorem clearInService_noNewService (c : Chip) (i : Nat) (s : State) :
    NoNewService s (clearInService c i s) := by
  refine .setChip fun k hk => ?_
  rw [clearBit_getLsbD, Bool.and_eq_true] at hk
  exact hk.1

theorem initChip_noNewService (c : Chip) (v : Byte) (s : State) : NoNewService s (initChip c v s) := by
  refine NoNewService.recompute (.setChip fun k hk => ?_)
  rw [show (0x00 : Byte).getLsbD k = false from BitVec.getLsbD_zero] at hk
  cases hk

theorem resetChip_noNewService (c : Chip) (s : State) : NoNewService s (resetChip c s) := by
  refine NoNewService.recompute (.setChip fun k hk => ?_)
  rw [show (ChipRegs.reset _).inService.getLsbD k = false from BitVec.getLsbD_zero] at hk
  cases hk

theorem OnlyRequests.noNewService {s t : State} (h : OnlyRequests s t) : NoNewService s t :=
  .of_same fun c => by rw [h c]

theorem reads_noNewService {s t : State} (h : Chain ReadChange s t) : NoNewService s t :=
  (reads_onlyRequests h).noNewService

/-- The set of changes that set no in-service bit is closed under chains. -/
theorem Reaches.noNewService {s t : State} {o : Out} (h : Reaches NoNewService s o) (ho : o = .next t) :
    NoNewService s t :=
  (h t ho).relates (fun _ _ _ => id) (fun _ _ _ => .trans) fun _ _ => id

theorem NoNewService.reaches {s t : State} (h : NoNewService s t) : Reaches NoNewService s (.next t) :=
  .next (.single h)

theorem report_noNewService (v : Violation) (s : State) : Reaches NoNewService s (report v s) := by
  intro t ht
  rw [report_next ht]
  exact .single (.of_same fun c => by rw [pushViolation_chip])

theorem endNonSpecific_noNewService (c : Chip) (s : State) :
    Reaches NoNewService s (endNonSpecific c s) := by
  unfold endNonSpecific
  split
  · exact report_noNewService _ s
  · exact (clearInService_noNewService c _ s).reaches

theorem statusMode_noNewService (c : Chip) (esmm smm rr ris : Bool) (s : State) :
    NoNewService s (statusMode c esmm smm rr ris s) := .setChip fun _ => id

theorem vectorBaseByte_noNewService (c : Chip) (v : Byte) (s : State) :
    NoNewService s (vectorBaseByte c v s) := .setChip fun _ => id

theorem fourthByte_noNewService (c : Chip) (s : State) : NoNewService s (fourthByte c s) :=
  .setChip fun _ => id

theorem setMask_noNewService (c : Chip) (m : Byte) (s : State) : NoNewService s (setMask c m s) :=
  NoNewService.recompute (.setChip fun _ => id)

theorem writeCommandByte0_noNewService (c : Chip) (v : Byte) (s : State) :
    Reaches NoNewService s (writeCommandByte0 c v s) := by
  unfold writeCommandByte0
  split
  · exact (initChip_noNewService c v s).reaches
  split
  · split
    · exact report_noNewService _ s
    split
    · exact report_noNewService _ s
    · exact (statusMode_noNewService c _ _ _ _ s).reaches
  split
  · exact endNonSpecific_noNewService c s
  split
  · exact (clearInService_noNewService c _ s).reaches
  · exact report_noNewService _ s

theorem writeCommandByte1_noNewService (c : Chip) (v : Byte) (s : State) :
    NoNewService s (writeCommandByte1 c v s) := by
  unfold writeCommandByte1
  split
  · exact vectorBaseByte_noNewService c v s
  split
  · exact fourthByte_noNewService c s
  · exact setMask_noNewService c v s

theorem deviceOut8_noNewService (d : Device) (p : Port) (v : Byte) (s : State) :
    Reaches NoNewService s (deviceOut8 d p v s) := by
  cases d with
  | chip c =>
    simp only [deviceOut8, chipOut8]
    split
    · exact (writeCommandByte1_noNewService c v s).reaches
    · exact writeCommandByte0_noNewService c v s
  | peripheral k => exact (reads_noNewService (pushCall_chain s _)).reaches

theorem point_noNewService (s : State) : Chain NoNewService s (point s) :=
  .single (reads_noNewService (point_chain s))

theorem deviceOut16_noNewService (d : Device) (p : Port) (v : BitVec 16) (s : State) :
    Reaches NoNewService s (deviceOut16 d p v s) := by
  unfold deviceOut16
  split
  · exact (reads_noNewService (pushCall_chain s _)).reaches
  · exact (deviceOut8_noNewService d p _ s).andThen
      fun t => .after (point_noNewService t) (deviceOut8_noNewService _ _ _ _)

theorem deviceOut32_noNewService (d : Device) (p : Port) (v : BitVec 32) (s : State) :
    Reaches NoNewService s (deviceOut32 d p v s) := by
  unfold deviceOut32
  split
  · exact (reads_noNewService (pushCall_chain s _)).reaches
  · exact (deviceOut16_noNewService d p _ s).andThen
      fun t => .after (point_noNewService t) (deviceOut16_noNewService _ _ _ _)

theorem reportOptional_noNewService (v : Violation) (s : State) :
    Reaches NoNewService s (.next (reportOptional v s)) :=
  (reads_noNewService (reportOptional_chain v s)).reaches

theorem portWrite8_noNewService (p : Port) (v : Byte) (s : State) :
    Reaches NoNewService s (portWrite8 p v s) := by
  unfold portWrite8
  split
  · exact deviceOut8_noNewService _ _ _ s
  · exact reportOptional_noNewService _ s

theorem portWrite16_noNewService (p : Port) (v : BitVec 16) (s : State) :
    Reaches NoNewService s (portWrite16 p v s) := by
  unfold portWrite16
  split
  · exact deviceOut16_noNewService _ _ _ s
  · exact reportOptional_noNewService _ s

theorem portWrite32_noNewService (p : Port) (v : BitVec 32) (s : State) :
    Reaches NoNewService s (portWrite32 p v s) := by
  unfold portWrite32
  split
  · exact deviceOut32_noNewService _ _ _ s
  · exact reportOptional_noNewService _ s

theorem portWriteWide_noNewService (w : Width) (p : Port) (v : BitVec 32) (s : State) :
    Reaches NoNewService s (portWriteWide w p v s) := by
  cases w with
  | w8 => exact portWrite8_noNewService p _ s
  | w16 => exact portWrite16_noNewService p _ s
  | w32 => exact portWrite32_noNewService p v s

theorem setCore_noNewService (s : State) (u : CoreSignals) : NoNewService s (s.setCore u) :=
  .of_same fun c => by rw [setCore_chip]

theorem pushEvent_noNewService (s : State) (e : CoreEvent) : NoNewService s (s.pushEvent e) :=
  .of_same fun c => by rw [pushEvent_chip]

theorem takeBody_noNewService (s : State) : NoNewService s (takeBody s).2 := by
  unfold takeBody
  split <;> exact .of_same fun c => by cases c <;> rfl

theorem body_noNewService (j : RepInputs) (s : State) : Reaches NoNewService s (body j s) := by
  unfold body
  refine .after (.single (pushEvent_noNewService s
    (.body j.kind j.width j.addrSize s.core.srcIndex s.core.dstIndex))) ?_
  cases j.kind
  case portIn =>
    exact ((reads_noNewService (portReadWide_chain _ _ _)).trans (pushEvent_noNewService _ _)).reaches
  case portOut =>
    exact .after (.single (takeBody_noNewService _)) (portWriteWide_noNewService _ _ _ _)
  case compare => exact ((takeBody_noNewService _).trans (setCore_noNewService _ _)).reaches
  case scan => exact ((takeBody_noNewService _).trans (setCore_noNewService _ _)).reaches
  all_goals exact .next .refl

theorem element_noNewService (j : RepInputs) (counted : Bool) (s : State) :
    Reaches NoNewService s (element j counted s) :=
  (body_noNewService j s).mapNext
    fun _ => .single ((setCore_noNewService _ _).trans (setCore_noNewService _ _))

theorem finishDriver_noNewService (j : RepInputs) (r : DriverResult) (s : State) :
    NoNewService s (finishDriver j r s) := (setCore_noNewService s _).setResult _

theorem driverLoop_noNewService (j : RepInputs) (n : Nat) (s : State) :
    Reaches NoNewService s (driverLoop j n s) := by
  induction n generalizing s with
  | zero => exact (finishDriver_noNewService j _ s).reaches
  | succ n ih =>
    simp only [driverLoop]
    refine .after (point_noNewService s) ?_
    split
    · exact (finishDriver_noNewService j _ _).reaches
    · refine .after (point_noNewService _) ((element_noNewService j true _).andThen fun t => ?_)
      split
      · exact (finishDriver_noNewService j _ t).reaches
      · exact ih t

theorem repeatDrive_noNewService (j : RepInputs) (s : State) :
    Reaches NoNewService s (repeatDrive j s) := by
  unfold repeatDrive
  split
  · exact (element_noNewService j false s).mapNext fun t => .single (finishDriver_noNewService j _ t)
  · exact driverLoop_noNewService j _ s
  · exact driverLoop_noNewService j _ s

theorem resetDevice_noNewService (d : Device) (s : State) : NoNewService s (resetDevice d s) := by
  cases d with
  | chip c => exact resetChip_noNewService c s
  | peripheral k => exact reads_noNewService (pushCall_chain s _)

theorem resetMachine_noNewService (s : State) : NoNewService s (resetMachine s) := by
  rw [resetMachine, foldl_resetDevice]
  exact (resetChip_noNewService .M s).trans ((resetChip_noNewService .S _).trans
    (.of_same fun c => by cases c <;> rfl))

theorem Reaches.doneNone_noNewService {s : State} {o : Out} (h : Reaches NoNewService s o) (r : Result) :
    Reaches NoNewService s (Machine.mapNext o (·.setResult r)) :=
  h.mapNext fun _ => .single (NoNewService.setResult (fun _ _ => id) r)

theorem exec_noNewService {i : Instr} (hi : i ≠ .service) (s : State) :
    Reaches NoNewService s (exec i s) := by
  have answers {t : State} (h : NoNewService s t) (r : Result) :
      Reaches NoNewService s (.next (t.setResult r)) := (h.setResult r).reaches
  have same : NoNewService s s := fun _ _ => id
  have lineOp {q : Prop} [Decidable q] (v : Violation) (r : Result) {t : State} (h : OnlyRequests s t) :
      Reaches NoNewService s (if q then mapNext (report v s) (·.setResult r) else .next t) := by
    split
    · exact (report_noNewService v s).doneNone_noNewService r
    · exact h.noNewService.reaches
  cases i with
  | icw1 c v => exact answers (initChip_noNewService c v s) _
  | ocw3Poll c v => exact (report_noNewService _ s).doneNone_noNewService _
  | ocw3Bit7 c v => exact (report_noNewService _ s).doneNone_noNewService _
  | ocw3 c esmm smm rr ris => exact answers (statusMode_noNewService c esmm smm rr ris s) _
  | eoi c => exact (endNonSpecific_noNewService c s).doneNone_noNewService _
  | seoi c l => exact answers (clearInService_noNewService c _ s) _
  | ocw2Unrecognized c v => exact (report_noNewService _ s).doneNone_noNewService _
  | icw2 c base dropped => exact answers (vectorBaseByte_noNewService c _ s) _
  | icw4 c v => exact answers (fourthByte_noNewService c s) _
  | ocw1 c m => exact answers (setMask_noNewService c m s) _
  | readStatus c => exact answers same _
  | readMask c => exact answers same _
  | raise n => exact lineOp _ _ (OnlyRequests.setResult (raiseLine_only _ s).chip .none)
  | lower n => exact lineOp _ _ (OnlyRequests.setResult (lowerLine_only _ s).chip .none)
  | query n => exact lineOp _ _ (.of_chips (setResult_chip s _))
  | anyPending => exact answers same _
  | deliverable => exact answers same _
  | recompute => exact answers (NoNewService.recompute same) _
  | service => exact absurd rfl hi
  | encode w => exact answers same _
  | ignore b => exact answers (.of_same fun c => by rw [setIgnoreAll_chip]) _
  | register p d dir => exact NoNewService.reaches (.of_same fun c => by rw [registerPort_chip])
  | unregister d => exact answers (.of_same fun c => by rw [removePorts_chip]) _
  | lookupInput p => exact answers same _
  | lookupOutput p => exact answers same _
  | in8 p => exact answers (reads_noNewService (portRead8_chain p s)) _
  | in16 p => exact answers (reads_noNewService (portRead16_chain p s)) _
  | in32 p => exact answers (reads_noNewService (portRead32_chain p s)) _
  | out8 p v => exact (portWrite8_noNewService p v s).doneNone_noNewService _
  | out16 p v => exact (portWrite16_noNewService p v s).doneNone_noNewService _
  | out32 p v => exact (portWrite32_noNewService p v s).doneNone_noNewService _
  | reset t =>
    cases t with
    | machine => exact answers (resetMachine_noNewService s) _
    | device d => exact answers (resetDevice_noNewService d s) _
  | rep j => exact repeatDrive_noNewService j s

end Sys2Proof.Machine

namespace Sys2Proof

open Sys2Proof.Machine

/-- Settles O56: no part of any other operation sets an in-service bit. -/
theorem onlyServiceSetsInService : Obligations.OnlyServiceSetsInService := by
  intro i s t c k hi ht
  exact (exec_noNewService hi s).noNewService ht c k

end Sys2Proof
end

section
/-! PROOFS. The ignore switch (10_state.md R20, 43_service.md R143): every operation but `service()`, the switch's
own write and the repeat driver commutes with setting it. -/

namespace Sys2Proof.Machine

/-! ### Reads -/

/-- A function that answers a value and a state commutes with the switch at `s`. -/
def ReadCommutes {α : Type} (b : Bool) (f : State → α × State) (s : State) : Prop :=
  f (setIgnoreAll b s) = ((f s).1, setIgnoreAll b (f s).2)

theorem takeReply_commutes (b : Bool) (s : State) : ReadCommutes b takeReply s := by
  unfold ReadCommutes takeReply
  rw [setIgnoreAll_deviceReplies]
  split <;> rfl

theorem takeReply16_commutes (b : Bool) (s : State) : ReadCommutes b takeReply16 s := by
  unfold ReadCommutes takeReply16
  simp only [show takeReply (setIgnoreAll b _) = _ from takeReply_commutes b _]

theorem takeReply32_commutes (b : Bool) (s : State) : ReadCommutes b takeReply32 s := by
  unfold ReadCommutes takeReply32
  simp only [show takeReply16 (setIgnoreAll b _) = _ from takeReply16_commutes b _]

theorem deviceIn8_commutes (b : Bool) (d : Device) (p : Port) (s : State) :
    ReadCommutes b (deviceIn8 d p) s := by
  cases d with
  | chip c => cases c <;> rfl
  | peripheral k => exact takeReply_commutes b (s.pushCall (.in8 k p))

theorem overrides16_setIgnoreAll (d : Device) (b : Bool) (s : State) :
    overrides16 d (setIgnoreAll b s) = overrides16 d s := by
  cases d <;> rfl

theorem overrides32_setIgnoreAll (d : Device) (b : Bool) (s : State) :
    overrides32 d (setIgnoreAll b s) = overrides32 d s := by
  cases d <;> rfl

/-- No other agent acts after a read either. -/
theorem reads_alone {s t : State} (ha : s.agentOps = []) (h : Chain ReadChange s t) : t.agentOps = [] :=
  (guest_keepsSwitch h.toBus.toGuest ha).1

theorem point_setIgnoreAll {s : State} (ha : s.agentOps = []) (b : Bool) :
    point (setIgnoreAll b s) = setIgnoreAll b (point s) := by
  rw [point_of_nil ha, point_of_nil (s := setIgnoreAll b s) ha]

theorem deviceIn16_commutes (b : Bool) (d : Device) (p : Port) {s : State} (ha : s.agentOps = []) :
    ReadCommutes b (deviceIn16 d p) s := by
  unfold ReadCommutes deviceIn16
  rw [overrides16_setIgnoreAll]
  split
  case h_1 k _ => exact takeReply16_commutes b (s.pushCall (.in16 k p))
  case h_2 =>
    simp only [show deviceIn8 d p (setIgnoreAll b s) = _ from deviceIn8_commutes b d p s]
    rw [point_setIgnoreAll (reads_alone ha (deviceIn8_chain d p s)),
      show deviceIn8 d (nextPort p) (setIgnoreAll b _) = _ from deviceIn8_commutes b d _ _]

theorem deviceIn32_commutes (b : Bool) (d : Device) (p : Port) {s : State} (ha : s.agentOps = []) :
    ReadCommutes b (deviceIn32 d p) s := by
  unfold ReadCommutes deviceIn32
  rw [overrides32_setIgnoreAll]
  split
  case h_1 k _ => exact takeReply32_commutes b (s.pushCall (.in32 k p))
  case h_2 =>
    have ha1 := reads_alone ha (deviceIn16_chain d p s)
    have ha2 := reads_alone ha1 (point_chain _)
    simp only [show deviceIn16 d p (setIgnoreAll b s) = _ from deviceIn16_commutes b d p ha]
    rw [point_setIgnoreAll ha1,
      show deviceIn16 d (nextWordPort p) (setIgnoreAll b _) = _ from deviceIn16_commutes b d _ ha2]

theorem reportOptional_setIgnoreAll (v : Violation) (b : Bool) (s : State) :
    reportOptional v (setIgnoreAll b s) = setIgnoreAll b (reportOptional v s) := by
  unfold reportOptional
  rw [setIgnoreAll_cfg]
  split <;> rfl

theorem portRead8_commutes (b : Bool) (p : Port) (s : State) : ReadCommutes b (portRead8 p) s := by
  unfold ReadCommutes portRead8
  rw [setIgnoreAll_inMap]
  split
  · exact deviceIn8_commutes b _ p s
  · rw [reportOptional_setIgnoreAll]; rfl

theorem portRead16_commutes (b : Bool) (p : Port) {s : State} (ha : s.agentOps = []) :
    ReadCommutes b (portRead16 p) s := by
  unfold ReadCommutes portRead16
  rw [setIgnoreAll_inMap]
  split
  · exact deviceIn16_commutes b _ p ha
  · rw [reportOptional_setIgnoreAll]; rfl

theorem portRead32_commutes (b : Bool) (p : Port) {s : State} (ha : s.agentOps = []) :
    ReadCommutes b (portRead32 p) s := by
  unfold ReadCommutes portRead32
  rw [setIgnoreAll_inMap]
  split
  · exact deviceIn32_commutes b _ p ha
  · rw [reportOptional_setIgnoreAll]; rfl

/-! ### Writes -/

/-- An operation commutes with the switch at `s`. -/
def Commutes (b : Bool) (f : State → Out) (s : State) : Prop :=
  f (setIgnoreAll b s) = mapNext (f s) (setIgnoreAll b)

theorem report_commutes (b : Bool) (v : Violation) (s : State) : Commutes b (report v) s := by
  unfold Commutes
  by_cases h : s.cfg.policy = .fault ∧ v.stops
  · rw [report_stops (s := setIgnoreAll b s) h.1 h.2, report_stops h.1 h.2]
    rfl
  · rw [report_continues (s := setIgnoreAll b s) h, report_continues h]
    rfl

/-- The part after the first one commutes in the state that the first one left. -/
theorem andThen_commutes {b : Bool} {f g : State → Out} {s : State} (hf : Commutes b f s)
    (hg : ∀ t, f s = .next t → Commutes b g t) : Commutes b (fun s => andThen (f s) g) s := by
  unfold Commutes at *
  beta_reduce
  rw [hf]
  cases h : f s with
  | next t => exact hg t h
  | fault r => rfl
  | refused r => rfl

/-- The result an operation returns is not the switch. -/
theorem setResult_commutes {b : Bool} {f : State → Out} {s : State} (hf : Commutes b f s) (r : Result) :
    Commutes b (fun s => mapNext (f s) (·.setResult r)) s := by
  unfold Commutes at *
  beta_reduce
  rw [hf]
  cases f s <;> rfl

theorem endNonSpecific_commutes (b : Bool) (c : Chip) (s : State) : Commutes b (endNonSpecific c) s := by
  unfold Commutes endNonSpecific
  rw [setIgnoreAll_chip]
  split
  · exact report_commutes b _ s
  · cases c <;> rfl

theorem chipOut8_commutes (b : Bool) (c : Chip) (p : Port) (v : Byte) (s : State) :
    Commutes b (chipOut8 c p v) s := by
  unfold Commutes chipOut8
  split
  · unfold writeCommandByte1
    rw [setIgnoreAll_chip]
    split
    · cases c <;> rfl
    split
    · cases c <;> rfl
    · cases c <;> rfl
  · unfold writeCommandByte0
    split
    · cases c <;> rfl
    split
    · split
      · exact report_commutes b _ s
      split
      · exact report_commutes b _ s
      · cases c <;> rfl
    split
    · exact endNonSpecific_commutes b c s
    split
    · cases c <;> rfl
    · exact report_commutes b _ s

theorem deviceOut8_commutes (b : Bool) (d : Device) (p : Port) (v : Byte) (s : State) :
    Commutes b (deviceOut8 d p v) s := by
  cases d with
  | chip c => exact chipOut8_commutes b c p v s
  | peripheral k => rfl

/-- No other agent acts after a write either. -/
theorem writes_alone {s t : State} {o : Out} (ha : s.agentOps = []) (h : Reaches BusChange s o)
    (ho : o = .next t) : t.agentOps = [] := (guest_keepsSwitch (h t ho).toGuest ha).1

/-- Two halves of a composed write. -/
theorem composed_commutes {b : Bool} {f g : State → Out} {s : State} (ha : s.agentOps = [])
    (hreach : Reaches BusChange s (f s)) (hf : Commutes b f s)
    (hg : ∀ t : State, t.agentOps = [] → Commutes b g t) :
    Commutes b (fun s => andThen (f s) fun t => g (point t)) s := by
  refine andThen_commutes hf fun t ht => ?_
  have hat := writes_alone ha hreach ht
  unfold Commutes
  beta_reduce
  rw [point_setIgnoreAll hat, point_of_nil hat]
  exact hg t hat

theorem deviceOut16_commutes (b : Bool) (d : Device) (p : Port) (v : BitVec 16) {s : State}
    (ha : s.agentOps = []) : Commutes b (deviceOut16 d p v) s := by
  unfold Commutes deviceOut16
  rw [overrides16_setIgnoreAll]
  split
  · rfl
  · exact composed_commutes ha (deviceOut8_reaches d p (lowByte v) s) (deviceOut8_commutes b d p _ s)
      fun t _ => deviceOut8_commutes b d _ _ t

theorem deviceOut32_commutes (b : Bool) (d : Device) (p : Port) (v : BitVec 32) {s : State}
    (ha : s.agentOps = []) : Commutes b (deviceOut32 d p v) s := by
  unfold Commutes deviceOut32
  rw [overrides32_setIgnoreAll]
  split
  · rfl
  · exact composed_commutes ha (deviceOut16_reaches d p (lowHalf v) s) (deviceOut16_commutes b d p _ ha)
      fun t ht => deviceOut16_commutes b d _ _ ht

theorem unowned_commutes (b : Bool) (v : Violation) (s : State) :
    Commutes b (fun s => .next (reportOptional v s)) s :=
  congrArg Host.Outcome.next (reportOptional_setIgnoreAll v b s)

theorem portWrite8_commutes (b : Bool) (p : Port) (v : Byte) (s : State) :
    Commutes b (portWrite8 p v) s := by
  unfold Commutes portWrite8
  rw [setIgnoreAll_outMap]
  split
  · exact deviceOut8_commutes b _ p v s
  · exact unowned_commutes b _ s

theorem portWrite16_commutes (b : Bool) (p : Port) (v : BitVec 16) {s : State} (ha : s.agentOps = []) :
    Commutes b (portWrite16 p v) s := by
  unfold Commutes portWrite16
  rw [setIgnoreAll_outMap]
  split
  · exact deviceOut16_commutes b _ p v ha
  · exact unowned_commutes b _ s

theorem portWrite32_commutes (b : Bool) (p : Port) (v : BitVec 32) {s : State} (ha : s.agentOps = []) :
    Commutes b (portWrite32 p v) s := by
  unfold Commutes portWrite32
  rw [setIgnoreAll_outMap]
  split
  · exact deviceOut32_commutes b _ p v ha
  · exact unowned_commutes b _ s

/-! ### The instructions -/

theorem raiseLine_setIgnoreAll (n : Nat) (b : Bool) (s : State) :
    raiseLine n (setIgnoreAll b s) = setIgnoreAll b (raiseLine n s) := by
  unfold raiseLine
  split <;> rfl

theorem lowerCascade_setIgnoreAll (b : Bool) (s : State) :
    lowerCascade (setIgnoreAll b s) = setIgnoreAll b (lowerCascade s) := by
  unfold lowerCascade
  rw [setIgnoreAll_slave]
  split <;> rfl

theorem lowerLine_setIgnoreAll (n : Nat) (b : Bool) (s : State) :
    lowerLine n (setIgnoreAll b s) = setIgnoreAll b (lowerLine n s) := by
  unfold lowerLine
  split
  · rfl
  · exact congrArg recompute (lowerCascade_setIgnoreAll b (clearRequest .S (n - 8) s))

theorem registerPort_setIgnoreAll (p : Port) (d : Device) (dir : Dir) (b : Bool) (s : State) :
    registerPort p d dir (setIgnoreAll b s) = setIgnoreAll b (registerPort p d dir s) := by
  by_cases h : collides p dir s = true
  · rw [registerPort_refused h, registerPort_refused (s := setIgnoreAll b s) h]
    rfl
  · rw [registerPort_accepted h, registerPort_accepted (s := setIgnoreAll b s) h]
    rfl

/-- An operation on a line in range, or the report of one out of range. -/
theorem lineOp_commutes {b : Bool} {q : Prop} [Decidable q] {v : Violation} {r : Result}
    {f : State → State} {s : State} (hf : f (setIgnoreAll b s) = setIgnoreAll b (f s)) :
    Commutes b (fun s => if q then mapNext (report v s) (·.setResult r) else .next (f s)) s := by
  unfold Commutes
  split
  · exact setResult_commutes (report_commutes b v s) r
  · exact congrArg Host.Outcome.next hf

/-- A read whose value is returned. -/
theorem answer_commutes {α : Type} {b : Bool} {f : State → α × State} {s : State} (hf : ReadCommutes b f s)
    (k : α → Result) : Commutes b (fun s => .next ((f s).2.setResult (k (f s).1))) s := by
  unfold Commutes
  beta_reduce
  rw [hf]
  rfl

theorem exec_commutes {i : Instr} (hservice : i ≠ .service) (hignore : ∀ x, i ≠ .ignore x)
    (hrep : ∀ j, i ≠ .rep j) (b : Bool) {s : State} (ha : s.agentOps = []) : Commutes b (exec i) s := by
  have reported (v : Violation) := setResult_commutes (report_commutes b v s) .none
  cases i with
  | icw1 c v => cases c <;> rfl
  | ocw3Poll c v => exact reported _
  | ocw3Bit7 c v => exact reported _
  | ocw3 c esmm smm rr ris => cases c <;> rfl
  | eoi c => exact setResult_commutes (endNonSpecific_commutes b c s) .none
  | seoi c l => cases c <;> rfl
  | ocw2Unrecognized c v => exact reported _
  | icw2 c base dropped => cases c <;> rfl
  | icw4 c v => cases c <;> rfl
  | ocw1 c m => cases c <;> rfl
  | readStatus c => cases c <;> rfl
  | readMask c => cases c <;> rfl
  | raise n => exact lineOp_commutes (congrArg (·.setResult .none) (raiseLine_setIgnoreAll _ b s))
  | lower n => exact lineOp_commutes (congrArg (·.setResult .none) (lowerLine_setIgnoreAll _ b s))
  | query n =>
    have hbit : requestBit n.toNat (setIgnoreAll b s) = requestBit n.toNat s := by
      rw [requestBit, setIgnoreAll_chip, requestBit]
    exact lineOp_commutes (f := fun s => s.setResult (.bit (requestBit n.toNat s)))
      (congrArg (fun x => (setIgnoreAll b s).setResult (.bit x)) hbit)
  | register p d dir => exact congrArg Host.Outcome.next (registerPort_setIgnoreAll p d dir b s)
  | in8 p => exact answer_commutes (portRead8_commutes b p s) .byte
  | in16 p => exact answer_commutes (portRead16_commutes b p ha) .word
  | in32 p => exact answer_commutes (portRead32_commutes b p ha) .dword
  | out8 p v => exact setResult_commutes (portWrite8_commutes b p v s) .none
  | out16 p v => exact setResult_commutes (portWrite16_commutes b p v ha) .none
  | out32 p v => exact setResult_commutes (portWrite32_commutes b p v ha) .none
  | reset t =>
    cases t with
    | machine =>
      unfold Commutes
      rw [exec_resetMachine, exec_resetMachine, resetMachine_eq, resetMachine_eq]
      rfl
    | device d =>
      cases d with
      | chip c => cases c <;> rfl
      | peripheral k => rfl
  | service => exact absurd rfl hservice
  | ignore x => exact absurd rfl (hignore x)
  | rep j => exact absurd rfl (hrep j)
  | _ => rfl

end Sys2Proof.Machine

namespace Sys2Proof

open Sys2Proof.Machine

/-- Settles O55: with no other agent acting, none of these operations reads or writes the switch. -/
theorem ignoreSwitchTouchesOnlyDelivery : Obligations.IgnoreSwitchTouchesOnlyDelivery := by
  intro i s b hi halone
  refine exec_commutes ?_ (fun x => ?_) (fun j => ?_) b halone
  all_goals rintro rfl; exact hi

end Sys2Proof
end

section
/-! PROOFS. A raised line until its delivery (20_memory.md R54): it is in the summary, every operation but those
the rule names keeps its request, and the next `service()` delivers it or a line before it. -/

namespace Sys2Proof.Machine

open Sys2Proof.Statements

/-- An exact summary, read at a global line. -/
theorem SummaryExact.line {s : State} (h : SummaryExact s) {n : Nat} (hn : n < 16) :
    s.summary.getLsbD n = ((s.chip (lineChip n)).request.getLsbD (lineIndex n)
      && !(s.chip (lineChip n)).mask.getLsbD (lineIndex n)) := by
  unfold lineChip lineIndex
  split
  case isTrue h8 => exact (h.isPending n h8).1
  case isFalse h8 =>
    obtain ⟨-, hslave⟩ := h.isPending (n - 8) (by omega)
    rwa [Nat.sub_add_cancel (Nat.not_lt.1 h8)] at hslave

/-- A pending line that is not masked is in an exact summary. -/
theorem SummaryExact.requested {s : State} (h : SummaryExact s) {n : Nat} (hn : n < 16)
    (hr : Requested n s) (hm : (s.chip (lineChip n)).mask.getLsbD (lineIndex n) = false) :
    s.summary.getLsbD n = true := by
  rw [h.line hn, hr, hm]
  rfl

theorem raiseLine_requested {n : Nat} (hn : n < 16) (s : State) : Requested n (raiseLine n s) := by
  unfold Requested lineChip lineIndex
  split
  case isTrue h8 =>
    rw [chip_M, raiseLine_master_request h8, decide_eq_true rfl, Bool.or_true, Bool.true_or]
  case isFalse h8 =>
    rw [chip_S, raiseLine_slave_request (by omega), Nat.sub_add_cancel (Nat.not_lt.1 h8),
      decide_eq_true rfl, Bool.or_true]

/-- Lowering another line keeps a request, unless the request is the cascade's and the line the slave's. -/
theorem lowerLine_requested {n m : Nat} (hne : m ≠ n) (hcascade : ¬(n = 2 ∧ 8 ≤ m)) (hn : n < 16)
    {s : State} (h : Requested n s) : Requested n (lowerLine m s) := by
  unfold Requested lineChip lineIndex at h ⊢
  split at h
  case isTrue h8 =>
    rw [if_pos h8, if_pos h8]
    rw [chip_M] at h
    rw [chip_M, lowerLine_master_request h8, h, decide_eq_true hne.symm]
    rcases not_and_or.1 hcascade with h2 | h2
    · simp [h2]
    · simp [h2]
  case isFalse h8 =>
    rw [if_neg h8, if_neg h8]
    rw [chip_S] at h
    rw [chip_S, lowerLine_slave_request (by omega), h, Nat.sub_add_cancel (Nat.not_lt.1 h8),
      decide_eq_true hne.symm]
    rfl

/-! ### Port writes -/

/-- Bit 4 of each byte of a wide write, which is set in an initialization byte. -/
theorem initBit_lowByte (v : BitVec 16) : (lowByte v).getLsbD 4 = v.getLsbD 4 := by
  simp [lowByte]

theorem initBit_highByte (v : BitVec 16) : (highByte v).getLsbD 4 = v.getLsbD 12 := by
  simp [highByte]

theorem initBit_lowHalf (w : BitVec 32) {k : Nat} (hk : k < 16) :
    (lowHalf w).getLsbD k = w.getLsbD k := by
  simp [lowHalf, hk]

theorem initBit_highHalf (w : BitVec 32) {k : Nat} (hk : k < 16) :
    (highHalf w).getLsbD k = w.getLsbD (16 + k) := by
  simp [highHalf, hk]

/-- A word written to a chip spares line `n` when the byte for its command port is no initialization byte. -/
theorem spares_word {n : Nat} {d : Device} {p : Port} {v : BitVec 16}
    (h : ¬(d = .chip (lineChip n) ∧ v.getLsbD (if p.getLsbD 0 then 12 else 4) = true)) :
    SparesRequest n d p (lowByte v) ∧ SparesRequest n d (nextPort p) (highByte v) := by
  constructor
  · rintro ⟨hd, hport, hv⟩
    rw [initBit_lowByte] at hv
    exact h ⟨hd, by rw [show p.getLsbD 0 = false from hport]; exact hv⟩
  · rintro ⟨hd, hport, hv⟩
    rw [initBit_highByte] at hv
    rw [isDataPort_nextPort, Bool.not_eq_false'] at hport
    exact h ⟨hd, by rw [show p.getLsbD 0 = true from hport]; exact hv⟩

theorem portWrite8_keepsRequest {n : Nat} {p : Port} {v : Byte} {s : State}
    (h : ¬MayDropRequest s n (.out8 p v)) : OutKeepsRequest n s (portWrite8 p v s) := by
  unfold portWrite8
  split
  case h_1 d hd =>
    refine deviceOut8_keepsRequest ?_
    rintro ⟨hc, hport, hv⟩
    exact h ⟨by rw [hd, hc], hport, hv⟩
  case h_2 => exact .next (reportOptional_keepsRequest _)

theorem portWrite16_keepsRequest {n : Nat} {p : Port} {v : BitVec 16} {s : State} (ha : s.agentOps = [])
    (h : ¬MayDropRequest s n (.out16 p v)) : OutKeepsRequest n s (portWrite16 p v s) := by
  unfold portWrite16
  split
  case h_1 d hd =>
    obtain ⟨hlow, hhigh⟩ := spares_word (n := n) (d := d) (p := p) (v := v)
      fun hdrop => h ⟨by rw [hd, hdrop.1], hdrop.2⟩
    exact deviceOut16_keepsRequest ha hlow hhigh
  case h_2 => exact .next (reportOptional_keepsRequest _)

theorem portWrite32_keepsRequest {n : Nat} {p : Port} {w : BitVec 32} {s : State} (ha : s.agentOps = [])
    (h : ¬MayDropRequest s n (.out32 p w)) : OutKeepsRequest n s (portWrite32 p w s) := by
  unfold portWrite32
  split
  case h_1 d hd =>
    have hword : (nextWordPort p).getLsbD 0 = p.getLsbD 0 := isDataPort_nextWordPort p
    obtain ⟨h0, h1⟩ := spares_word (n := n) (d := d) (p := p) (v := lowHalf w) (by
      rintro ⟨hc, hv⟩
      refine h ⟨by rw [hd, hc], .inl ?_⟩
      rwa [initBit_lowHalf w (by split <;> decide)] at hv)
    obtain ⟨h2, h3⟩ := spares_word (n := n) (d := d) (p := nextWordPort p) (v := highHalf w) (by
      rintro ⟨hc, hv⟩
      refine h ⟨by rw [hd, hc], .inr ?_⟩
      have hbit : 16 + (if p.getLsbD 0 then 12 else 4) = if p.getLsbD 0 then 28 else 20 := by
        split <;> rfl
      rwa [hword, initBit_highHalf w (by split <;> decide), hbit] at hv)
    exact deviceOut32_keepsRequest ha h0 h1 h2 h3
  case h_2 => exact .next (reportOptional_keepsRequest _)

/-! ### The instructions -/

/-- Rewriting a chip but for its requests. -/
theorem setChip_keepsRequest {n : Nat} {s : State} {c : Chip} {r : ChipRegs}
    (h : r.request = (s.chip c).request) : KeepsRequest n s (s.setChip c r) := by
  cases c
  · exact .of_same h rfl rfl rfl
  · exact .of_same rfl h rfl rfl

theorem setMask_keepsRequest {n : Nat} {s : State} (c : Chip) (m : Byte) :
    KeepsRequest n s (setMask c m s) :=
  (setChip_keepsRequest (c := c) (r := { s.chip c with mask := m }) rfl).trans (.of_same rfl rfl rfl rfl)

theorem endNonSpecific_keepsRequest {n : Nat} {s : State} (c : Chip) :
    OutKeepsRequest n s (endNonSpecific c s) := by
  unfold endNonSpecific
  split
  · exact report_keepsRequest _
  · exact .next (clearInService_keepsRequest c _)

theorem repeatDrive_keepsRequest {n : Nat} {j : RepInputs} {s : State} (ha : s.agentOps = [])
    (h : DriverSpares n j s) : OutKeepsRequest n s (repeatDrive j s) := by
  unfold repeatDrive
  split
  · exact (element_keepsRequest ha h).mapNext fun _ => .of_same rfl rfl rfl rfl
  · exact driverLoop_keepsRequest ha h
  · exact driverLoop_keepsRequest ha h

theorem OutKeepsRequest.setResult {n : Nat} {s : State} {o : Out} (h : OutKeepsRequest n s o) (r : Result) :
    OutKeepsRequest n s (Machine.mapNext o (·.setResult r)) := h.mapNext fun _ => .of_same rfl rfl rfl rfl

/-- If the outcome is a next state, a request for line `n` is still there. -/
def OutRequested (n : Nat) (o : Out) : Prop := ∀ t, o = .next t → Requested n t

theorem OutKeepsRequest.requested {n : Nat} {s : State} {o : Out} (h : OutKeepsRequest n s o)
    (hs : Requested n s) : OutRequested n o := fun t ht => (h t ht).1 hs

theorem OutRequested.of_chip {n : Nat} {s t : State} (h : Requested n s)
    (hc : t.chip (lineChip n) = s.chip (lineChip n)) : OutRequested n (.next t) := by
  rintro u ⟨⟩
  rwa [Requested, hc]

theorem exec_requested {i : Instr} {s : State} {n : Nat} (hn : n < 16) (ha : s.agentOps = [])
    (hr : Requested n s) (h : ¬MayDropRequest s n i) : OutRequested n (exec i s) := by
  have reported (v : Violation) (r : Result) :=
    ((report_keepsRequest (n := n) (s := s) v).setResult r).requested hr
  have answers {t : State} (ht : KeepsRequest n s t) (r : Result) :=
    ((OutKeepsRequest.next ht).setResult r).requested hr
  have reads {t : State} (ht : Chain ReadChange s t) (r : Result) :
      OutRequested n (.next (t.setResult r)) := answers (reads_keepRequest ha ht) r
  have lineOp {q : Prop} [Decidable q] (v : Violation) (r : Result) {t : State} (ht : ¬q → Requested n t) :
      OutRequested n (if q then mapNext (report v s) (·.setResult r) else .next t) := by
    split
    · exact reported v r
    · exact .of_chip (ht ‹_›) rfl
  cases i with
  | icw1 c v => exact answers (initChip_keepsRequest v h) _
  | ocw3Poll c v => exact reported _ _
  | ocw3Bit7 c v => exact reported _ _
  | ocw3 c esmm smm rr ris => exact answers (t := statusMode c _ _ _ _ s) (setChip_keepsRequest rfl) _
  | eoi c => exact ((endNonSpecific_keepsRequest c).setResult _).requested hr
  | seoi c l => exact answers (clearInService_keepsRequest c _) _
  | ocw2Unrecognized c v => exact reported _ _
  | icw2 c base dropped => exact answers (t := vectorBaseByte c _ s) (setChip_keepsRequest rfl) _
  | icw4 c v => exact answers (t := fourthByte c s) (setChip_keepsRequest rfl) _
  | ocw1 c m => exact answers (setMask_keepsRequest c m) _
  | readStatus c => exact reads .refl _
  | readMask c => exact reads .refl _
  | raise m => exact lineOp _ _ fun _ => (raiseLine_keepsRequest m.toNat).1 hr
  | lower m =>
    obtain ⟨hne, hcascade⟩ := not_or.1 h
    exact lineOp _ _ fun _ => lowerLine_requested hne hcascade hn hr
  | query m => exact lineOp _ _ fun _ => hr
  | anyPending => exact reads .refl _
  | deliverable => exact reads .refl _
  | recompute => exact answers (t := recompute s) (.of_same rfl rfl rfl rfl) _
  | service => exact absurd trivial h
  | encode w => exact reads .refl _
  | ignore b => exact answers (t := setIgnoreAll b s) (.of_same rfl rfl rfl rfl) _
  | register p d dir => exact .of_chip hr (registerPort_chip p d dir s _)
  | unregister d => exact .of_chip hr ((setResult_chip _ _ _).trans (removePorts_chip d s _))
  | lookupInput p => exact reads .refl _
  | lookupOutput p => exact reads .refl _
  | in8 p => exact reads (portRead8_chain p s) _
  | in16 p => exact reads (portRead16_chain p s) _
  | in32 p => exact reads (portRead32_chain p s) _
  | out8 p v => exact ((portWrite8_keepsRequest h).setResult _).requested hr
  | out16 p v => exact ((portWrite16_keepsRequest ha h).setResult _).requested hr
  | out32 p v => exact ((portWrite32_keepsRequest ha h).setResult _).requested hr
  | reset t =>
    obtain ⟨hmachine, hdevice⟩ := not_or.1 h
    cases t with
    | machine => exact absurd rfl hmachine
    | device d =>
      cases d with
      | chip c =>
        have hc : lineChip n ≠ c := fun e => hdevice (by rw [e])
        exact .of_chip hr ((setResult_chip _ _ _).trans (resetChip_chip_ne s hc))
      | peripheral k => exact .of_chip hr ((setResult_chip _ _ _).trans (pushCall_chip s _ _))
  | rep j => exact (repeatDrive_keepsRequest ha h).requested hr

/-- Every instruction keeps the summary exact. -/
theorem exec_exact {i : Instr} {s t : State} (hs : SummaryExact s) (ht : exec i s = .next t) :
    SummaryExact t :=
  (exec_reaches i s t ht).keeps (fun _ _ h => h.keeps_summaryExact) hs

/-- The selected line is no later than any line of the summary but the cascade line. -/
theorem selects_of_bit {w : BitVec 16} {n : Nat} (h2 : n ≠ 2) (h : w.getLsbD n = true) :
    ∃ m, m ≤ n ∧ Selects w m := by
  have hsome : encodeLine w ≠ none := by
    intro hnone
    have hbit := drop_cascade_getLsbD w n
    rw [(encodeLine_eq_none w).1 hnone, h, decide_eq_false h2] at hbit
    simp at hbit
  obtain ⟨m, hm⟩ := Option.ne_none_iff_exists'.1 hsome
  have hsel := (encodeLine_eq_some_iff_selects w m).1 hm
  refine ⟨m, ?_, hsel⟩
  by_contra hlt
  obtain ⟨-, -, -, hlow⟩ := hsel
  rw [hlow n (Nat.not_le.1 hlt) h2] at h
  cases h

end Sys2Proof.Machine

namespace Sys2Proof

open Sys2Proof.Machine

/-- Settles O17: the summary stays exact, so a pending line is in it while it is not masked; each operation that
is not named keeps the request. -/
theorem raiseIsVisibleToNextService : Obligations.RaiseIsVisibleToNextService := by
  refine ⟨?raised, ?unmasked, ?kept, ?served⟩
  case raised =>
    intro s n hn hmask
    refine ⟨_, exec_raise hn s, (raiseLine_exact n.toNat s).requested hn (raiseLine_requested hn s) ?_⟩
    rwa [(raiseLine_only n.toNat s).chip]
  case unmasked =>
    intro s n m hn hmask hreq
    refine ⟨_, exec_ocw1 (lineChip n) m s, (setMask_exact _ m s).requested hn ?_ ?_⟩
    · rwa [Requested, setMask_chip]
    · rwa [setMask_chip]
  case kept =>
    intro i s t n hn hexact halone hreq hspared ht
    have hkept : Requested n t := exec_requested hn halone hreq hspared t ht
    exact ⟨hkept, (exec_exact hexact ht).requested hn hkept⟩
  case served =>
    intro s n _ h2 hoff hbit
    obtain ⟨m, hmn, hm⟩ := selects_of_bit h2 hbit
    exact ⟨_, m, hmn, hm, exec_service_selected hoff hm, rfl⟩

end Sys2Proof
end

section
/-! PROOFS. The registers of the repeat driver (44_repeat.md R152, R160, R162): how the count and the indices move
in one element and in a run of elements. -/

namespace Sys2Proof.Machine

open Sys2Proof.Statements

/-! ### A register that moves -/

theorem moved_zero (a : AddrSize) (r : BitVec 32) : Moved a 0 r r := by
  cases a with
  | a16 => exact ⟨(BitVec.add_zero _).symm, rfl⟩
  | a32 => exact (BitVec.add_zero r).symm

theorem moved_trans {a : AddrSize} {d e r r' r'' : BitVec 32} (h : Moved a d r r') (h' : Moved a e r' r'') :
    Moved a (d + e) r r'' := by
  cases a with
  | a16 =>
    obtain ⟨hlow, hhigh⟩ := h
    obtain ⟨hlow', hhigh'⟩ := h'
    exact ⟨by rw [hlow', hlow, low_add, BitVec.add_assoc], hhigh'.trans hhigh⟩
  | a32 => exact h'.trans (by rw [show r' = r + d from h, BitVec.add_assoc])

/-- A write at width `addr_size` of a sum moves the register. -/
theorem writeAt_moved (a : AddrSize) (d r : BitVec 32) : Moved a d r (writeAt a r (r + d)) := by
  cases a with
  | a16 => exact ⟨(writeAt_low r _).trans (low_add r d), writeAt_high r _⟩
  | a32 => rfl

theorem decrement_moved (a : AddrSize) (r : BitVec 32) : Moved a (-1) r (decrement a r) := by
  rw [decrement, BitVec.sub_eq_add_neg]
  exact writeAt_moved a (-1) r

theorem stride_up {j : RepInputs} (h : j.dir = .up) : stride j = BitVec.ofNat 32 j.width.bytes := by
  rw [stride, h]

theorem stride_down {j : RepInputs} (h : j.dir = .down) : stride j = -BitVec.ofNat 32 j.width.bytes := by
  rw [stride, h]

theorem advance_moved (j : RepInputs) (r : BitVec 32) :
    Moved j.addrSize (stride j) r (advance j.addrSize j.dir j.width r) := by
  cases hdir : j.dir with
  | up =>
    rw [stride_up hdir]
    exact writeAt_moved j.addrSize _ r
  | down =>
    rw [stride_down hdir]
    show Moved _ _ r (writeAt j.addrSize r (r - BitVec.ofNat 32 j.width.bytes))
    rw [BitVec.sub_eq_add_neg]
    exact writeAt_moved j.addrSize _ r

theorem countOf_eq_readAt (a : AddrSize) (r : BitVec 32) : (readAt a r).toNat = countOf a r := by
  cases a with
  | a16 => exact readAt_toNat r
  | a32 => rfl

/-- A count that has moved down by no more than itself. -/
theorem moved_countOf {a : AddrSize} {k : Nat} {r r' : BitVec 32} (h : Moved a (-(BitVec.ofNat 32 k)) r r')
    (hk : k ≤ countOf a r) : countOf a r' = countOf a r - k := by
  have hr := r.isLt
  cases a with
  | a16 =>
    have hlow := congrArg BitVec.toNat h.1
    simp only [BitVec.extractLsb'_toNat, BitVec.toNat_add, BitVec.toNat_neg, BitVec.toNat_ofNat,
      Nat.shiftRight_zero] at hlow
    simp only [countOf] at hk ⊢
    omega
  | a32 =>
    have hall := congrArg BitVec.toNat h
    simp only [BitVec.toNat_add, BitVec.toNat_neg, BitVec.toNat_ofNat] at hall
    simp only [countOf] at hk ⊢
    omega

/-! ### The indices -/

theorem usesSource_iff (k : StringKind) :
    k ∈ [StringKind.move, .compare, .load, .portOut] ↔ usesSource k = true := by
  cases k <;> decide

theorem usesDest_iff (k : StringKind) :
    k ∈ [StringKind.move, .compare, .store, .scan, .portIn] ↔ usesDest k = true := by
  cases k <;> decide

/-- An index register that moves by `d` when the kind uses it, and else is kept. -/
def IndexMoved (used : Bool) (a : AddrSize) (d r r' : BitVec 32) : Prop :=
  if used then Moved a d r r' else r' = r

theorem indicesAfter_iff (j : RepInputs) (k : Nat) (u u' : CoreSignals) : IndicesAfter j k u u' ↔
    IndexMoved (usesSource j.kind) j.addrSize (BitVec.ofNat 32 k * stride j) u.srcIndex u'.srcIndex
    ∧ IndexMoved (usesDest j.kind) j.addrSize (BitVec.ofNat 32 k * stride j) u.dstIndex u'.dstIndex := by
  simp only [IndicesAfter, IndexMoved, usesSource_iff, usesDest_iff]

theorem IndexMoved.zero (used : Bool) (a : AddrSize) (r : BitVec 32) : IndexMoved used a 0 r r := by
  cases used with
  | false => rfl
  | true => exact moved_zero a r

theorem IndexMoved.trans {used : Bool} {a : AddrSize} {d e r r' r'' : BitVec 32}
    (h : IndexMoved used a d r r') (h' : IndexMoved used a e r' r'') :
    IndexMoved used a (d + e) r r'' := by
  cases used with
  | false => exact Eq.trans h' h
  | true => exact moved_trans h h'

theorem advance_indexMoved (used : Bool) (j : RepInputs) (r : BitVec 32) :
    IndexMoved used j.addrSize (stride j) r (if used then advance j.addrSize j.dir j.width r else r) := by
  cases used with
  | false => rfl
  | true => exact advance_moved j r

theorem indicesAfter_zero (j : RepInputs) (u : CoreSignals) : IndicesAfter j 0 u u := by
  rw [indicesAfter_iff, BitVec.zero_mul]
  exact ⟨.zero _ _ _, .zero _ _ _⟩

theorem indicesAfter_afterElement (j : RepInputs) (counted zf : Bool) (u : CoreSignals) :
    IndicesAfter j 1 u (afterElement j counted zf u) := by
  rw [indicesAfter_iff, BitVec.one_mul]
  exact ⟨advance_indexMoved _ j u.srcIndex, advance_indexMoved _ j u.dstIndex⟩

theorem indicesAfter_cons {j : RepInputs} {k : Nat} {u v w : CoreSignals} (h : IndicesAfter j 1 u v)
    (h' : IndicesAfter j k v w) : IndicesAfter j (k + 1) u w := by
  have hmul : BitVec.ofNat 32 (k + 1) * stride j = 1#32 * stride j + BitVec.ofNat 32 k * stride j := by
    rw [Nat.add_comm, BitVec.ofNat_add, BitVec.add_mul]
  rw [indicesAfter_iff] at h h' ⊢
  rw [hmul]
  exact ⟨h.1.trans h'.1, h.2.trans h'.2⟩

/-! ### A run of elements -/

/-- The signals of the core after `k` counted elements. -/
structure CoreAfter (j : RepInputs) (k : Nat) (u u' : CoreSignals) : Prop where
  count : Moved j.addrSize (-(BitVec.ofNat 32 k)) u.count u'.count
  indices : IndicesAfter j k u u'
  cycles : u'.cycles = u.cycles + k

theorem CoreAfter.zero (j : RepInputs) (u : CoreSignals) : CoreAfter j 0 u u :=
  ⟨moved_zero _ _, indicesAfter_zero j u, rfl⟩

theorem coreAfter_afterElement (j : RepInputs) (zf : Bool) (u : CoreSignals) :
    CoreAfter j 1 u (afterElement j true zf u) :=
  ⟨decrement_moved _ _, indicesAfter_afterElement j true zf u, rfl⟩

theorem CoreAfter.cons {j : RepInputs} {k : Nat} {u v w : CoreSignals} (h : CoreAfter j 1 u v)
    (h' : CoreAfter j k v w) : CoreAfter j (k + 1) u w := by
  have hneg : -(BitVec.ofNat 32 (k + 1)) = -1 + -(BitVec.ofNat 32 k) := by
    rw [Nat.add_comm, BitVec.ofNat_add, BitVec.neg_add, BitVec.sub_eq_add_neg]
    rfl
  refine ⟨?_, indicesAfter_cons h.indices h'.indices, by rw [h'.cycles, h.cycles]; omega⟩
  rw [hneg]
  exact moved_trans h.count h'.count

theorem Runs.coreAfter {j : RepInputs} {k : Nat} {s t : State} (h : Runs j k s t) :
    CoreAfter j k s.core t.core := by
  refine h.relates (CoreAfter.zero j) fun k u v w helem htail => ?_
  obtain ⟨zf, rfl⟩ := helem
  exact (coreAfter_afterElement j zf u).cons htail

/-- The count register after a run that is no longer than it asks for. -/
theorem CoreAfter.countOf {j : RepInputs} {k : Nat} {u u' : CoreSignals} (h : CoreAfter j k u u')
    (hk : k ≤ countOf j.addrSize u.count) :
    countOf j.addrSize u'.count = countOf j.addrSize u.count - k := moved_countOf h.count hk

theorem bodyCalls_eq (l : List CoreEvent) : bodyCalls l = l.countP CoreEvent.isBody :=
  List.countP_congr fun e _ => by cases e <;> exact Iff.rfl

theorem stopsRepeat_iff (j : RepInputs) (zf : Bool) :
    stopsRepeat j.rep j.kind zf = true ↔ FlagStops j zf := by
  unfold FlagStops
  cases j.rep <;> cases j.kind <;> cases zf <;> decide

end Sys2Proof.Machine
end

section
/-! PROOFS. The repeat driver (44_repeat.md R151 to R164): where it stops, what it has then done, and what it
leaves alone. -/

namespace Sys2Proof.Machine

open Sys2Proof.Statements

theorem exec_rep_none {j : RepInputs} (h : j.rep = .none) (s : State) :
    exec (.rep j) s = mapNext (element j false s) (finishDriver j .completed) := by
  simp only [exec, execRep, repeatDrive, h]

theorem exec_rep_loop {j : RepInputs} (h : j.rep ≠ .none) (s : State) :
    exec (.rep j) s = driverLoop j (countOf j.addrSize s.core.count) s := by
  simp only [exec, execRep, repeatDrive, countOf_eq_readAt]
  cases hr : j.rep with
  | none => exact absurd hr h
  | repNz => rfl
  | repZ => rfl

/-- One turn of the loop with no other agent acting and the poll not holding. -/
theorem driverLoop_alone {j : RepInputs} {s : State} (ha : s.agentOps = []) (he : eligible s = false)
    (n : Nat) : driverLoop j (n + 1) s = andThen (element j true s) fun t =>
      if stopsRepeat j.rep j.kind t.core.zf then .next (finishDriver j .completed t)
      else driverLoop j n t := by
  simp only [driverLoop, point_of_nil ha, he, Bool.false_eq_true, if_false]

theorem driverLoop_eligible {j : RepInputs} {s : State} (ha : s.agentOps = []) (he : eligible s = true)
    (n : Nat) : driverLoop j (n + 1) s = .next (finishDriver j .abortedForInterrupt s) := by
  simp only [driverLoop, point_of_nil ha, he, if_true]

theorem eligible_of_disabled {s : State} (h : s.core.intEnable = false) : eligible s = false := by
  simp only [eligible, h, Bool.false_and]

/-! ### What holds of every part of a repeat holds of the repeat -/

theorem Runs.relates_states {j : RepInputs} {R : State → State → Prop} (hrefl : ∀ s, R s s)
    (htrans : ∀ {s t u}, R s t → R t u → R s u) (hpoint : ∀ s, R s (point s))
    (helement : ∀ {s t}, element j true s = .next t → R s t) {k : Nat} {s t : State} (h : Runs j k s t) :
    R s t := by
  induction h with
  | none s => exact hrefl s
  | more hu he hv _ _ ih =>
    subst hu
    exact htrans (htrans (htrans (hpoint _) (hpoint _)) (helement hv)) ih

theorem rep_relates {j : RepInputs} {R : State → State → Prop} (hrefl : ∀ s, R s s)
    (htrans : ∀ {s t u}, R s t → R t u → R s u) (hpoint : ∀ s, R s (point s))
    (helement : ∀ {counted s t}, element j counted s = .next t → R s t)
    (hfinish : ∀ r s, R s (finishDriver j r s)) {s t : State} (h : exec (.rep j) s = .next t) : R s t := by
  by_cases hrep : j.rep = .none
  case pos =>
    rw [exec_rep_none hrep] at h
    cases he : element j false s with
    | next v => rw [he] at h; cases h; exact htrans (helement he) (hfinish _ v)
    | fault r => rw [he] at h; cases h
    | refused r => rw [he] at h; cases h
  case neg =>
    rw [exec_rep_loop hrep] at h
    rcases driverLoop_runs h with ⟨k, u, -, hruns, -, rfl⟩ | ⟨k, u, -, hruns, rfl, -⟩
    · exact htrans (htrans (hruns.relates_states hrefl htrans hpoint helement) (hpoint u)) (hfinish _ _)
    · exact htrans (hruns.relates_states hrefl htrans hpoint helement) (hfinish _ u)

/-- The signals of the core that no element writes. -/
def OnlyDriverSignals (u u' : CoreSignals) : Prop :=
  u' = { u with
    zf := u'.zf, count := u'.count, srcIndex := u'.srcIndex, dstIndex := u'.dstIndex, ip := u'.ip
    cycles := u'.cycles }

theorem OnlyDriverSignals.trans {u v w : CoreSignals} (h : OnlyDriverSignals u v)
    (h' : OnlyDriverSignals v w) : OnlyDriverSignals u w := by
  unfold OnlyDriverSignals at *
  rw [h] at h'
  exact h'

theorem element_onlyDriverSignals {j : RepInputs} {counted : Bool} {s t : State}
    (h : element j counted s = .next t) : OnlyDriverSignals s.core t.core := by
  rw [(element_core h).1]
  rfl

theorem rep_onlyDriverSignals {j : RepInputs} {s t : State} (h : exec (.rep j) s = .next t) :
    OnlyDriverSignals s.core t.core :=
  rep_relates (R := fun s t => OnlyDriverSignals s.core t.core) (fun _ => rfl) OnlyDriverSignals.trans
    (fun s => by rw [point_core]; rfl) element_onlyDriverSignals (fun _ _ => rfl) h

theorem affectsZf_iff (k : StringKind) : k ∈ [StringKind.compare, .scan] ↔ affectsZf k = true := by
  cases k <;> decide

theorem rep_zf {j : RepInputs} (hk : affectsZf j.kind = false) {s t : State}
    (h : exec (.rep j) s = .next t) : t.core.zf = s.core.zf :=
  rep_relates (R := fun s t => t.core.zf = s.core.zf) (fun _ => rfl) (fun h h' => h'.trans h)
    (fun s => by rw [point_core]) (fun h => (element_core h).2.1 hk) (fun _ _ => rfl) h

/-- Nothing of the block has changed but what other agents write and the records of the body's calls. -/
def OnlyAgentsAndBody (s t : State) : Prop :=
  t = { s with
    master := { s.master with request := t.master.request }
    slave := { s.slave with request := t.slave.request }
    summary := t.summary, ignoreAll := t.ignoreAll, agentOps := t.agentOps
    core := t.core, events := t.events, result := t.result
    bodyResults := t.bodyResults, freeCount := t.freeCount }

theorem OnlyAgentsAndBody.trans {s t u : State} (h : OnlyAgentsAndBody s t) (h' : OnlyAgentsAndBody t u) :
    OnlyAgentsAndBody s u := by
  unfold OnlyAgentsAndBody at *
  rw [h] at h'
  exact h'

theorem point_onlyAgentsAndBody (s : State) : OnlyAgentsAndBody s (point s) := by
  rw [point_only s]
  rfl

theorem takeBody_onlyAgentsAndBody (s : State) : OnlyAgentsAndBody s (takeBody s).2 := by
  unfold takeBody
  split <;> rfl

/-- The body of a kind without port access. -/
theorem body_onlyAgentsAndBody {j : RepInputs} (hk : j.kind ∉ [StringKind.portIn, .portOut]) {s t : State}
    (h : body j s = .next t) : OnlyAgentsAndBody s t := by
  have taken (e : CoreEvent) (u : CoreSignals) :
      OnlyAgentsAndBody s ((takeBody (s.pushEvent e)).2.setCore u) := by
    have hcall : OnlyAgentsAndBody s (s.pushEvent e) := rfl
    exact (hcall.trans (takeBody_onlyAgentsAndBody _)).trans rfl
  unfold body at h
  cases hj : j.kind <;> simp only [hj] at h
  case portIn => exact absurd (by rw [hj]; decide) hk
  case portOut => exact absurd (by rw [hj]; decide) hk
  case compare => cases h; exact taken _ _
  case scan => cases h; exact taken _ _
  all_goals cases h; rfl

theorem element_onlyAgentsAndBody {j : RepInputs} (hk : j.kind ∉ [StringKind.portIn, .portOut])
    {counted : Bool} {s t : State} (h : element j counted s = .next t) : OnlyAgentsAndBody s t := by
  unfold element at h
  cases hb : body j s with
  | next u => rw [hb] at h; cases h; exact (body_onlyAgentsAndBody hk hb).trans rfl
  | fault r => rw [hb] at h; cases h
  | refused r => rw [hb] at h; cases h

theorem rep_onlyAgentsAndBody {j : RepInputs} (hk : j.kind ∉ [StringKind.portIn, .portOut]) {s t : State}
    (h : exec (.rep j) s = .next t) : OnlyAgentsAndBody s t :=
  rep_relates (R := OnlyAgentsAndBody) (fun _ => rfl) OnlyAgentsAndBody.trans point_onlyAgentsAndBody
    (element_onlyAgentsAndBody hk) (fun _ _ => rfl) h

/-- The driver answers one of its two results. -/
theorem rep_result {j : RepInputs} {s t : State} (h : exec (.rep j) s = .next t) :
    ∃ r, t.result = .driver r := by
  by_cases hrep : j.rep = .none
  case pos =>
    rw [exec_rep_none hrep] at h
    cases he : element j false s with
    | next v => rw [he] at h; cases h; exact ⟨.completed, rfl⟩
    | fault r => rw [he] at h; cases h
    | refused r => rw [he] at h; cases h
  case neg =>
    rw [exec_rep_loop hrep] at h
    rcases driverLoop_runs h with ⟨_, _, -, -, -, rfl⟩ | ⟨_, _, -, -, rfl, -⟩
    · exact ⟨.abortedForInterrupt, rfl⟩
    · exact ⟨.completed, rfl⟩

/-- An aborted repeat is a run of fewer elements than the count asked for, before which the poll did not hold
and after which it does. -/
theorem rep_aborted {j : RepInputs} {s t : State} (h : exec (.rep j) s = .next t)
    (hresult : t.result = .driver .abortedForInterrupt) :
    ∃ k u, k < countOf j.addrSize s.core.count ∧ Runs j k s u ∧ eligible (point u) = true
      ∧ t = finishDriver j .abortedForInterrupt (point u) := by
  by_cases hrep : j.rep = .none
  case pos =>
    rw [exec_rep_none hrep] at h
    cases he : element j false s with
    | next v => rw [he] at h; cases h; cases hresult
    | fault r => rw [he] at h; cases h
    | refused r => rw [he] at h; cases h
  case neg =>
    rw [exec_rep_loop hrep] at h
    rcases driverLoop_runs h with haborted | ⟨_, _, -, -, rfl, -⟩
    · exact haborted
    · cases hresult

/-- A completed repeat is a run that the count or the zero flag ended. -/
theorem rep_completed {j : RepInputs} (hrep : j.rep ≠ .none) {s t : State}
    (h : exec (.rep j) s = .next t) (hresult : t.result = .driver .completed) :
    ∃ k u, k ≤ countOf j.addrSize s.core.count ∧ Runs j k s u ∧ t = finishDriver j .completed u
      ∧ (k = countOf j.addrSize s.core.count ∨ (k ≠ 0 ∧ stopsRepeat j.rep j.kind u.core.zf = true)) := by
  rw [exec_rep_loop hrep] at h
  rcases driverLoop_runs h with ⟨_, _, -, -, -, rfl⟩ | hcompleted
  · cases hresult
  · exact hcompleted

/-! ### The flavours -/

theorem stopsRepeat_of_not_affectsZf {k : StringKind} (hk : affectsZf k = false) (rep : RepMode)
    (zf : Bool) : stopsRepeat rep k zf = false := by
  simp only [stopsRepeat, hk, Bool.false_and]

theorem driverLoop_flavour {j : RepInputs} (hk : affectsZf j.kind = false) (r r' : RepMode) (n : Nat)
    (s : State) : driverLoop { j with rep := r } n s = driverLoop { j with rep := r' } n s := by
  induction n generalizing s with
  | zero => rfl
  | succ n ih =>
    simp only [driverLoop, stopsRepeat_of_not_affectsZf hk, Bool.false_eq_true, if_false, ih]
    rfl

/-! ### The element that the zero flag ends -/

/-- The body of a compare or scan leaves the zero flag that the outside supplied. -/
theorem body_zf {j : RepInputs} (hk : affectsZf j.kind = true) {s : State} {r : BodyResult}
    {rest : List BodyResult} (h : s.bodyResults = r :: rest) :
    ∃ t, body j s = .next t ∧ t.core.zf = r.zf := by
  unfold body
  cases hj : j.kind with
  | compare => exact ⟨_, rfl, by rw [setCore_core, takeBody]; simp [h]⟩
  | scan => exact ⟨_, rfl, by rw [setCore_core, takeBody]; simp [h]⟩
  | _ => rw [hj] at hk; cases hk

end Sys2Proof.Machine

namespace Sys2Proof

open Sys2Proof.Machine

/-- Settles O35: under the default policy the one element answers, and it does not touch the count. -/
theorem noModifierRunsOneElement : Obligations.NoModifierRunsOneElement := by
  intro s j hpolicy hrep
  obtain ⟨v, hv, -⟩ := element_ok hpolicy j false
  obtain ⟨hcore, -, hcalls⟩ := element_core hv
  refine ⟨_, (exec_rep_none hrep s).trans (congrArg (fun o => mapNext o _) hv), rfl, ?_, ?_, ?_, rfl, ?_⟩
  · exact (congrArg CoreSignals.count hcore : v.core.count = _)
  · exact (congrArg CoreSignals.cycles hcore : v.core.cycles = _)
  · have hindices := indicesAfter_afterElement j false v.core.zf s.core
    rw [← hcore] at hindices
    exact hindices
  · rw [bodyCalls_eq, bodyCalls_eq]
    exact hcalls

/-- Settles O36: the loop asks for no element, and is not entered. -/
theorem zeroCountCompletesAtOnce : Obligations.ZeroCountCompletesAtOnce := by
  intro s j hrep hzero
  rw [exec_rep_loop hrep, hzero]
  rfl

/-- Settles O37: the loop tests the poll before its first element. -/
theorem pendingInterruptAbortsBeforeFirst : Obligations.PendingInterruptAbortsBeforeFirst := by
  intro s j hrep hcount halone henabled hline hoff
  obtain ⟨n, hn⟩ := Nat.exists_eq_succ_of_ne_zero hcount
  rw [exec_rep_loop hrep, hn,
    driverLoop_eligible halone ((eligible_iff_pollHolds s).2 ⟨henabled, hline, hoff⟩)]
  rfl

/-- Settles O38: an aborted repeat is a run of `k` elements, after which the poll holds. -/
theorem abortedRepeatIsPrecise : Obligations.AbortedRepeatIsPrecise := by
  intro s t j _ ht hresult
  obtain ⟨k, u, hk, hruns, hpoll, rfl⟩ := rep_aborted ht hresult
  have hafter := hruns.coreAfter
  rw [← point_core u] at hafter
  have hcalls := hruns.calls
  rw [← point_events u, ← bodyCalls_eq, ← bodyCalls_eq] at hcalls
  obtain ⟨henabled, hline, hoff⟩ := (eligible_iff_pollHolds _).1 hpoll
  exact ⟨k, hk, hafter.countOf hk.le, hafter.count, hafter.indices, hafter.cycles, hcalls, rfl, henabled,
    hline, hoff⟩

/-- Settles O39: a completed repeat is a run of `k` elements, which ended by the count or by the zero flag. -/
theorem completedRepeatRanItsElements : Obligations.CompletedRepeatRanItsElements := by
  intro s t j hrep ht hresult
  obtain ⟨k, u, hk, hruns, rfl, hend⟩ := rep_completed hrep ht hresult
  have hafter := hruns.coreAfter
  have hcalls := hruns.calls
  rw [← bodyCalls_eq, ← bodyCalls_eq] at hcalls
  refine ⟨k, hk, hafter.countOf hk, hafter.count, hafter.indices, hafter.cycles, hcalls, rfl, ?_⟩
  exact hend.imp_right fun hstop =>
    ⟨Nat.one_le_iff_ne_zero.2 hstop.1, (stopsRepeat_iff j u.core.zf).1 hstop.2⟩

/-- Settles O40: only the termination test reads the flavour, and it fails for these kinds. -/
theorem flavourIrrelevantWithoutFlag : Obligations.FlavourIrrelevantWithoutFlag := by
  intro s j hkind
  rw [affectsZf_iff, Bool.not_eq_true] at hkind
  rw [exec_rep_loop (show RepMode.repNz ≠ .none by decide),
    exec_rep_loop (show RepMode.repZ ≠ .none by decide)]
  exact driverLoop_flavour hkind .repNz .repZ _ s

/-- Settles O41: the termination test comes after the element was counted. -/
theorem flagEndsRepeatAfterCounting : Obligations.FlagEndsRepeatAfterCounting := by
  intro s j r rest hstops hcount halone hdisabled hanswer
  have hrep : j.rep ≠ .none := by
    rintro h
    rcases hstops.2 with h' | h' <;> rw [h] at h' <;> exact absurd h'.1 (by decide)
  obtain ⟨w, hw, hzf⟩ := body_zf ((affectsZf_iff j.kind).1 hstops.1) hanswer
  obtain ⟨v, hv, hvz⟩ : ∃ v, element j true s = .next v ∧ v.core.zf = r.zf :=
    ⟨_, congrArg (fun o => mapNext o _) hw, hzf⟩
  obtain ⟨n, hn⟩ := Nat.exists_eq_succ_of_ne_zero hcount
  have hstop : stopsRepeat j.rep j.kind v.core.zf = true := (stopsRepeat_iff j _).2 (hvz ▸ hstops)
  have hexec : exec (.rep j) s = .next (finishDriver j .completed v) := by
    rw [exec_rep_loop hrep, hn, driverLoop_alone halone (eligible_of_disabled hdisabled), hv]
    exact if_pos hstop
  have hafter := coreAfter_afterElement j v.core.zf s.core
  rw [← (element_core hv).1] at hafter
  exact ⟨_, hexec, rfl, hvz, hafter.count, hafter.countOf (Nat.one_le_iff_ne_zero.2 hcount), hafter.indices,
    hafter.cycles, rfl⟩

/-- Settles O42: an abort needs `IF`, which no part of a repeat writes. -/
theorem disabledInterruptsNeverAbort : Obligations.DisabledInterruptsNeverAbort := by
  intro s t j hdisabled ht
  have hkept : t.core.intEnable = false := by
    rw [rep_onlyDriverSignals ht]
    exact hdisabled
  refine ⟨?_, hkept⟩
  obtain ⟨r, hr⟩ := rep_result ht
  cases r with
  | completed => exact hr
  | abortedForInterrupt =>
    obtain ⟨_, u, -, -, hpoll, rfl⟩ := rep_aborted ht hr
    have henabled : (point u).core.intEnable = true := ((eligible_iff _).1 hpoll).1
    exact absurd (henabled.symm.trans hkept) (by decide)

/-- Settles O43: the frame of an element, of the end of the driver and of other agents. -/
theorem repeatWritesOnlyItsRegisters : Obligations.RepeatWritesOnlyItsRegisters := by
  intro s t j ht
  refine ⟨rep_result ht, rep_onlyDriverSignals ht, fun hkind => ?_, fun hkind => rep_onlyAgentsAndBody hkind ht⟩
  rw [affectsZf_iff, Bool.not_eq_true] at hkind
  exact rep_zf hkind ht

end Sys2Proof
end

section
/-! PROOFS. String elements as instructions (44_repeat.md R155, R164): a port element does to the block what IN or
OUT of its width does, and a repeat is one element, counted, and then the repeat again. -/

namespace Sys2Proof.Machine

open Sys2Proof.Statements

/-- IN of a width, by the port read of that width. -/
theorem exec_readOf (w : Width) (p : Port) (s : State) :
    ∃ r, exec (readOf w p) s = .next ((portReadWide w p s).2.setResult r)
      ∧ readData r = (portReadWide w p s).1 := by
  cases w with
  | w8 => exact ⟨_, exec_in8 p s, rfl⟩
  | w16 => exact ⟨_, exec_in16 p s, rfl⟩
  | w32 => exact ⟨_, exec_in32 p s, rfl⟩

/-- OUT of a width, by the port write of that width. -/
theorem exec_writeOf (w : Width) (p : Port) (v : BitVec 32) (s : State) :
    exec (writeOf w p v) s = doneNone (portWriteWide w p v s) := by
  cases w <;> rfl

/-! ### One element -/

theorem body_portIn {j : RepInputs} (hk : j.kind = .portIn) (s : State) :
    body j s = .next ((portReadWide j.width s.core.portReg (s.pushEvent (bodyCall j s))).2.pushEvent
      (.portData (portReadWide j.width s.core.portReg (s.pushEvent (bodyCall j s))).1)) := by
  simp only [body, bodyCall, hk]
  rfl

theorem body_portOut {j : RepInputs} (hk : j.kind = .portOut) (s : State) :
    body j s = portWriteWide j.width s.core.portReg (takeBody (s.pushEvent (bodyCall j s))).1.data
      (takeBody (s.pushEvent (bodyCall j s))).2 := by
  simp only [body, bodyCall, hk]
  rfl

/-- The state after an element, by the state after its body. -/
def elementEnd (j : RepInputs) (counted : Bool) (t : State) : State :=
  t.setCore (afterElement j counted t.core.zf t.core)

theorem element_eq (j : RepInputs) (counted : Bool) (s : State) :
    element j counted s = mapNext (body j s) (elementEnd j counted) := rfl

/-- The signals of the core after an uncounted element and the end of the driver. -/
def afterOne (j : RepInputs) (u : CoreSignals) : CoreSignals :=
  { afterElement j false u.zf u with ip := j.ipNext }

theorem afterOne_spec (j : RepInputs) (u : CoreSignals) : CoreAfterOne j u (afterOne j u) :=
  ⟨rfl, indicesAfter_afterElement j false u.zf u⟩

/-- The state that an instruction without modifier leaves, by the state after its body. -/
def oneDone (j : RepInputs) (t : State) : State :=
  { t with core := afterOne j t.core, result := .driver .completed }

theorem exec_rep_none_eq {j : RepInputs} (hrep : j.rep = .none) (s : State) :
    exec (.rep j) s = mapNext (body j s) (oneDone j) := by
  rw [exec_rep_none hrep, element_eq]
  cases body j s <;> rfl

/-- What the body's next answer takes from the inputs. -/
theorem takeBody_spec (s : State) :
    (∀ r rest, s.bodyResults = r :: rest → (takeBody s).1 = r)
    ∧ (takeBody s).2 = { s with
        bodyResults := s.bodyResults.tail, freeCount := (takeBody s).2.freeCount } := by
  unfold takeBody
  split
  case h_1 r rest h =>
    refine ⟨fun r' rest' h' => ?_, by rw [h]; rfl⟩
    exact (List.cons.inj (h.symm.trans h')).1
  case h_2 h =>
    refine ⟨fun r' rest' h' => ?_, by rw [h, List.tail_nil, ← h]⟩
    cases h.symm.trans h'

/-! ### A repeat as an element and a repeat -/

/-- Without the modifier, what the same body leaves. -/
theorem exec_withoutRep (j : RepInputs) (s : State) :
    exec (.rep { j with rep := .none }) s = mapNext (body j s) (oneDone j) :=
  exec_rep_none_eq (j := { j with rep := .none }) rfl s

/-- One turn of a repeat, by its body. -/
theorem exec_rep_turn {j : RepInputs} (hrep : j.rep ≠ .none) {s : State} {n : Nat}
    (hn : countOf j.addrSize s.core.count = n + 1) (ha : s.agentOps = []) (he : eligible s = false) :
    exec (.rep j) s = andThen (mapNext (body j s) (elementEnd j true)) fun t =>
      if stopsRepeat j.rep j.kind t.core.zf then .next (finishDriver j .completed t)
      else driverLoop j n t := by
  rw [exec_rep_loop hrep, hn, driverLoop_alone ha he, element_eq]

/-- The end of a counted element, by the end of an uncounted one: the count is one less, … -/
theorem finishDriver_elementEnd {j : RepInputs} {w : State} {n : BitVec 32} (h : w.core.count = n) :
    finishDriver j .completed (elementEnd j true w) = { oneDone j w with
      core := { (oneDone j w).core with count := decrement j.addrSize n } } := by
  subst h
  rfl

/-- … and `ip` and the result are not written before the driver ends. -/
theorem elementEnd_eq {j : RepInputs} {w : State} {n ip : BitVec 32} {r : Result} (h : w.core.count = n)
    (hip : w.core.ip = ip) (hr : w.result = r) : elementEnd j true w = { oneDone j w with
      core := { (oneDone j w).core with count := decrement j.addrSize n, ip := ip }, result := r } := by
  subst h hip hr
  rfl

end Sys2Proof.Machine

namespace Sys2Proof

open Sys2Proof.Machine Sys2Proof.Statements

/-- The first clause of O27: `port_in` and IN. -/
theorem portIn_isIn (s : State) (j : RepInputs) (hrep : j.rep = .none) (hk : j.kind = .portIn) :
    ∃ u t, exec (readOf j.width s.core.portReg) { s with events := s.events ++ [bodyCall j s] } = .next u
      ∧ exec (.rep j) s = .next t ∧ CoreAfterOne j s.core t.core
      ∧ t = { u with
          core := t.core, events := u.events ++ [.portData (readData u.result)]
          result := .driver .completed } := by
  obtain ⟨r, hread, hdata⟩ := exec_readOf j.width s.core.portReg (s.pushEvent (bodyCall j s))
  have hcore : (portReadWide j.width s.core.portReg (s.pushEvent (bodyCall j s))).2.core = s.core :=
    (bus_core (portReadWide_chain _ _ _).toBus).1
  refine ⟨_, _, hread, by rw [exec_rep_none_eq hrep, body_portIn hk]; rfl, ?_, ?_⟩
  · show CoreAfterOne j s.core (afterOne j
      (portReadWide j.width s.core.portReg (s.pushEvent (bodyCall j s))).2.core)
    rw [hcore]
    exact afterOne_spec j s.core
  · rw [setResult_result, hdata]
    rfl

/-- The second clause of O27: `port_out` and OUT. -/
theorem portOut_isOut (s : State) (j : RepInputs) (hrep : j.rep = .none) (hk : j.kind = .portOut) :
    ∃ v s1 k, (∀ r rest, s.bodyResults = r :: rest → v = r.data)
      ∧ s1 = { s with
          events := s.events ++ [bodyCall j s], bodyResults := s.bodyResults.tail, freeCount := s1.freeCount }
      ∧ CoreAfterOne j s.core k
      ∧ exec (.rep j) s = mapNext (exec (writeOf j.width s.core.portReg v) s1)
          (fun u => { u with core := k, result := .driver .completed }) := by
  obtain ⟨hanswer, hs1⟩ := takeBody_spec (s.pushEvent (bodyCall j s))
  refine ⟨_, (takeBody (s.pushEvent (bodyCall j s))).2, afterOne j s.core,
    fun r rest h => congrArg BodyResult.data (hanswer r rest h), hs1, afterOne_spec j s.core, ?_⟩
  have hbody := body_portOut hk s
  rw [exec_writeOf, ← hbody, exec_rep_none_eq hrep]
  cases hw : body j s with
  | next u =>
    have hcore : u.core = s.core := by
      rw [hw] at hbody
      have hreach := portWriteWide_reaches _ _ _ _ u hbody.symm
      exact (bus_core hreach).1.trans (takeBody_core _).1
    rw [← hcore]
    rfl
  | fault r => rfl
  | refused r => rfl

/-- The third clause of O27: a repeat that no interrupt aborts before its first element. -/
theorem repeat_isElementThenRepeat (s : State) (j : RepInputs) (hrep : j.rep ≠ .none)
    (hcount : countOf j.addrSize s.core.count ≠ 0) (halone : s.agentOps = []) (hpoll : ¬PollHolds s) :
    (∀ t, exec (.rep { j with rep := .none }) s = .next t → ∃ c, Moved j.addrSize (-1) s.core.count c
      ∧ countOf j.addrSize c = countOf j.addrSize s.core.count - 1
      ∧ (FlagStops j t.core.zf → exec (.rep j) s = .next { t with core := { t.core with count := c } })
      ∧ (¬FlagStops j t.core.zf → exec (.rep j) s = exec (.rep j) { t with
          core := { t.core with count := c, ip := s.core.ip }, result := s.result }))
    ∧ ∀ r, exec (.rep { j with rep := .none }) s = .fault r → exec (.rep j) s = .fault r := by
  have he : eligible s = false := Bool.not_eq_true _ ▸ mt (eligible_iff_pollHolds s).1 hpoll
  obtain ⟨n, hn⟩ := Nat.exists_eq_succ_of_ne_zero hcount
  have hmoved := decrement_moved j.addrSize s.core.count
  have hless : countOf j.addrSize (decrement j.addrSize s.core.count)
      = countOf j.addrSize s.core.count - 1 := moved_countOf (k := 1) hmoved (by omega)
  rw [exec_withoutRep, exec_rep_turn hrep hn halone he]
  cases hb : body j s with
  | fault f => exact ⟨fun t ht => (by cases ht), fun r hr => (by cases hr; rfl)⟩
  | refused f => exact ⟨fun t ht => (by cases ht), fun r hr => (by cases hr)⟩
  | next w =>
    obtain ⟨hcore, -⟩ := body_core hb
    have hwcount : w.core.count = s.core.count := by rw [hcore]
    have hwip : w.core.ip = s.core.ip := by rw [hcore]
    refine ⟨fun t ht => ?_, fun r hr => by cases hr⟩
    cases ht
    refine ⟨_, hmoved, hless, fun hstops => ?_, fun hgoes => ?_⟩
    · rw [← finishDriver_elementEnd hwcount]
      exact if_pos ((stopsRepeat_iff j _).2 hstops)
    · rw [← elementEnd_eq hwcount hwip (body_result hb)]
      have hleft : countOf j.addrSize (elementEnd j true w).core.count = n := by
        have hend : (elementEnd j true w).core.count = decrement j.addrSize w.core.count := rfl
        rw [hend, hwcount, hless, hn, Nat.succ_sub_one]
      rw [exec_rep_loop hrep, hleft]
      exact if_neg (mt (stopsRepeat_iff j _).1 hgoes)

/-- Settles O27: IN, OUT and the body call the same port access, and the loop's first turn is the body,
counted. -/
theorem portElementsDoWhatInAndOutDo : Obligations.PortElementsDoWhatInAndOutDo := fun s j =>
  ⟨portIn_isIn s j, portOut_isOut s j, repeat_isElementThenRepeat s j⟩

end Sys2Proof
end
